-- ==== Sys2Proof/Word.lean ====
section
/-! DEFINITION. The word types of the block: every value is an unsigned bit vector (R9), bit 0 least significant (R8). -/

namespace Sys2Proof

/-- A byte of the stream (R36, `BYTEW` of R6). -/
abbrev Byte := BitVec 8

/-- A command word (R54). -/
abbrev Word16 := BitVec 16

/-- A codec value or slot (`VALW` of R6, R23). -/
abbrev Word32 := BitVec 32

/-- The accumulator, the consumed-bit count, a descriptor, a response value (R14, R57, R60). -/
abbrev Word64 := BitVec 64

end Sys2Proof
end

