-- ==== Sys2Proof/Config.lean ====
section
/-! DEFINITION. What is fixed before reset: the constants of R6, the three configuration tables of R108 to R110, and the
parameter `Src` of R6. The procedures of Machine/ take the tables as an argument (R6: "parameter"); the machine runs them
at `Config.tables`. -/

namespace Sys2Proof

/-- The answer to one pull (R37). -/
inductive Answer where
  /-- `Byte(b)`: the source delivers its next byte. -/
  | byte (b : Byte)
  /-- `Eos`: the source is exhausted. -/
  | eos
  /-- `Err(e)`: the source reports a read error. -/
  | err (e : Byte)
deriving DecidableEq, Repr

/-- The read-only configuration tables (R30): codec descriptors `CT`, field descriptors `FT`, rationals `RT`. -/
structure Tables where
  /-- `CT`, 64-bit codec descriptors (R60). -/
  ct : List Word64
  /-- `FT`, 64-bit field descriptors (R63). -/
  ft : List Word64
  /-- `RT`, pairs (numerator, denominator) (R110). -/
  rt : List (Nat × Nat)
deriving DecidableEq, Repr

namespace Tables

/-- `NC`, the entries of `CT` (R6). -/
def nc (T : Tables) : Nat := T.ct.length

/-- `NF`, the fields of `FT` (R6). -/
def nf (T : Tables) : Nat := T.ft.length

end Tables

namespace Config

/-- `NMIN` (R6): smallest `n` of one PEEK or READ. -/
def nMin : Nat := 1

/-- `NMAX` (R6): largest `n` of one PEEK or READ. -/
def nMax : Nat := 56

/-- `WMAX` (R6): largest width of one FIXED or OFFSET codec. -/
def wMax : Nat := 32

/-- `SELW` (R6): width of the prefix selector. -/
def selW : Nat := 2

/-- `NS` (R6): field slots. -/
def nS : Nat := 8

/-- `SIGW` (R6): width of the signature read. -/
def sigW : Nat := 16

/-- `SIG` (R6, R114): the value the 16-bit signature read must return. -/
def sig : Word64 := 0x0AFF

/-- `CT` (R108), the descriptor words of entries 0 to 9. -/
def ct : List Word64 :=
  [0x0000000000000005, 0x0000000000000015, 0x0000000100000026, 0x0000000100000036, 0x000000010000004A,
   0x000000010000007A, 0x000000001440C203, 0x000000000000000D, 0x0000000000000041, 0x0000000000000000]

/-- `FT` (R109), the descriptor words of fields 0 to 5: `small`, `h_small`, `h_large`, `ratio`, `w_small`, `w_large`. -/
def ft : List Word64 :=
  [0x0000000000000000, 0x0000000000000841, 0x0000000000000046,
   0x0000000000000007, 0x00000000010801C1, 0x00000000000801C6]

/-- `RT` (R110), the rows of `ratio` 1 to 7. -/
def rt : List (Nat × Nat) := [(1, 1), (12, 10), (4, 3), (3, 2), (16, 9), (5, 4), (2, 1)]

/-- The tables of this hardware (R108 to R110). -/
def tables : Tables := ⟨ct, ft, rt⟩

/-- The parameter `Src` of R6: the `pull` of R37 of a source about which nothing is assumed, on the numbers of its states.
It gives the answer and the state after it, or none where the source never answers (R40). It has no body, so whatever is
proved of the machine holds for every `pull` (log 3, 22). -/
opaque pull : Nat → Option (Answer × Nat)

end Config

end Sys2Proof
end

