-- ==== Sys2Proof/Syntax.lean ====
section
/-! DEFINITION. The instructions: one constructor per row of spec/opcode_table.json (R53), the encoded objects they are
read from, and the reasons the decoder gives for rejecting one. -/

namespace Sys2Proof

/-- One comparator term of a field descriptor (R63, R64): `EN`, `SLOT`, `NE`, `K`. -/
structure Term where
  en : Bool
  slot : BitVec 3
  ne : Bool
  k : Byte
deriving DecidableEq, Repr

/-- The seven commands, the four codec descriptors and the field descriptor (R53). -/
inductive Instr where
  /-- PEEK n (R78). -/
  | peek (n : BitVec 6)
  /-- READ n (R79). -/
  | read (n : BitVec 6)
  /-- BITSREAD (R80). -/
  | bitsRead
  /-- RELEASE (R81). -/
  | release
  /-- RDT k (R90). -/
  | rdt (k : BitVec 6)
  /-- RUN (R100). -/
  | run
  /-- RDHDR (R115). -/
  | rdHdr
  /-- CONST c (R86). -/
  | const (c : Word32)
  /-- FIXED W (R87). -/
  | fixed (w : BitVec 6)
  /-- OFFSET W, O (R88). -/
  | offset (w : BitVec 6) (o : Word32)
  /-- PSEL a0, a1, a2, a3 (R89). -/
  | psel (a0 a1 a2 a3 : BitVec 6)
  /-- FIELD codec, term 0, term 1, default (R63, R97). -/
  | field (codec : BitVec 6) (t0 t1 : Term) (dflt : Word32)
deriving DecidableEq, Repr

/-- The three kinds of encoded object (R53). -/
inductive Encoded where
  /-- A command word `CMD` (R54). -/
  | command (w : Word16)
  /-- A codec descriptor `CDESC` (R60). -/
  | codec (d : Word64)
  /-- A field descriptor `FDESC` (R63). -/
  | field (d : Word64)
deriving DecidableEq, Repr

/-- Why the decoder rejects an encoded object. -/
inductive DecodeError where
  /-- `op` is 0 or 8 to 15 (R59). -/
  | reservedOpcode
  /-- `rsv ≠ 0` (R54, R59). -/
  | reservedBits
  /-- BITSREAD, RELEASE, RUN or RDHDR with `arg ≠ 0` (R59). -/
  | unusedArgument
  /-- A codec descriptor with a nonzero field that its kind does not use (R61, R65). -/
  | unusedField
deriving DecidableEq, Repr

end Sys2Proof
end

