-- ==== Sys2Proof/WellFormed.lean ====
section
/-! DEFINITION. Well-formed instructions: the constraint on `arg` of R55 for commands, R61 and R66 for codec
descriptors, R65 and R103 for field descriptors. -/

namespace Sys2Proof

/-- PEEK and READ take `1 ≤ n ≤ 56` (R56). -/
def countOk (n : BitVec 6) : Bool := Config.nMin ≤ n.toNat && n.toNat ≤ Config.nMax

/-- RDT takes `k < NC` (R56). -/
def indexOk (T : Tables) (k : BitVec 6) : Bool := k.toNat < T.nc

/-- FIXED and OFFSET have `1 ≤ W ≤ 32` (R66 (b)). -/
def widthOk (w : BitVec 6) : Bool := 1 ≤ w.toNat && w.toNat ≤ Config.wMax

/-- OFFSET has `O + 2^W − 1 ≤ 2^32 − 1` (R66 (c)). -/
def offsetOk (w : BitVec 6) (o : Word32) : Bool := o.toNat + 2 ^ w.toNat - 1 < 2 ^ 32

/-- A PSEL arm is in the table and is not a PSEL: `KIND = CDESC[1:0] ≠ 3` (R61, R66 (d)). -/
def armOk (T : Tables) (a : BitVec 6) : Bool :=
  match T.ct[a.toNat]? with
  | some d => d.extractLsb' 0 2 != 3#2
  | none => false

/-- A disabled term is all zero; an enabled one names a slot below the field's own index (R65, R103 (c) and (d)). -/
def termOk (idx : Nat) (t : Term) : Bool :=
  if t.en then decide (t.slot.toNat < idx) else t.slot == 0 && !t.ne && t.k == 0

/-- Well-formedness of an instruction under the tables `T`; `idx` is a field descriptor's own index in `FT` and is not
looked at for the other kinds. -/
def Instr.wf (T : Tables) (idx : Nat) : Instr → Bool
  | .peek n => countOk n
  | .read n => countOk n
  | .bitsRead => true
  | .release => true
  | .rdt k => indexOk T k
  | .run => true
  | .rdHdr => true
  | .const _ => true
  | .fixed w => widthOk w
  | .offset w o => widthOk w && offsetOk w o
  | .psel a0 a1 a2 a3 => armOk T a0 && armOk T a1 && armOk T a2 && armOk T a3
  | .field codec t0 t1 _ => indexOk T codec && termOk idx t0 && termOk idx t1

end Sys2Proof
end

