-- ==== Sys2Proof/Decode.lean ====
section
/-! DEFINITION. The decoder, total on every encoded object, and the encoder, both from the layouts of R54, R55, R60,
R61 and R63. The decoder reads the PATTERN of a row; the range of an operand is `Instr.wf` (log 6). -/

namespace Sys2Proof

/-- `op`, bits 15:12 of a command word (R54). -/
def cmdOp (w : Word16) : BitVec 4 := w.extractLsb' 12 4

/-- `rsv`, bits 11:6 of a command word (R54). -/
def cmdRsv (w : Word16) : BitVec 6 := w.extractLsb' 6 6

/-- `arg`, bits 5:0 of a command word (R54). -/
def cmdArg (w : Word16) : BitVec 6 := w.extractLsb' 0 6

/-- A command without operand has `arg = 0` (R55). -/
def withoutArg (w : Word16) (i : Instr) : Except DecodeError Instr :=
  if cmdArg w = 0 then .ok i else .error .unusedArgument

/-- The opcode map of R55; what it leaves out is reserved (R59). -/
def decodeCommand (w : Word16) : Except DecodeError Instr :=
  if cmdRsv w ≠ 0 then .error .reservedBits
  else match (cmdOp w).toNat with
    | 1 => .ok (.peek (cmdArg w))
    | 2 => .ok (.read (cmdArg w))
    | 3 => withoutArg w .bitsRead
    | 4 => withoutArg w .release
    | 5 => .ok (.rdt (cmdArg w))
    | 6 => withoutArg w .run
    | 7 => withoutArg w .rdHdr
    | _ => .error .reservedOpcode

/-- `KIND`, bits 1:0 of a codec descriptor (R60). -/
def cdKind (d : Word64) : BitVec 2 := d.extractLsb' 0 2

/-- `W`, bits 7:2 of a codec descriptor (R60). -/
def cdW (d : Word64) : BitVec 6 := d.extractLsb' 2 6

/-- `A0`, bits 13:8 of a codec descriptor (R60). -/
def cdA0 (d : Word64) : BitVec 6 := d.extractLsb' 8 6

/-- `A1`, bits 19:14 of a codec descriptor (R60). -/
def cdA1 (d : Word64) : BitVec 6 := d.extractLsb' 14 6

/-- `A2`, bits 25:20 of a codec descriptor (R60). -/
def cdA2 (d : Word64) : BitVec 6 := d.extractLsb' 20 6

/-- `A3`, bits 31:26 of a codec descriptor (R60). -/
def cdA3 (d : Word64) : BitVec 6 := d.extractLsb' 26 6

/-- `A0` to `A3` together, bits 31:8 of a codec descriptor (R60). -/
def cdArms (d : Word64) : BitVec 24 := d.extractLsb' 8 24

/-- `IMM`, bits 63:32 of a codec descriptor (R60, R62). -/
def cdImm (d : Word64) : Word32 := d.extractLsb' 32 32

/-- `i`, when the fields its kind does not use are 0 (R61). -/
def whenUnusedZero (zero : Bool) (i : Instr) : Except DecodeError Instr :=
  if zero then .ok i else .error .unusedField

/-- The kinds of R60 with the fields each uses (R61). -/
def decodeCdesc (d : Word64) : Except DecodeError Instr :=
  match (cdKind d).toNat with
  | 0 => whenUnusedZero (cdW d == 0 && cdArms d == 0) (.const (cdImm d))
  | 1 => whenUnusedZero (cdArms d == 0 && cdImm d == 0) (.fixed (cdW d))
  | 2 => whenUnusedZero (cdArms d == 0) (.offset (cdW d) (cdImm d))
  | _ => whenUnusedZero (cdW d == 0 && cdImm d == 0) (.psel (cdA0 d) (cdA1 d) (cdA2 d) (cdA3 d))

/-- The comparator term whose `EN` is bit `p` of the descriptor: `EN`, then `SLOT` (3 bits), `NE`, `K` (8 bits) (R63). -/
def fdTerm (p : Nat) (d : Word64) : Term :=
  ⟨d.getLsbD p, d.extractLsb' (p + 1) 3, d.getLsbD (p + 4), d.extractLsb' (p + 5) 8⟩

/-- The field descriptor of R63: `CODEC` 5:0, term 0 at bit 6, term 1 at bit 19, `DEFAULT` 63:32. -/
def decodeFdesc (d : Word64) : Instr :=
  .field (d.extractLsb' 0 6) (fdTerm 6 d) (fdTerm 19 d) (d.extractLsb' 32 32)

/-- The decoder (R53). -/
def decode : Encoded → Except DecodeError Instr
  | .command w => decodeCommand w
  | .codec d => decodeCdesc d
  | .field d => .ok (decodeFdesc d)

/-- A command word: `op` 15:12, `rsv = 0`, `arg` 5:0 (R54). -/
def packCommand (op : BitVec 4) (arg : BitVec 6) : Word16 := op ++ 0#6 ++ arg

/-- A codec descriptor: `IMM`, `A3`, `A2`, `A1`, `A0`, `W`, `KIND` from the top (R60). -/
def packCdesc (kind : BitVec 2) (w a0 a1 a2 a3 : BitVec 6) (imm : Word32) : Word64 :=
  imm ++ a3 ++ a2 ++ a1 ++ a0 ++ w ++ kind

/-- The 13 bits of a comparator term: `K`, `NE`, `SLOT`, `EN` from the top (R63). -/
def packTerm (t : Term) : BitVec 13 := t.k ++ BitVec.ofBool t.ne ++ t.slot ++ BitVec.ofBool t.en

/-- A field descriptor: `DEFAULT`, term 1, term 0, `CODEC` from the top (R63). -/
def packFdesc (codec : BitVec 6) (t0 t1 : Term) (dflt : Word32) : Word64 :=
  dflt ++ packTerm t1 ++ packTerm t0 ++ codec

/-- The encoder: the encoded object of an instruction (R55, R60, R63). -/
def encode : Instr → Encoded
  | .peek n => .command (packCommand 1 n)
  | .read n => .command (packCommand 2 n)
  | .bitsRead => .command (packCommand 3 0)
  | .release => .command (packCommand 4 0)
  | .rdt k => .command (packCommand 5 k)
  | .run => .command (packCommand 6 0)
  | .rdHdr => .command (packCommand 7 0)
  | .const c => .codec (packCdesc 0 0 0 0 0 0 c)
  | .fixed w => .codec (packCdesc 1 w 0 0 0 0 0)
  | .offset w o => .codec (packCdesc 2 w 0 0 0 0 o)
  | .psel a0 a1 a2 a3 => .codec (packCdesc 3 0 a0 a1 a2 a3 0)
  | .field codec t0 t1 dflt => .field (packFdesc codec t0 t1 dflt)

/-- How many bits an encoded object has (R53). -/
def Encoded.nbits : Encoded → Nat
  | .command _ => 16
  | .codec _ => 64
  | .field _ => 64

/-- A word is a legal encoding when it matches a row of R55 with the constraint on its operand: it decodes to a
well-formed command. -/
def legalWord (T : Tables) (w : Word16) : Bool :=
  match decodeCommand w with
  | .ok i => i.wf T 0
  | .error _ => false

/-- The encoded object that `nbits` table bits `w` stand for: up to 16 bits a command word; more a codec descriptor,
or a field descriptor where no codec descriptor reads so (log 11). -/
def encodedOf (nbits w : Nat) : Encoded :=
  if nbits ≤ 16 then .command (BitVec.ofNat 16 w)
  else match decodeCdesc (BitVec.ofNat 64 w) with
    | .ok _ => .codec (BitVec.ofNat 64 w)
    | .error _ => .field (BitVec.ofNat 64 w)

/-- The instruction the decoder reads from `nbits` table bits `w`. -/
def decodeTableWord (nbits w : Nat) : Option Instr :=
  match decode (encodedOf nbits w) with
  | .ok i => some i
  | .error _ => none

end Sys2Proof
end

