-- ==== Sys2Proof/Machine/State.lean ====
section
/-! DEFINITION. The state of the block (R14), of its byte source (R37) and of its two host ports (R3), as plain data;
the stops of a step; the state after reset (R31). -/

namespace Sys2Proof.Machine

/-- How a byte source goes on once its listed bytes are delivered: the reference source of R38 answers `Eos` or `Err(e)`;
a source may never answer (R40); and any other source is the parameter of R6 and R37, endless ones among them. -/
inductive SourceEnd where
  /-- Every further pull answers `Eos` (R37, R38). -/
  | eos
  /-- Every further pull answers `Err(e)` (R37, R38). -/
  | err (e : Byte)
  /-- No further pull is answered (R40, U6). -/
  | never
  /-- The source of R6's parameter `Src`, in its state number `σ`: it answers as `Config.pull` says (R37; log 3, 22). -/
  | outside (σ : Nat)
deriving DecidableEq, Repr

/-- The byte source (R37, R38): bytes still to be delivered, in delivery order, and how it goes on after them. With no
listed byte and `outside σ` it is the parameter source itself. -/
structure Source where
  bytes : List Byte
  tail : SourceEnd
deriving DecidableEq, Repr

/-- One field slot: `unbound` is `BOUND[i] = 0`, where `SLOT[i]` holds no value (R24, R34); `bound v` is `BOUND[i] = 1`
with `SLOT[i] = v` (R23). -/
inductive SlotCell where
  | unbound
  | bound (v : Word32)
deriving DecidableEq, Repr

/-- The dimension header record: `invalid` is `HDR_VALID = 0`, where `HDR_W` and `HDR_H` hold no value (R26, R34);
`valid w h` is `HDR_VALID = 1` with `HDR_W = w`, `HDR_H = h`. -/
inductive HdrRecord where
  | invalid
  | valid (w h : Word32)
deriving DecidableEq, Repr

/-- The four causes of a fault of the block (R119). -/
inductive Cause where
  | badSignature
  | endOfStream
  | sourceError
  | illegalCommand
deriving DecidableEq, Repr

/-- A response on the response port (R57). An error response carries no value (R34). -/
inductive Response where
  /-- `Ok(v)`. -/
  | ok (v : Word64)
  /-- `Err(c, e)`. -/
  | err (c : BitVec 3) (e : Byte)
  /-- `Count(f, b)`, by BITSREAD only. -/
  | count (f : BitVec 3) (b : Word64)
deriving DecidableEq, Repr

/-- A move of the environment between commands (R3, R138). -/
inductive HostEvent where
  /-- The host issues a command word. -/
  | command (w : Word16)
  /-- The environment resets the block and attaches a source (R138). -/
  | reset (src : Source)
deriving DecidableEq, Repr

/-- Which encoded object the next step executes (R53; log 4): the command port, or one descriptor word latched from a
table (R104 step (1)). No command latches one: commands run their descriptors inside their own step (R11). -/
inductive Fetch where
  | port
  | codec (d : Word64)
  | field (d : Word64)
deriving DecidableEq, Repr

/-- The whole state: the registers of R14, the source and `PULLED` (R37), and the ports. -/
@[ext]
structure State where
  /-- `ACC` (R15). -/
  acc : Word64
  /-- `NBITS` (R16). -/
  nbits : BitVec 7
  /-- `BITS_READ` (R17). -/
  bitsRead : Word64
  /-- `OWN` (R20). -/
  own : Bool
  /-- `FAULT` (R21). -/
  fault : BitVec 3
  /-- `ERRINFO` (R22). -/
  errinfo : Byte
  /-- `SLOT[0..7]` with `BOUND[0..7]` (R23, R24). -/
  slots : Vector SlotCell 8
  /-- `FIDX` (R25). -/
  fidx : BitVec 4
  /-- `HDR_W`, `HDR_H`, `HDR_VALID` (R26). -/
  hdr : HdrRecord
  /-- `src`, the source's own state (R37). -/
  src : Source
  /-- `PULLED`, the ghost count of bytes delivered since reset (R37). -/
  pulled : Nat
  /-- The command port: the environment's pending moves, the first one next (R3; log 1). -/
  host : List HostEvent
  /-- The response port: the last response (R57; log 10). -/
  resp : Option Response
  /-- The model's own: what the next step executes (log 4). -/
  fetch : Fetch
  /-- The model's own: the value the last stepped codec descriptor returned (R85; log 4). -/
  value : Option Word32
deriving DecidableEq, Repr

/-- Why a step has no successor. The block's own faults are not here: they are next states (R124). -/
inductive Fault where
  /-- Raised by a pull of a source that never answers: the block is stuck inside the command (R40, U6). Safe. -/
  | sourceNeverAnswers
  /-- Raised by a condition term or `assemble()` that reads an unbound slot, "a fault of the model, not a value" (R24);
  well-formed tables never do (R103). Safe. -/
  | unboundSlotRead
deriving DecidableEq, Repr

/-- Why the model gives a step no meaning. -/
inductive Refusal where
  /-- Raised by an arm of `exec` whose instruction has no meaning yet. Safe. No arm raises it. -/
  | notModelled (mnemonic : String)
  /-- Raised by a consume that would take `BITS_READ` to 2^64 or beyond, which "has no meaning in this spec and a model
  refuses it" (R17, U3). Safe. -/
  | bitsReadOverflow
  /-- Raised by a codec or field descriptor that is ill-formed (R65, U5). Safe. -/
  | illFormedDescriptor
  /-- Raised where a table breaks R66, R103 or R112: an index outside `CT`, `FT` or `RT`, a denominator 0, `NF` outside
  1 to 8, a dimension of 2^32 or more. Safe. -/
  | illFormedTable
  /-- Raised by a field descriptor stepped on its own while `FIDX ≥ NF`: `field_step` "requires FIDX < NF" (R97). Safe. -/
  | noFieldSelected
deriving DecidableEq, Repr

/-- What a procedure of the pseudocode ends in: a value and a state; a raised fault, which abandons the rest of the
command (R124); or a stop of the model. -/
inductive Res (α : Type) where
  | done (v : α) (s : State)
  | raised (s : State)
  | stuck (f : Fault)
  | refused (r : Refusal)

/-- What the step finds to execute. -/
inductive Fetched where
  /-- No event is pending: the block waits for a command word (R140). -/
  | waiting
  /-- The environment resets the block into this state (R138). -/
  | restart (s : State)
  /-- An encoded object that decodes. -/
  | instr (i : Instr) (s : State)
  /-- A command word that decodes to nothing (R59). -/
  | illegal (s : State)
  /-- A latched descriptor that decodes to nothing (R65). -/
  | illFormed

/-- The outcome of an instruction. -/
abbrev Out := Host.Outcome State Fault Refusal

/-- The reset values of R31 around the source the environment supplies (R138); `host` are the moves still pending. -/
def State.resetWith (src : Source) (host : List HostEvent) : State where
  acc := 0
  nbits := 0
  bitsRead := 0
  own := true
  fault := 0
  errinfo := 0
  slots := Vector.replicate 8 .unbound
  fidx := 0
  hdr := .invalid
  src := src
  pulled := 0
  host := host
  resp := none
  fetch := .port
  value := none

/-- The machine right after reset (R31, R139), with the empty source and no pending move (log 16). -/
def State.reset : State := State.resetWith ⟨[], .eos⟩ []

end Sys2Proof.Machine
end

