-- ==== Sys2Proof/Machine/Ops.lean ====
section
/-! DEFINITION. The shared operations: sequencing, the pull, raising a fault, the reader's procedures (R73 to R76, R83),
the slot file, responses, the command gate (R77), and fetching what the next step executes. -/

namespace Sys2Proof.Machine

/-- Run `p`, then `k` on its value and state; a raise or a stop ends the whole (R124 "abandon the rest"). -/
def Res.bind {α β : Type} (p : Res α) (k : α → State → Res β) : Res β :=
  match p with
  | .done v s => k v s
  | .raised s => .raised s
  | .stuck f => .stuck f
  | .refused r => .refused r

/-- `mask(n) = 2^n − 1` (R10). -/
def mask (n : Nat) : Word64 := BitVec.ofNat 64 (2 ^ n - 1)

/-- The numeric code of a cause (R58). -/
def causeCode : Cause → BitVec 3
  | .badSignature => 1
  | .endOfStream => 2
  | .sourceError => 3
  | .illegalCommand => 4

/-- `pull` (R37): the answer and the source after it; none when the source never answers (R40). Listed bytes come first
(R38), then what `Config.pull` says of a source that is a parameter. -/
def Source.pull (src : Source) : Option (Answer × Source) :=
  match src.bytes with
  | b :: bs => some (.byte b, { src with bytes := bs })
  | [] =>
    match src.tail with
    | .eos => some (.eos, src)
    | .err e => some (.err e, src)
    | .never => none
    | .outside σ => (Config.pull σ).map fun p => (p.1, ⟨[], .outside p.2⟩)

/-- Put a response on the response port (R57). -/
def respond (r : Response) (s : State) : State := { s with resp := some r }

/-- `raise C(e)` (R124): latch the cause, keep `e` for SOURCE_ERROR only, respond `Err`. -/
def raise (c : Cause) (e : Byte) (s : State) : State :=
  let info : Byte := if c = .sourceError then e else 0
  respond (.err (causeCode c) info) { s with fault := causeCode c, errinfo := info }

/-- The delivery of byte `b` by `refill` (R73): the byte goes above the valid bits. -/
def appendByte (b : Byte) (s : State) : State :=
  { s with acc := s.acc ||| (b.setWidth 64 <<< s.nbits.toNat), nbits := s.nbits + 8, pulled := s.pulled + 1 }

/-- The loop of `refill(n)` (R73). The first argument bounds the tests of `NBITS < n`; R73: at most seven pulls are
needed for `n ≤ 56`, so with eight tests the bound is never what ends the loop (log 20). -/
def refillLoop : Nat → Nat → State → Res Unit
  | 0, _, s => .done () s
  | k + 1, n, s =>
    if s.nbits.toNat < n then
      match s.src.pull with
      | some (.byte b, src') => refillLoop k n (appendByte b { s with src := src' })
      | some (.eos, src') => .raised (raise .endOfStream 0 { s with src := src' })
      | some (.err e, src') => .raised (raise .sourceError e { s with src := src' })
      | none => .stuck .sourceNeverAnswers
    else .done () s

/-- `refill(n)` (R73). -/
def refill (n : Nat) (s : State) : Res Unit := refillLoop 8 n s

/-- `peek(n)` (R74). -/
def peek (n : Nat) (s : State) : Res Word64 := (refill n s).bind fun _ t => .done (t.acc &&& mask n) t

/-- `consume(n)` (R75); a count that would reach 2^64 is refused (R17). -/
def consume (n : Nat) (s : State) : Res Unit :=
  if s.bitsRead.toNat + n < 2 ^ 64 then
    .done () { s with
      acc := s.acc >>> n
      nbits := s.nbits - BitVec.ofNat 7 n
      bitsRead := s.bitsRead + BitVec.ofNat 64 n }
  else .refused .bitsReadOverflow

/-- `read(n)` (R76): peek, then consume. -/
def read (n : Nat) (s : State) : Res Word64 :=
  (peek n s).bind fun v t => (consume n t).bind fun _ u => .done v u

/-- `release()` (R83). -/
def release (s : State) : State := { s with acc := 0, nbits := 0, own := false }

/-- Read `SLOT[i]`; an unbound slot holds no value (R24). -/
def getSlot (i : BitVec 3) (s : State) : Res Word32 :=
  match s.slots[i.toNat] with
  | .bound v => .done v s
  | .unbound => .stuck .unboundSlotRead

/-- The end of a field step (R97): `SLOT[FIDX] <- v`, `BOUND[FIDX] <- 1`, `FIDX <- FIDX + 1`. -/
def bindField (v : Word32) (s : State) : State :=
  { s with slots := s.slots.setIfInBounds s.fidx.toNat (.bound v), fidx := s.fidx + 1 }

/-- The start of `run_schema()` (R99): `HDR_VALID <- 0`, every `BOUND[i] <- 0`, `FIDX <- 0`. -/
def startRecord (s : State) : State :=
  { s with hdr := .invalid, slots := Vector.replicate 8 .unbound, fidx := 0 }

/-- The record response `(zext(HDR_H) << 32) | zext(HDR_W)` (R57, R100). -/
def packDims (w h : Word32) : Word64 := (h.setWidth 64 <<< 32) ||| w.setWidth 64

/-- The end of a command that completed with `Ok(v)` (R57); a raise has responded already (R124). -/
def answer : Res Word64 → Out
  | .done v s => .next (respond (.ok v) s)
  | .raised s => .next s
  | .stuck f => .fault f
  | .refused r => .refused r

/-- The end of a codec descriptor stepped on its own: its value goes to `value`; a faulted one has none (R34; log 4). -/
def yieldValue : Res Word32 → Out
  | .done v s => .next { s with value := some v }
  | .raised s => .next { s with value := none }
  | .stuck f => .fault f
  | .refused r => .refused r

/-- The end of a field descriptor stepped on its own. -/
def yieldUnit : Res Unit → Out
  | .done _ s => .next s
  | .raised s => .next s
  | .stuck f => .fault f
  | .refused r => .refused r

/-- Steps 2 to 5 of the command gate (R77): a latched fault is reported again; an illegal word, or a command while the
source is not owned, raises ILLEGAL_COMMAND; otherwise the command's rule runs. Step 1 is that BITSREAD has no gate. -/
def gated (legal : Bool) (body : State → Out) (s : State) : Out :=
  if s.fault ≠ 0 then .next (respond (.err s.fault s.errinfo) s)
  else if legal = false then .next (raise .illegalCommand 0 s)
  else if s.own = false then .next (raise .illegalCommand 0 s)
  else body s

/-- A command word that decodes to nothing, at the gate (R59, R77). -/
def illegalWord (s : State) : Out := gated false (fun t => .next t) s

/-- What the next step executes: a latched descriptor (log 4), else the environment's first pending move (log 1, 2). -/
def fetchNext (s : State) : Fetched :=
  match s.fetch with
  | .codec d =>
    match decode (.codec d) with
    | .ok i => .instr i { s with fetch := .port }
    | .error _ => .illFormed
  | .field d =>
    match decode (.field d) with
    | .ok i => .instr i { s with fetch := .port }
    | .error _ => .illFormed
  | .port =>
    match s.host with
    | [] => .waiting
    | .reset src :: rest => .restart (State.resetWith src rest)
    | .command w :: rest =>
      match decode (.command w) with
      | .ok i => .instr i { s with host := rest }
      | .error _ => .illegal { s with host := rest }

/-- `s` with the encoded object `o` where `fetchNext` takes its next one: a command word in front of the pending moves,
a descriptor latched (log 14). -/
def placeObject (o : Encoded) (s : State) : State :=
  match o with
  | .command w => { s with host := .command w :: s.host, fetch := .port }
  | .codec d => { s with fetch := .codec d }
  | .field d => { s with fetch := .field d }

end Sys2Proof.Machine
end

