-- ==== Sys2Proof/Machine/Operands.lean ====
section
/-! DEFINITION. The operand forms: the command operand (R56), the descriptor immediates (R62), the entries of the
tables, and the checks the gate and the descriptors make on them. -/

namespace Sys2Proof.Machine

/-- The tables the machine runs (R108 to R110). -/
def tables : Tables := Config.tables

/-- `n = zext(arg)` or `W = zext(CDESC[7:2])`: unsigned, not scaled, not biased (R56, R62). -/
def countOf (n : BitVec 6) : Nat := n.toNat

/-- `K`, 8 bits zero-extended to 32 (R62, R64). -/
def constantOf (k : Byte) : Word32 := k.setWidth 32

/-- `zext_32` of a value read (R87). -/
def valueOf (v : Word64) : Word32 := v.setWidth 32

/-- A command is legal when its operand is in range (R55, R56). -/
def commandLegal (i : Instr) : Bool := i.wf tables 0

/-- The codec descriptor `CT[k]`, decoded; none outside the table or for a word that is no codec descriptor. -/
def codecAt (T : Tables) (k : Nat) : Option Instr :=
  match T.ct[k]? with
  | some d =>
    match decode (.codec d) with
    | .ok i => some i
    | .error _ => none
  | none => none

/-- The field descriptor `FT[i]`, decoded; none outside the table. -/
def fieldAt (T : Tables) (i : Nat) : Option Instr :=
  match T.ft[i]? with
  | some d =>
    match decode (.field d) with
    | .ok f => some f
    | .error _ => none
  | none => none

/-- The 4-way multiplexer of a PSEL: arm `i` for selector value `i` (R89). -/
def pickArm (a0 a1 a2 a3 : BitVec 6) (sel : Word64) : BitVec 6 :=
  match sel.toNat with
  | 0 => a0
  | 1 => a1
  | 2 => a2
  | _ => a3

/-- Every codec descriptor of `CT` decodes and is well-formed (R66). -/
def codecTableOk (T : Tables) : Bool :=
  (List.range T.nc).all fun k =>
    match codecAt T k with
    | some i => i.wf T 0
    | none => false

/-- Every field descriptor of `FT` is well-formed at its own index (R103 (b), (c), (d)). -/
def fieldTableOk (T : Tables) : Bool :=
  (List.range T.nf).all fun i =>
    match fieldAt T i with
    | some f => f.wf T i
    | none => false

/-- `1 ≤ NF ≤ NS` (R103 (a)). -/
def fieldCountOk (T : Tables) : Bool := 1 ≤ T.nf && T.nf ≤ Config.nS

/-- The well-formedness premise on the configuration (R66, R103); (e): `assemble()` reads slots 0 to 5; a rational is a
pair of positive integers (R110). -/
def tablesOk (T : Tables) : Bool :=
  codecTableOk T && fieldTableOk T && fieldCountOk T && 6 ≤ T.nf && T.rt.all fun r => 0 < r.1 && 0 < r.2

end Sys2Proof.Machine
end

