-- ==== Sys2Proof/Machine/Flags.lean ====
section
/-! DEFINITION. The status flags (R27): `BOUND[i]` and `HDR_VALID` as bits, the phases of R32, and the presence
predicate of a field (R96). The block has no arithmetic condition codes (R27). -/

namespace Sys2Proof.Machine

/-- `BOUND[i]` (R24). -/
def boundBit (i : BitVec 3) (s : State) : Bool :=
  match s.slots[i.toNat] with
  | .bound _ => true
  | .unbound => false

/-- `HDR_VALID` (R26). -/
def hdrValid (s : State) : Bool :=
  match s.hdr with
  | .valid _ _ => true
  | .invalid => false

/-- The ACTIVE phase (R32). -/
abbrev isActive (s : State) : Prop := s.fault = 0 ∧ s.own = true

/-- The RELEASED phase (R32). -/
abbrev isReleased (s : State) : Prop := s.fault = 0 ∧ s.own = false

/-- The FAULTED phase (R32). -/
abbrev isFaulted (s : State) : Prop := s.fault ≠ 0

/-- `term(en, s, ne, K)` (R96): true when disabled, else `(SLOT[s] = zext_32(K)) xor ne`; it reads the slot, so an
unbound one stops the model (R24). -/
def term (t : Term) (s : State) : Res Bool :=
  if t.en then (getSlot t.slot s).bind fun v u => .done ((v == constantOf t.k) != t.ne) u
  else .done true s

/-- `present(d)` (R96): both terms are evaluated, the condition is their conjunction. -/
def present (t0 t1 : Term) (s : State) : Res Bool :=
  (term t0 s).bind fun p u => (term t1 u).bind fun q v => .done (p && q) v

/-- The `status[2:0]` lines of a response (R57). -/
def Response.status : Response → BitVec 3
  | .ok _ => 0
  | .err c _ => c
  | .count f _ => f

/-- The `value[63:0]` lines of a response; absent for an error response beyond `value[7:0]` (R57, R34). -/
def Response.value : Response → Option Word64
  | .ok v => some v
  | .err _ _ => none
  | .count _ b => some b

/-- The `value[7:0]` lines of an error response, `ERRINFO` (R57). -/
def Response.errorInfo : Response → Option Byte
  | .ok _ => none
  | .err _ e => some e
  | .count _ _ => none

end Sys2Proof.Machine
end

