-- ==== Sys2Proof/Machine/Codecs.lean ====
section
/-! DEFINITION. The primitive codecs and the typed read (`41_codecs.md`). `decode*` are the procedures of R85 to R89, over
any tables `T`; `exec*` run one descriptor as a step of its own (log 4, 5), and RDT the descriptor `CT[k]`. -/

namespace Sys2Proof.Machine

/-- `decode_const` (R86): takes no bits. -/
def decodeConst (c : Word32) (s : State) : Res Word32 := .done c s

/-- `decode_fixed` (R87): one `read(W)`. -/
def decodeFixed (w : BitVec 6) (s : State) : Res Word32 :=
  if widthOk w then (read (countOf w) s).bind fun v t => .done (valueOf v) t
  else .refused .illFormedDescriptor

/-- `decode_offset` (R88): one `read(W)`, plus the bias; the sum fits by R66 (c). -/
def decodeOffset (w : BitVec 6) (o : Word32) (s : State) : Res Word32 :=
  if widthOk w && offsetOk w o then (read (countOf w) s).bind fun v t => .done (valueOf v + o) t
  else .refused .illFormedDescriptor

/-- The chosen arm of a PSEL: a CONST, FIXED or OFFSET entry of `CT` (R66 (d), R89). -/
def decodeArm (T : Tables) (a : BitVec 6) (s : State) : Res Word32 :=
  match codecAt T a.toNat with
  | some (.const c) => decodeConst c s
  | some (.fixed w) => decodeFixed w s
  | some (.offset w o) => decodeOffset w o s
  | _ => .refused .illFormedTable

/-- `decode_psel` (R89): one `read(2)`, then exactly one arm. -/
def decodePsel (T : Tables) (a0 a1 a2 a3 : BitVec 6) (s : State) : Res Word32 :=
  if armOk T a0 && armOk T a1 && armOk T a2 && armOk T a3 then
    (read Config.selW s).bind fun sel t => decodeArm T (pickArm a0 a1 a2 a3 sel) t
  else .refused .illFormedDescriptor

/-- `decode(k)` (R85). -/
def decodeCodec (T : Tables) (k : BitVec 6) (s : State) : Res Word32 :=
  match codecAt T k.toNat with
  | some (.const c) => decodeConst c s
  | some (.fixed w) => decodeFixed w s
  | some (.offset w o) => decodeOffset w o s
  | some (.psel a0 a1 a2 a3) => decodePsel T a0 a1 a2 a3 s
  | _ => .refused .illFormedTable

/-- CONST c as a step of its own (R86). -/
def execConst (c : Word32) (s : State) : Out := gated true (fun t => yieldValue (decodeConst c t)) s

/-- FIXED W as a step of its own (R87). -/
def execFixed (w : BitVec 6) (s : State) : Out := gated true (fun t => yieldValue (decodeFixed w t)) s

/-- OFFSET W, O as a step of its own (R88). -/
def execOffset (w : BitVec 6) (o : Word32) (s : State) : Out :=
  gated true (fun t => yieldValue (decodeOffset w o t)) s

/-- PSEL a0, a1, a2, a3 as a step of its own (R89). -/
def execPsel (a0 a1 a2 a3 : BitVec 6) (s : State) : Out :=
  gated true (fun t => yieldValue (decodePsel tables a0 a1 a2 a3 t)) s

/-- RDT k (R90). -/
def execRdt (k : BitVec 6) (s : State) : Out :=
  gated (commandLegal (.rdt k))
    (fun t => answer ((decodeCodec tables k t).bind fun v u => .done (v.setWidth 64) u)) s

end Sys2Proof.Machine
end

