-- ==== Sys2Proof/Machine/Header.lean ====
section
/-! DEFINITION. The field-schema engine and the dimension header (`42_schema.md`, `43_header.md`): the field step, the
record, its assembly, RUN and RDHDR, over any tables `T`. -/

namespace Sys2Proof.Machine

/-- `field_step()` for the descriptor fetched (R97): decode the field if it is present, else take its default. -/
def stepField (T : Tables) (codec : BitVec 6) (t0 t1 : Term) (dflt : Word32) (s : State) : Res Unit :=
  if s.fidx.toNat < T.nf then
    if (Instr.field codec t0 t1 dflt).wf T s.fidx.toNat then
      (present t0 t1 s).bind fun p t =>
        if p then (decodeCodec T codec t).bind fun v u => .done () (bindField v u)
        else .done () (bindField dflt t)
    else .refused .illFormedDescriptor
  else .refused .noFieldSelected

/-- `field_step()` (R97): fetch `FT[FIDX]` and step it. -/
def fieldStep (T : Tables) (s : State) : Res Unit :=
  match fieldAt T s.fidx.toNat with
  | some (.field codec t0 t1 dflt) => stepField T codec t0 t1 dflt s
  | _ => .refused .illFormedTable

/-- `while FIDX < NF: field_step()` (R99), the loop of exactly `NF` steps: the first argument counts the steps left. -/
def runFields (T : Tables) : Nat → State → Res Unit
  | 0, s => .done () s
  | k + 1, s => if s.fidx.toNat < T.nf then (fieldStep T s).bind fun _ t => runFields T k t else .done () s

/-- `8 × (v + 1)`, the transform of the small regime (R111). -/
def smallDim (v : Word32) : Nat := 8 * (v.toNat + 1)

/-- The height of `assemble()` (R111). -/
def assembleHeight (small : Word32) (s : State) : Res Nat :=
  if small = 1 then (getSlot 1 s).bind fun v t => .done (smallDim v) t
  else (getSlot 2 s).bind fun v t => .done v.toNat t

/-- The width of `assemble()` (R111): `floor(h × num / den)`, or the explicit width field. -/
def assembleWidth (T : Tables) (small ratio : Word32) (h : Nat) (s : State) : Res Nat :=
  if 0 < ratio.toNat then
    match T.rt[ratio.toNat - 1]? with
    | some (num, den) => if den = 0 then .refused .illFormedTable else .done (h * num / den) s
    | none => .refused .illFormedTable
  else if small = 1 then (getSlot 4 s).bind fun v t => .done (smallDim v) t
  else (getSlot 5 s).bind fun v t => .done v.toNat t

/-- `assemble()` (R111): `(w, h)` from the bound slots, exact, then narrowed to 32 bits where they fit (R112; log 13). -/
def assemble (T : Tables) (s : State) : Res (Word32 × Word32) :=
  (getSlot 0 s).bind fun small t => (getSlot 3 t).bind fun ratio u =>
    (assembleHeight small u).bind fun h v => (assembleWidth T small ratio h v).bind fun w x =>
      if w < 2 ^ 32 ∧ h < 2 ^ 32 then .done (BitVec.ofNat 32 w, BitVec.ofNat 32 h) x
      else .refused .illFormedTable

/-- `run_schema()` (R99), returning the record's response value. -/
def runSchema (T : Tables) (s : State) : Res Word64 :=
  if fieldCountOk T then
    (runFields T T.nf (startRecord s)).bind fun _ t => (assemble T t).bind fun wh u =>
      .done (packDims wh.1 wh.2) { u with hdr := .valid wh.1 wh.2 }
  else .refused .illFormedTable

/-- `read_header()` (R115): the signature, the record, the release. -/
def readHeader (T : Tables) (s : State) : Res Word64 :=
  (read Config.sigW s).bind fun v t =>
    if v = Config.sig then (runSchema T t).bind fun dims u => .done dims (release u)
    else .raised (raise .badSignature 0 (release t))

/-- FIELD as a step of its own, the field `FIDX` (R97). -/
def execField (codec : BitVec 6) (t0 t1 : Term) (dflt : Word32) (s : State) : Out :=
  gated true (fun t => yieldUnit (stepField tables codec t0 t1 dflt t)) s

/-- RUN (R100). -/
def execRun (s : State) : Out := gated (commandLegal .run) (fun t => answer (runSchema tables t)) s

/-- RDHDR (R115). -/
def execRdHdr (s : State) : Out := gated (commandLegal .rdHdr) (fun t => answer (readHeader tables t)) s

end Sys2Proof.Machine
end

