-- ==== Sys2Proof/Machine/Reader.lean ====
section
/-! DEFINITION. The reader commands: PEEK, READ, BITSREAD, RELEASE (`40_reader.md`). -/

namespace Sys2Proof.Machine

/-- PEEK n (R78). -/
def execPeek (n : BitVec 6) (s : State) : Out :=
  gated (commandLegal (.peek n)) (fun t => answer (peek (countOf n) t)) s

/-- READ n (R79). -/
def execRead (n : BitVec 6) (s : State) : Out :=
  gated (commandLegal (.read n)) (fun t => answer (read (countOf n) t)) s

/-- BITSREAD (R80), legal in every phase: step 1 of the gate (R77). -/
def execBitsRead (s : State) : Out := .next (respond (.count s.fault s.bitsRead) s)

/-- RELEASE (R81). -/
def execRelease (s : State) : Out :=
  gated (commandLegal .release) (fun t => answer (.done 0 (release t))) s

end Sys2Proof.Machine
end

