-- ==== Sys2Proof/Machine/Dispatch.lean ====
section
/-! DEFINITION. One arm per constructor of `Instr`, each one direct call of its meaning. -/

namespace Sys2Proof.Machine

def exec (i : Instr) (s : State) : Host.Outcome State Fault Refusal :=
  match i with
  | .peek n => Sys2Proof.Machine.execPeek n s
  | .read n => Sys2Proof.Machine.execRead n s
  | .bitsRead => Sys2Proof.Machine.execBitsRead s
  | .release => Sys2Proof.Machine.execRelease s
  | .rdt k => Sys2Proof.Machine.execRdt k s
  | .run => Sys2Proof.Machine.execRun s
  | .rdHdr => Sys2Proof.Machine.execRdHdr s
  | .const c => Sys2Proof.Machine.execConst c s
  | .fixed w => Sys2Proof.Machine.execFixed w s
  | .offset w o => Sys2Proof.Machine.execOffset w o s
  | .psel a0 a1 a2 a3 => Sys2Proof.Machine.execPsel a0 a1 a2 a3 s
  | .field codec t0 t1 dflt => Sys2Proof.Machine.execField codec t0 t1 dflt s

end Sys2Proof.Machine
end

