-- ==== Sys2Proof/Machine/Step.lean ====
section
/-! DEFINITION. One step of the block: it executes what `fetchNext` finds. A command is one step (R11). -/

namespace Sys2Proof.Machine

/-- One step. With no pending move the block waits for a command word, and nothing changes (R140; log 1). -/
def step (s : State) : Host.Outcome State Fault Refusal :=
  match fetchNext s with
  | .waiting => .next s
  | .restart t => .next t
  | .instr i t => exec i t
  | .illegal t => illegalWord t
  | .illFormed => .refused .illFormedDescriptor

/-- `s` with `nbits` table bits `w` stored where the next step fetches (log 14). -/
def State.withFetchWord (s : State) (nbits w : Nat) : State := placeObject (encodedOf nbits w) s

end Sys2Proof.Machine
end

