-- ==== Sys2Proof/Safety.lean ====
section
/-! DEFINITION. The terms the claims use: a safe run, the stream as a number, the state after consuming its next bits,
the wire format of R45 to R69 read off that number, the invariants. All of it is said of any source (R37): `Source.ahead`
is what the source will deliver. Nothing of Machine/ uses this file. -/

namespace Sys2Proof.Machine

/-- A run has gone wrong exactly when `FAULT ≠ 0` (R137). -/
abbrev Safe (s : State) : Prop := s.fault = 0

/-- The number whose base-256 digits, least significant first, are the bytes (R41, R42). -/
def leNat : List Byte → Nat
  | [] => 0
  | b :: bs => b.toNat + 256 * leNat bs

/-- The bytes a source delivers in its next `k` pulls: fewer than `k` where it stops delivering (R35, R37). -/
def Source.ahead : Nat → Source → List Byte
  | 0, _ => []
  | k + 1, src =>
    match src.pull with
    | some (.byte b, src') => b :: src'.ahead k
    | _ => []

/-- The source after it delivered the bytes of its next `k` pulls (R39). -/
def Source.after : Nat → Source → Source
  | 0, src => src
  | k + 1, src =>
    match src.pull with
    | some (.byte _, src') => src'.after k
    | _ => src

/-- How many pulls bring `NBITS` to at least `n` (R49): none when it is there already. -/
def State.pullsFor (s : State) (n : Nat) : Nat := (n - s.nbits.toNat + 7) / 8

/-- The next `n` stream bits can be had: they are buffered, or in bytes that the source delivers (R73). -/
abbrev State.offers (s : State) (n : Nat) : Prop := (s.src.ahead (s.pullsFor n)).length = s.pullsFor n

/-- The window as a number once `k` more bytes, where the source has them, stand above the valid bits: bit `j` is stream
bit `j` from the current position (R8, R15, R42). -/
def State.window (s : State) (k : Nat) : Nat := s.acc.toNat + leNat (s.src.ahead k) * 2 ^ s.nbits.toNat

/-- The `n` stream bits from position `pos`, as a value: the sum of `bit(pos + i) × 2^i` (R42). -/
def State.bits (s : State) (pos n : Nat) : Nat := s.window (s.pullsFor (pos + n)) / 2 ^ pos % 2 ^ n

/-- The state after the source delivered its next `k` bytes: above the valid bits, in order (R73). -/
def State.delivered (s : State) (k : Nat) : State :=
  { s with
    acc := BitVec.ofNat 64 (s.window k)
    nbits := BitVec.ofNat 7 (s.nbits.toNat + 8 * k)
    src := s.src.after k
    pulled := s.pulled + k }

/-- The state after a successful `peek(n)` (R74): the bytes it needs are delivered, nothing is consumed. -/
def State.lookedAt (s : State) (n : Nat) : State := s.delivered (s.pullsFor n)

/-- The state after the next `n` stream bits are consumed with no byte pulled that they do not need (R49, R76). `n` may
pass 56: it is then consumed by several reads. -/
def State.consumed (s : State) (n : Nat) : State :=
  { s with
    acc := BitVec.ofNat 64 (s.window (s.pullsFor n) / 2 ^ n)
    nbits := BitVec.ofNat 7 (s.nbits.toNat + 8 * s.pullsFor n - n)
    bitsRead := s.bitsRead + BitVec.ofNat 64 n
    src := s.src.after (s.pullsFor n)
    pulled := s.pulled + s.pullsFor n }

/-- The state in which a read of `n` bits that the source does not have makes its failing pull: every byte delivered
before it stands in the window (R73, D12). -/
def State.drained (s : State) (n : Nat) : State := s.delivered (s.src.ahead (s.pullsFor n)).length

/-- `s` with a latched fault and its error response (R124). -/
def State.faultedWith (s : State) (c : BitVec 3) (e : Byte) : State :=
  { s with fault := c, errinfo := e, resp := some (.err c e) }

/-- What a pull of `s` that delivers no byte ends in (R121, R122, R40): `Eos` is END_OF_STREAM, `Err(e)` SOURCE_ERROR
with `e`, no answer is no next state. (A delivered byte ends nothing: then this is `s`.) -/
def State.pullEnds (s : State) : Out :=
  match s.src.pull with
  | some (.eos, src') => .next ({ s with src := src' }.faultedWith 2 0)
  | some (.err e, src') => .next ({ s with src := src' }.faultedWith 3 e)
  | some (.byte _, _) => .next s
  | none => .fault .sourceNeverAnswers

/-- What a read of `n` bits that the source does not have ends in: nothing is consumed (D12). -/
def State.streamEnds (s : State) (n : Nat) : Out := (s.drained n).pullEnds

/-- Two sources give the same answers to every sequence of pulls that ends at the first one without a byte (R37). -/
def Source.answersLike (x y : Source) : Prop :=
  ∀ k, x.ahead k = y.ahead k ∧ (x.after k).pull.map Prod.fst = (y.after k).pull.map Prod.fst

/-- The source was only pulled from (R39, R48): `k` bytes were delivered, and at most one pull more was made, which
delivered none and raised a fault. -/
def SourceMoved (s t : State) : Prop :=
  ∃ k, (s.src.ahead k).length = k ∧ t.pulled = s.pulled + k ∧
    (t.src = s.src.after k ∨
      t.fault ≠ 0 ∧ ((s.src.after k).pull = some (.eos, t.src) ∨ ∃ e, (s.src.after k).pull = some (.err e, t.src)))

/-- The source answers every pull as long as it delivers bytes (R40). -/
def SourceAnswers (s : State) : Prop := ∀ k, (s.src.after k).pull ≠ none

/-- A codec or field descriptor, not a command (R53). -/
def isDescriptor : Instr → Bool
  | .const _ | .fixed _ | .offset _ _ | .psel _ _ _ _ | .field _ _ _ _ => true
  | .peek _ | .read _ | .bitsRead | .release | .rdt _ | .run | .rdHdr => false

/-- The most pulls of a command: R153 for PEEK, READ, RDT and RDHDR; RUN reads at most 68 bits (R107). A descriptor is
bounded by RDT. -/
def pullBound : Instr → Nat
  | .peek _ | .read _ => 7
  | .bitsRead | .release | .const _ => 0
  | .rdt _ | .fixed _ | .offset _ _ | .psel _ _ _ _ | .field _ _ _ _ => 5
  | .run => 9
  | .rdHdr => 11

/-- The window invariants (R16, R18): at most 63 valid bits, the bits of `ACC` above them zero. -/
structure WindowOk (s : State) : Prop where
  bound : s.nbits.toNat ≤ 63
  above : s.acc.toNat < 2 ^ s.nbits.toNat

/-- The invariants of the registers together. -/
structure RegInv (s : State) : Prop where
  /-- R16, R18. -/
  window : WindowOk s
  /-- R19: `8 × PULLED = BITS_READ + NBITS` while `OWN = 1`. -/
  account : s.own = true → 8 * s.pulled = s.bitsRead.toNat + s.nbits.toNat
  /-- R83: after release nothing is buffered. -/
  released : s.own = false → s.acc = 0 ∧ s.nbits = 0
  /-- R21: the values 5 to 7 never occur. -/
  cause : s.fault.toNat ≤ 4
  /-- R22: `ERRINFO` is 0 but for a SOURCE_ERROR. -/
  info : s.fault ≠ 3 → s.errinfo = 0
  /-- R120: BAD_SIGNATURE releases the source before it latches. -/
  signature : s.fault = 1 → s.own = false
  /-- R25: `FIDX` takes the values 0 to `NF`. -/
  index : s.fidx.toNat ≤ tables.nf
  /-- R24, R102: the slots below `FIDX` are bound, the others are not. -/
  slots : ∀ i : BitVec 3, boundBit i s = decide (i.toNat < s.fidx.toNat)
  /-- R26, R25: a valid record is a complete one. -/
  record : hdrValid s = true → s.fidx.toNat = tables.nf

/-- The dimensions of a valid record: positive (R26, R113) and within R112. -/
def DimsOk (s : State) : Prop :=
  ∀ w h : Word32, s.hdr = .valid w h →
    1 ≤ w.toNat ∧ w.toNat ≤ 2 ^ 31 ∧ 1 ≤ h.toNat ∧ h.toNat ≤ 2 ^ 30

/-- The next step does not reset the block. -/
def NoReset (s : State) : Prop :=
  s.fetch = .port → ∀ src rest, s.host ≠ .reset src :: rest

/-- The payload width of a prefix selector value (R45, R69). -/
def armBits (sel : Nat) : Nat :=
  match sel with
  | 0 => 9
  | 1 => 13
  | 2 => 18
  | _ => 30

/-- What the codec `CT[k]` (R108) makes of the stream from position `p`, by the wire formats of R67 to R69: its value
and how many bits it takes. -/
def State.wireCodec (s : State) (p : Nat) (k : Nat) : Nat × Nat :=
  match k with
  | 0 => (s.bits p 1, 1)
  | 1 => (s.bits p 5, 5)
  | 2 => (s.bits p 9 + 1, 9)
  | 3 => (s.bits p 13 + 1, 13)
  | 4 => (s.bits p 18 + 1, 18)
  | 5 => (s.bits p 30 + 1, 30)
  | 6 => (s.bits (p + 2) (armBits (s.bits p 2)) + 1, 2 + armBits (s.bits p 2))
  | 7 => (s.bits p 3, 3)
  | 8 => (s.bits p 16, 16)
  | _ => (0, 0)

/-- What the codec `CT[k]` ends in where the source lacks bits of it: a PSEL that fails in its payload has consumed its
selector (R91). -/
def State.codecEnds (s : State) (k : Nat) : Out :=
  if k = 6 ∧ s.offers 2 then (s.consumed 2).streamEnds (armBits (s.bits 0 2)) else s.streamEnds (s.wireCodec 0 k).2

/-- A dimension header as it lies in the stream (R45): the six fields, with 0 for an absent one (R109), the two
dimensions, and the position after the last field. -/
structure WireHeader where
  small : Nat
  hSmall : Nat
  hLarge : Nat
  ratio : Nat
  wSmall : Nat
  wLarge : Nat
  height : Nat
  width : Nat
  stop : Nat
deriving DecidableEq, Repr

/-- `floor(h × num / den)` with the row of `ratio` in the list of R110. -/
def ratioWidth (ratio h : Nat) : Nat :=
  match ratio with
  | 1 => h * 1 / 1
  | 2 => h * 12 / 10
  | 3 => h * 4 / 3
  | 4 => h * 3 / 2
  | 5 => h * 16 / 9
  | 6 => h * 5 / 4
  | _ => h * 2 / 1

/-- The stream map of R45 with `small` at position `p`: `hp` is the position of `ratio`, `q` the one after it. -/
def State.wireHeader (s : State) (p : Nat) : WireHeader :=
  let small := s.bits p 1
  let hp := if small = 1 then p + 6 else p + 3 + armBits (s.bits (p + 1) 2)
  let hSmall := if small = 1 then s.bits (p + 1) 5 else 0
  let hLarge := if small = 1 then 0 else s.bits (p + 3) (armBits (s.bits (p + 1) 2)) + 1
  let height := if small = 1 then 8 * (hSmall + 1) else hLarge
  let ratio := s.bits hp 3
  let q := hp + 3
  let wSmall := if ratio = 0 ∧ small = 1 then s.bits q 5 else 0
  let wLarge := if ratio = 0 ∧ small ≠ 1 then s.bits (q + 2) (armBits (s.bits q 2)) + 1 else 0
  let width := if ratio ≠ 0 then ratioWidth ratio height else if small = 1 then 8 * (wSmall + 1) else wLarge
  let stop := if ratio ≠ 0 then q else if small = 1 then q + 5 else q + 2 + armBits (s.bits q 2)
  ⟨small, hSmall, hLarge, ratio, wSmall, wLarge, height, width, stop⟩

/-- The slot file after a complete record (R97, R109): six bound fields, slots 6 and 7 unbound. -/
def WireHeader.slotFile (h : WireHeader) : Vector SlotCell 8 :=
  #v[.bound (BitVec.ofNat 32 h.small), .bound (BitVec.ofNat 32 h.hSmall), .bound (BitVec.ofNat 32 h.hLarge),
    .bound (BitVec.ofNat 32 h.ratio), .bound (BitVec.ofNat 32 h.wSmall), .bound (BitVec.ofNat 32 h.wLarge),
    .unbound, .unbound]

/-- Where field `i` of the record at position `p` starts (R45, R98); it ends where field `i + 1` starts, and an absent
field ends where it starts. Field 6 would start after the record. -/
def State.fieldStart (s : State) (p i : Nat) : Nat :=
  let h := s.wireHeader p
  let hp := if h.small = 1 then p + 6 else p + 3 + armBits (s.bits (p + 1) 2)
  match i with
  | 0 => p
  | 1 => p + 1
  | 2 => if h.small = 1 then p + 6 else p + 1
  | 3 => hp
  | 4 => hp + 3
  | 5 => if h.ratio = 0 ∧ h.small = 1 then hp + 8 else hp + 3
  | _ => h.stop

/-- The field of the record at `p` that the stream is too short for: the first one whose last bit it does not have. -/
def State.failingField (s : State) (p : Nat) : Nat :=
  (List.range 6).findIdx fun i => !decide (s.offers (s.fieldStart p (i + 1)))

/-- The stream bits consumed before the record at `p` fails in its field `f` (R91, R102): those of the fields before it,
and the selector where the field is a PSEL that fails in its payload. -/
def State.failingPosition (s : State) (p f : Nat) : Nat :=
  let x := s.fieldStart p f
  if (f = 2 ∨ f = 5) ∧ s.offers (x + 2) then x + 2 else x

/-- The slot file when the fields below `f` are bound and no other (R102). -/
def WireHeader.slotsBelow (h : WireHeader) (f : Nat) : Vector SlotCell 8 :=
  Vector.ofFn fun j => if j.val < f then h.slotFile[j] else .unbound

/-- The state in which the record at `p` begins the read that fails, in its field `f` (R91, R102, R125). -/
def State.recordFails (s : State) (p f : Nat) : State :=
  { s.consumed (s.failingPosition p f) with
    slots := (s.wireHeader p).slotsBelow f
    fidx := BitVec.ofNat 4 f
    hdr := .invalid }

/-- The state after the record `h`, `h.stop` bits long, was decoded and answered (R99, R100). -/
def State.recordDone (s : State) (h : WireHeader) : State :=
  { s.consumed h.stop with
    slots := h.slotFile
    fidx := 6
    hdr := .valid (BitVec.ofNat 32 h.width) (BitVec.ofNat 32 h.height)
    resp := some (.ok (BitVec.ofNat 64 (h.height * 2 ^ 32 + h.width))) }

/-- A condition term's truth on bound slots (R64): disabled, or `(SLOT = K)` differs from `NE`. -/
def termHolds (t : Term) (s : State) : Bool :=
  !t.en || (decide (s.slots[t.slot.toNat] = SlotCell.bound (t.k.setWidth 32)) != t.ne)

/-- The slot an enabled term names is bound (R24, R96 "requires BOUND[s] = 1"). -/
def termBound (t : Term) (s : State) : Bool := !t.en || boundBit t.slot s

end Sys2Proof.Machine
end

