-- ==== Sys2Proof/Certificates/Slice0/Obligations.lean ====
section
/-! DEFINITION. The statements for the provers, from the numbered rules of spec/. -/

open Sys2Proof Sys2Proof.Machine

/-! ## Reset and the invariants -/

/-- R31: the reset values, around any source the environment supplies; the machine's reset state is one of these. -/
def Obligations.ResetPutsEveryRegisterAtItsValue : Prop :=
  (∀ src host, ∀ s, s = State.resetWith src host →
    s.acc = 0 ∧ s.nbits = 0 ∧ s.bitsRead = 0 ∧ s.own = true ∧ s.fault = 0 ∧ s.errinfo = 0 ∧
    (∀ i : BitVec 3, s.slots[i.toNat] = .unbound ∧ boundBit i s = false) ∧ s.fidx = 0 ∧
    s.hdr = .invalid ∧ hdrValid s = false ∧ s.src = src ∧ s.pulled = 0) ∧
  ∃ src host, State.reset = State.resetWith src host

/-- R138: a reset event puts the block into the reset state around the new source, from every state; nothing else
clears `FAULT` (or changes a latched one), sets `OWN`, or lowers `BITS_READ`. -/
def Obligations.OnlyResetStartsASession : Prop :=
  (∀ s src rest, s.fetch = .port → s.host = .reset src :: rest → step s = .next (State.resetWith src rest)) ∧
  ∀ s t, NoReset s → step s = .next t →
    (s.fault ≠ 0 → t.fault = s.fault ∧ t.errinfo = s.errinfo) ∧ (s.own = false → t.own = false) ∧
    s.bitsRead.toNat ≤ t.bitsRead.toNat

/-- The invariants hold after every reset. -/
def Obligations.ResetSatisfiesTheInvariants : Prop :=
  ∀ src host, RegInv (State.resetWith src host) ∧ DimsOk (State.resetWith src host)

/-- R16, R18, R19, R21, R22, R24, R25, R26, R83, R120: every step from a state with the invariants keeps them. -/
def Obligations.EveryStepKeepsTheInvariants : Prop :=
  ∀ s t, RegInv s → step s = .next t → RegInv t

/-- R26, R112, R113: the dimensions of a valid record stay positive and within the bounds of the datapath. -/
def Obligations.EveryStepKeepsTheDimensionsInRange : Prop :=
  ∀ s t, DimsOk s → step s = .next t → DimsOk t

/-! ## Encodings -/

/-- Decoding an encoded instruction gives it back, with every operand at every value of its width. -/
def Obligations.DecodingAnEncodingGivesTheInstruction : Prop :=
  ∀ i, decode (encode i) = .ok i

/-- Encoding what an object decodes to gives the object back: no two objects decode to the same instruction, and no bit
of a descriptor or of a legal word is dropped. -/
def Obligations.EncodingADecodedObjectGivesTheObject : Prop :=
  ∀ o i, decode o = .ok i → encode i = o

/-- R55: the legal words are those of the opcode map, each with its instruction. -/
def Obligations.LegalWordsAreThoseOfTheOpcodeMap : Prop :=
  (∀ w : Word16, legalWord tables w = true ↔
    (0x1001 ≤ w.toNat ∧ w.toNat ≤ 0x1038) ∨ (0x2001 ≤ w.toNat ∧ w.toNat ≤ 0x2038) ∨ w.toNat = 0x3000 ∨
    w.toNat = 0x4000 ∨ (0x5000 ≤ w.toNat ∧ w.toNat ≤ 0x5009) ∨ w.toNat = 0x6000 ∨ w.toNat = 0x7000) ∧
  (∀ n : BitVec 6, 1 ≤ n.toNat → n.toNat ≤ 56 →
    decodeCommand (BitVec.ofNat 16 (0x1000 + n.toNat)) = .ok (.peek n) ∧
    decodeCommand (BitVec.ofNat 16 (0x2000 + n.toNat)) = .ok (.read n)) ∧
  (∀ k : BitVec 6, k.toNat ≤ 9 → decodeCommand (BitVec.ofNat 16 (0x5000 + k.toNat)) = .ok (.rdt k)) ∧
  decodeCommand 0x3000 = .ok .bitsRead ∧ decodeCommand 0x4000 = .ok .release ∧
  decodeCommand 0x6000 = .ok .run ∧ decodeCommand 0x7000 = .ok .rdHdr

/-- R108, R109: the descriptor words of the two tables decode to the entries printed beside them. -/
def Obligations.TableWordsDecodeToTheirEntries : Prop :=
  Config.ct.map decodeCdesc = [.ok (.fixed 1), .ok (.fixed 5), .ok (.offset 9 1), .ok (.offset 13 1),
    .ok (.offset 18 1), .ok (.offset 30 1), .ok (.psel 2 3 4 5), .ok (.fixed 3), .ok (.fixed 16), .ok (.const 0)] ∧
  Config.ft.map decodeFdesc = [
    .field 0 ⟨false, 0, false, 0⟩ ⟨false, 0, false, 0⟩ 0, .field 1 ⟨true, 0, false, 1⟩ ⟨false, 0, false, 0⟩ 0,
    .field 6 ⟨true, 0, false, 0⟩ ⟨false, 0, false, 0⟩ 0, .field 7 ⟨false, 0, false, 0⟩ ⟨false, 0, false, 0⟩ 0,
    .field 1 ⟨true, 3, false, 0⟩ ⟨true, 0, false, 1⟩ 0, .field 6 ⟨true, 3, false, 0⟩ ⟨true, 0, false, 0⟩ 0]

/-! ## The step and the gate -/

/-- A step executes the instruction its object decodes to: a pending command word taken off the command port, or a
latched descriptor (log 4); with nothing pending the block waits (R140, log 1). -/
def Obligations.StepRunsTheDecodedInstruction : Prop :=
  (∀ s w rest i, s.fetch = .port → s.host = .command w :: rest → decode (.command w) = .ok i →
    step s = exec i { s with host := rest }) ∧
  (∀ s d i, s.fetch = .codec d → decode (.codec d) = .ok i → step s = exec i { s with fetch := .port }) ∧
  (∀ s d i, s.fetch = .field d → decode (.field d) = .ok i → step s = exec i { s with fetch := .port }) ∧
  (∀ s, s.fetch = .port → s.host = [] → step s = .next s)

/-- R123: with `FAULT = 0`, a word that is not a legal encoding, or a word other than BITSREAD while `OWN = 0`, raises
ILLEGAL_COMMAND; no register but `FAULT` changes (`ERRINFO` is 0 by R124). -/
def Obligations.IllegalCommandsWriteNothingButFault : Prop :=
  ∀ s w rest, s.fetch = .port → s.host = .command w :: rest → s.fault = 0 →
    (legalWord tables w = false ∨ (s.own = false ∧ w ≠ 0x3000)) →
    step s = .next { s with host := rest, fault := 4, errinfo := 0, resp := some (.err 4 0) }

/-- R126: while `FAULT ≠ 0` every command word but BITSREAD is answered with the latched fault and has no effect: no pull,
no consume, no register write; and no word, BITSREAD included, changes the latched fault. -/
def Obligations.ALatchedFaultAnswersEveryCommand : Prop :=
  ∀ s w rest, s.fetch = .port → s.host = .command w :: rest → s.fault ≠ 0 →
    (w ≠ 0x3000 → step s = .next { s with host := rest, resp := some (.err s.fault s.errinfo) }) ∧
    ∃ t, step s = .next t ∧ t.fault = s.fault ∧ t.errinfo = s.errinfo ∧ t.src = s.src ∧ t.pulled = s.pulled

/-- The gate seen by each instruction (R77): re-report a latched fault, else ILLEGAL_COMMAND for an operand out of range
or a source not owned. That a descriptor stepped on its own passes the same gate is the model's choice (log 5). -/
def Obligations.EveryInstructionButBitsReadPassesTheGate : Prop :=
  ∀ i s, i ≠ .bitsRead →
    (s.fault ≠ 0 → exec i s = .next { s with resp := some (.err s.fault s.errinfo) }) ∧
    (s.fault = 0 → s.own = false → exec i s = .next (s.faultedWith 4 0)) ∧
    (s.fault = 0 → isDescriptor i = false → i.wf tables 0 = false → exec i s = .next (s.faultedWith 4 0))

/-- R57, R58: every command answers exactly once in its step: the response has the status of `FAULT` after it, and an
error response carries `ERRINFO`. -/
def Obligations.EveryCommandAnswersWithTheFaultStatus : Prop :=
  ∀ i s t, isDescriptor i = false → exec i s = .next t →
    ∃ r, t.resp = some r ∧ r.status = t.fault ∧ (∀ c e, r = .err c e → c ≠ 0 ∧ e = t.errinfo) ∧
      (i = .bitsRead ↔ ∃ f b, r = .count f b)

/-! ## The reader -/

/-- R80: BITSREAD answers `Count(FAULT, BITS_READ)` in every phase and writes no register. -/
def Obligations.BitsReadAnswersInEveryPhase : Prop :=
  ∀ s, exec .bitsRead s = .next { s with resp := some (.count s.fault s.bitsRead) }

/-- R73, R74, R78: PEEK n answers the next `n` stream bits and pulls only the bytes it needs; where the source has fewer
it raises what the source answers, keeping every byte delivered. -/
def Obligations.PeekAnswersTheNextBits : Prop :=
  ∀ (n : BitVec 6) s, isActive s → WindowOk s → 1 ≤ n.toNat → n.toNat ≤ 56 →
    (s.offers n.toNat →
      exec (.peek n) s = .next { s.lookedAt n.toNat with resp := some (.ok (BitVec.ofNat 64 (s.bits 0 n.toNat))) }) ∧
    (¬ s.offers n.toNat → exec (.peek n) s = s.streamEnds n.toNat)

/-- R75, R76, R79: READ n answers the same bits, consumes them and counts them; a failing one consumes nothing; a count
that would reach 2^64 is refused (R17). -/
def Obligations.ReadAnswersAndConsumesTheNextBits : Prop :=
  ∀ (n : BitVec 6) s, isActive s → WindowOk s → 1 ≤ n.toNat → n.toNat ≤ 56 →
    (s.offers n.toNat → s.bitsRead.toNat + n.toNat < 2 ^ 64 →
      exec (.read n) s = .next { s.consumed n.toNat with resp := some (.ok (BitVec.ofNat 64 (s.bits 0 n.toNat))) }) ∧
    (s.offers n.toNat → 2 ^ 64 ≤ s.bitsRead.toNat + n.toNat → exec (.read n) s = .refused .bitsReadOverflow) ∧
    (¬ s.offers n.toNat → exec (.read n) s = s.streamEnds n.toNat)

/-- R81, R83: RELEASE discards the window, gives the source up and touches nothing else. -/
def Obligations.ReleaseDiscardsTheWindow : Prop :=
  ∀ s, isActive s →
    exec .release s = .next { s with acc := 0, nbits := 0, own := false, resp := some (.ok 0) }

/-- R83, R145: after RELEASE the source stands at byte `PULLED`, and the bits lost are the `NBITS` buffered ones:
`8 × PULLED − BITS_READ`. -/
def Obligations.ReleaseLosesTheBufferedBits : Prop :=
  ∀ s, RegInv s → isActive s →
    ∃ t, exec .release s = .next t ∧ t.src = s.src ∧ t.pulled = s.pulled ∧
      8 * t.pulled - t.bitsRead.toNat = s.nbits.toNat

/-- R84 law 2: a READ after a successful PEEK of the same width answers the same value, pulls nothing, and counts `n`. -/
def Obligations.PeekThenReadAgree : Prop :=
  ∀ (n : BitVec 6) s t v, WindowOk s → isActive s → exec (.peek n) s = .next t → t.resp = some (.ok v) →
    s.bitsRead.toNat + n.toNat < 2 ^ 64 →
    ∃ u, exec (.read n) t = .next u ∧ u.resp = some (.ok v) ∧ u.src = t.src ∧ u.pulled = t.pulled ∧
      u.bitsRead.toNat = s.bitsRead.toNat + n.toNat

/-- R78: a narrower PEEK after a successful PEEK pulls nothing and answers the low bits of the first value. -/
def Obligations.NarrowerPeekPullsNothing : Prop :=
  ∀ (n m : BitVec 6) s t v, WindowOk s → isActive s → exec (.peek n) s = .next t → t.resp = some (.ok v) →
    1 ≤ m.toNat → m.toNat ≤ n.toNat →
    exec (.peek m) t = .next { t with resp := some (.ok (BitVec.ofNat 64 (v.toNat % 2 ^ m.toNat))) }

/-- R84 law 3: for `a + b ≤ 56`, READ a and READ b leave the state of READ (a + b) and answer its value in two parts. -/
def Obligations.AReadSplitsInTwo : Prop :=
  ∀ (a b c : BitVec 6) s u z, WindowOk s → isActive s → 1 ≤ a.toNat → 1 ≤ b.toNat → c.toNat = a.toNat + b.toNat →
    exec (.read c) s = .next u → u.resp = some (.ok z) →
    ∃ t v x y, exec (.read a) s = .next t ∧ t.resp = some (.ok x) ∧ exec (.read b) t = .next v ∧
      v.resp = some (.ok y) ∧ z.toNat = x.toNat + y.toNat * 2 ^ a.toNat ∧ { v with resp := u.resp } = u

/-- R82: two READs of up to 56 bits each, the first in the lower bits, join to the next `a + b` stream bits, also where
these pass 56. -/
def Obligations.TwoReadsJoinToAWiderValue : Prop :=
  ∀ (a b : BitVec 6) s, WindowOk s → isActive s → 1 ≤ a.toNat → a.toNat ≤ 56 → 1 ≤ b.toNat → b.toNat ≤ 56 →
    s.offers (a.toNat + b.toNat) → s.bitsRead.toNat + (a.toNat + b.toNat) < 2 ^ 64 →
    ∃ t u x y, exec (.read a) s = .next t ∧ t.resp = some (.ok x) ∧ exec (.read b) t = .next u ∧
      u.resp = some (.ok y) ∧ x.toNat + y.toNat * 2 ^ a.toNat = s.bits 0 (a.toNat + b.toNat)

/-- R8, R41, R42: with nothing buffered, bit `i` of what READ n answers is bit `i mod 8` of the `i div 8`-th byte that the
source delivers. -/
def Obligations.ReadBitsAreTheSourceBits : Prop :=
  ∀ (n : BitVec 6) s, isActive s → s.acc = 0 → s.nbits = 0 → 1 ≤ n.toNat → n.toNat ≤ 56 →
    s.offers n.toNat → s.bitsRead.toNat + n.toNat < 2 ^ 64 →
    ∃ t v, exec (.read n) s = .next t ∧ t.resp = some (.ok v) ∧
      ∀ i, v.getLsbD i = (decide (i < n.toNat) && ((s.src.ahead 7).getD (i / 8) 0).getLsbD (i % 8))

/-- R49: a successful PEEK or READ pulls no byte it does not need: `PULLED` becomes `ceil((BITS_READ + n) / 8)`, or
stays where it was already more. -/
def Obligations.PullsAreLazy : Prop :=
  ∀ (n : BitVec 6) s t v, RegInv s → isActive s → (exec (.peek n) s = .next t ∨ exec (.read n) s = .next t) →
    t.resp = some (.ok v) → t.pulled = max s.pulled ((s.bitsRead.toNat + n.toNat + 7) / 8)

/-- R84 laws 5 and 6: the window never passes 63 bits; after a successful PEEK n that pulled a byte it holds `n` to
`n + 7` bits, and what was pulled is what was consumed and what is buffered. -/
def Obligations.TheWindowIsTightAfterAPull : Prop :=
  ∀ (n : BitVec 6) s t v, RegInv s → isActive s → exec (.peek n) s = .next t → t.resp = some (.ok v) →
    t.nbits.toNat ≤ 63 ∧ 8 * t.pulled = t.bitsRead.toNat + t.nbits.toNat ∧
    (t.pulled ≠ s.pulled → n.toNat ≤ t.nbits.toNat ∧ t.nbits.toNat ≤ n.toNat + 7)

/-! ## The codecs -/

/-- R86: CONST takes no bit, never faults, and returns its constant, whatever the source. -/
def Obligations.ConstTakesNoBits : Prop :=
  ∀ c s, isActive s → exec (.const c) s = .next { s with value := some c }

/-- R87: FIXED W returns the next `W` bits. -/
def Obligations.FixedReturnsTheNextBits : Prop :=
  ∀ (w : BitVec 6) s, isActive s → WindowOk s → 1 ≤ w.toNat → w.toNat ≤ 32 →
    (s.offers w.toNat → s.bitsRead.toNat + w.toNat < 2 ^ 64 →
      exec (.fixed w) s = .next { s.consumed w.toNat with value := some (BitVec.ofNat 32 (s.bits 0 w.toNat)) }) ∧
    (¬ s.offers w.toNat → exec (.fixed w) s = ({ s with value := none } : State).streamEnds w.toNat)

/-- R88, R92: OFFSET W, O returns the next `W` bits plus the bias, which never carries out of 32 bits. -/
def Obligations.OffsetAddsItsBias : Prop :=
  ∀ (w : BitVec 6) (o : Word32) s, isActive s → WindowOk s → 1 ≤ w.toNat → w.toNat ≤ 32 →
    o.toNat + 2 ^ w.toNat - 1 < 2 ^ 32 →
    (s.offers w.toNat → s.bitsRead.toNat + w.toNat < 2 ^ 64 →
      ∃ v : Word32, v.toNat = s.bits 0 w.toNat + o.toNat ∧
        exec (.offset w o) s = .next { s.consumed w.toNat with value := some v }) ∧
    (¬ s.offers w.toNat → exec (.offset w o) s = ({ s with value := none } : State).streamEnds w.toNat)

/-- R89, R91: PSEL reads a 2-bit selector, then exactly the arm of that number and no other; a failing payload leaves
the selector consumed. -/
def Obligations.PselReadsTheSelectorThenOneArm : Prop :=
  ∀ (a0 a1 a2 a3 a : BitVec 6) s c, isActive s → WindowOk s → (Instr.psel a0 a1 a2 a3).wf tables 0 = true →
    a = [a0, a1, a2, a3].getD (s.bits 0 2) a3 → c = s.wireCodec 2 a.toNat → s.bitsRead.toNat + (2 + c.2) < 2 ^ 64 →
    (s.offers (2 + c.2) →
      exec (.psel a0 a1 a2 a3) s = .next { s.consumed (2 + c.2) with value := some (BitVec.ofNat 32 c.1) }) ∧
    (s.offers 2 → ¬ s.offers (2 + c.2) →
      exec (.psel a0 a1 a2 a3) s = ({ s.consumed 2 with value := none } : State).streamEnds c.2) ∧
    (¬ s.offers 2 → exec (.psel a0 a1 a2 a3) s = ({ s with value := none } : State).streamEnds 2)

/-- R93, R69, R70: whatever arm carries it, `x` in the arm's range decodes to `x`: the stream of the arm's selector and of
`x - 1` in the arm's width gives `x` and takes exactly those bits. -/
def Obligations.EveryArmDecodesItsRange : Prop :=
  ∀ s sel x, isActive s → WindowOk s → sel < 4 → 1 ≤ x → x ≤ 2 ^ armBits sel →
    s.bits 0 (2 + armBits sel) = sel + 4 * (x - 1) → s.offers (2 + armBits sel) →
    s.bitsRead.toNat + (2 + armBits sel) < 2 ^ 64 →
    ∃ t, exec (.rdt 6) s = .next t ∧ t.resp = some (.ok (BitVec.ofNat 64 x)) ∧
      t.bitsRead.toNat = s.bitsRead.toNat + (2 + armBits sel)

/-- R90, R108, R67 to R69: RDT k answers the value that the wire format of `CT[k]` gives the stream, and consumes its
bits. -/
def Obligations.RdtAnswersTheCodecValue : Prop :=
  ∀ (k : BitVec 6) s c, isActive s → WindowOk s → k.toNat < 10 → c = s.wireCodec 0 k.toNat →
    s.bitsRead.toNat + c.2 < 2 ^ 64 →
    (s.offers c.2 →
      exec (.rdt k) s = .next { s.consumed c.2 with resp := some (.ok (BitVec.ofNat 64 c.1)) }) ∧
    (¬ s.offers c.2 → exec (.rdt k) s = s.codecEnds k.toNat)

/-- R65, R66, R97, U5: a codec descriptor word with a nonzero unused field is refused (R65's first form), and so are an
ill-formed codec descriptor, a field descriptor ill-formed for its place, and a field descriptor when `FIDX` selects no
field. That the model answers these with refusals is logs 9 and 17; that a descriptor is stepped on its own is log 4. -/
def Obligations.IllFormedDescriptorsAreRefused : Prop :=
  (∀ s d e, s.fetch = .codec d → decodeCdesc d = .error e → step s = .refused .illFormedDescriptor) ∧
  ∀ i s, isActive s → isDescriptor i = true →
    (((∀ codec t0 t1 dflt, i = .field codec t0 t1 dflt → s.fidx.toNat < 6) ∧ i.wf tables s.fidx.toNat = false) →
      exec i s = .refused .illFormedDescriptor) ∧
    ((∃ codec t0 t1 dflt, i = .field codec t0 t1 dflt) → 6 ≤ s.fidx.toNat → exec i s = .refused .noFieldSelected)

/-! ## The record -/

/-- R97, R98: a field whose condition is false binds its default and leaves the reader alone; a present one binds its
codec's value, starting where the previous field ended; a failing one binds nothing. -/
def Obligations.FieldStepBindsOneSlot : Prop :=
  ∀ (codec : BitVec 6) t0 t1 dflt s c, isActive s → WindowOk s → s.fidx.toNat < 6 →
    (Instr.field codec t0 t1 dflt).wf tables s.fidx.toNat = true → termBound t0 s = true → termBound t1 s = true →
    c = s.wireCodec 0 codec.toNat → s.bitsRead.toNat + c.2 < 2 ^ 64 →
    ((termHolds t0 s && termHolds t1 s) = false → exec (.field codec t0 t1 dflt) s =
      .next { s with slots := s.slots.setIfInBounds s.fidx.toNat (.bound dflt), fidx := s.fidx + 1 }) ∧
    ((termHolds t0 s && termHolds t1 s) = true → s.offers c.2 → exec (.field codec t0 t1 dflt) s =
      .next { s.consumed c.2 with
        slots := s.slots.setIfInBounds s.fidx.toNat (.bound (BitVec.ofNat 32 c.1)), fidx := s.fidx + 1 }) ∧
    ((termHolds t0 s && termHolds t1 s) = true → ¬ s.offers c.2 →
      exec (.field codec t0 t1 dflt) s = s.codecEnds codec.toNat)

/-- R24, R96: a well-formed field descriptor stepped on its own (log 4) whose condition reads an unbound slot is a fault of
the model, not a value (log 15). Only states outside `RegInv` meet the hypotheses: a slot that a well-formed term names
lies below `FIDX`, and `RegInv.slots` binds it. -/
def Obligations.AConditionOnAnUnboundSlotStopsTheModel : Prop :=
  ∀ (codec : BitVec 6) t0 t1 dflt s, isActive s → s.fidx.toNat < 6 →
    (Instr.field codec t0 t1 dflt).wf tables s.fidx.toNat = true → (termBound t0 s && termBound t1 s) = false →
    exec (.field codec t0 t1 dflt) s = .fault .unboundSlotRead

/-- R45, R99, R100, R106 to R111: RUN decodes the record that the stream map finds at the current position, binds its
six fields, assembles the two dimensions, and answers them. -/
def Obligations.RunDecodesTheRecordOfTheStreamMap : Prop :=
  ∀ s h, isActive s → WindowOk s → h = s.wireHeader 0 → s.offers h.stop → s.bitsRead.toNat + h.stop < 2 ^ 64 →
    exec .run s = .next (s.recordDone h)

/-- R115, R45: RDHDR on a stream that starts with the signature decodes the record after it, releases the source, and
answers the two dimensions. -/
def Obligations.RdHdrDecodesTheHeaderOfTheStreamMap : Prop :=
  ∀ s h, isActive s → WindowOk s → s.offers 16 → s.bits 0 16 = 0x0AFF → h = s.wireHeader 16 → s.offers h.stop →
    s.bitsRead.toNat + h.stop < 2 ^ 64 →
    exec .rdHdr s = .next { s.recordDone h with acc := 0, nbits := 0, own := false }

/-- R114, R120: any other 16 bits are a BAD_SIGNATURE: they are consumed, nothing beyond them, the source is released
before the fault latches, and no slot, `FIDX` or header register is touched. A shorter stream is no BAD_SIGNATURE. -/
def Obligations.RdHdrRejectsAnyOtherSignature : Prop :=
  ∀ s, isActive s → WindowOk s → s.bitsRead.toNat + 16 < 2 ^ 64 →
    (s.offers 16 → s.bits 0 16 ≠ 0x0AFF →
      exec .rdHdr s = .next
        { s.consumed 16 with
          acc := 0, nbits := 0, own := false, fault := 1, errinfo := 0, resp := some (.err 1 0) }) ∧
    (¬ s.offers 16 → exec .rdHdr s = s.streamEnds 16)

/-- R91, R102, R125: a record that the stream is too short for stops at the first field whose last bit the stream does not
have. `FIDX` names that field; the slots below it hold the values that the stream map gives their fields, the others are
unbound; `BITS_READ` counts exactly the fields before it, and the selector of a PSEL that fails in its payload; every byte
the source delivered stands in the window; the header is invalid, the source is not given up; and the fault is what the
source answers the failing pull, or there is no next state where it answers nothing. -/
def Obligations.AShortRecordLeavesNoHeader : Prop :=
  ∀ s i p f, isActive s → WindowOk s → s.bitsRead.toNat + (s.wireHeader p).stop < 2 ^ 64 →
    ¬ s.offers (s.wireHeader p).stop → f = s.failingField p →
    ((i = .run ∧ p = 0) ∨ (i = .rdHdr ∧ p = 16 ∧ s.offers 16 ∧ s.bits 0 16 = 0x0AFF)) →
    f < 6 ∧ exec i s = (s.recordFails p f).streamEnds (s.fieldStart p (f + 1) - s.failingPosition p f)

/-- R111, R112: what a completed RUN holds as its record is assembled from the slots it bound: the height from the
regime's field, the width by floor division with the ratio's row (then at least the height) or from its own field. -/
def Obligations.TheRecordIsAssembledFromTheSlots : Prop :=
  ∀ s t, isActive s → exec .run s = .next t → t.fault = 0 →
    ∃ small hSmall hLarge ratio wSmall wLarge w h : Word32,
      t.slots = #v[.bound small, .bound hSmall, .bound hLarge, .bound ratio, .bound wSmall, .bound wLarge,
        .unbound, .unbound] ∧
      t.hdr = .valid w h ∧ t.resp = some (.ok (BitVec.ofNat 64 (h.toNat * 2 ^ 32 + w.toNat))) ∧
      (small = 1 → h.toNat = 8 * (hSmall.toNat + 1)) ∧ (small ≠ 1 → h = hLarge) ∧
      (ratio ≠ 0 → w.toNat = ratioWidth ratio.toNat h.toNat ∧ h.toNat ≤ w.toNat) ∧
      (ratio = 0 → small = 1 → w.toNat = 8 * (wSmall.toNat + 1)) ∧ (ratio = 0 → small ≠ 1 → w = wLarge)

/-- R107: the bits a completed RUN takes, by regime and ratio; RDHDR takes 25 to 84 and, with nothing buffered, pulls 4
to 11 bytes. -/
def Obligations.ARecordTakesTheBitsOfItsCase : Prop :=
  (∀ s t d, isActive s → WindowOk s → exec .run s = .next t → t.fault = 0 →
    d = t.bitsRead.toNat - s.bitsRead.toNat →
    (t.slots[0] = .bound 1 → t.slots[3] ≠ .bound 0 → d = 9) ∧
    (t.slots[0] = .bound 1 → t.slots[3] = .bound 0 → d = 14) ∧
    (t.slots[0] = .bound 0 → t.slots[3] ≠ .bound 0 → d ∈ [15, 19, 24, 36]) ∧
    (t.slots[0] = .bound 0 → t.slots[3] = .bound 0 → ∃ x ∈ [15, 19, 24, 36], ∃ y ∈ [11, 15, 20, 32], d = x + y)) ∧
  (∀ s t, isActive s → WindowOk s → exec .rdHdr s = .next t → t.fault = 0 →
    s.bitsRead.toNat + 25 ≤ t.bitsRead.toNat ∧ t.bitsRead.toNat ≤ s.bitsRead.toNat + 84 ∧
    (s.nbits = 0 → s.pulled + 4 ≤ t.pulled ∧ t.pulled ≤ s.pulled + 11))

/-- R118: where the signature matches and nothing faults, RDHDR has the state and the answer of READ 16, RUN, RELEASE;
where the signature does not match, READ 16 leaves the block ACTIVE and RDHDR does not. -/
def Obligations.RdHdrIsReadRunRelease : Prop :=
  (∀ s t, isActive s → exec .rdHdr s = .next t → t.fault = 0 →
    ∃ a b c, exec (.read 16) s = .next a ∧ a.resp = some (.ok 0x0AFF) ∧ exec .run a = .next b ∧ b.resp = t.resp ∧
      exec .release b = .next c ∧ t = { c with resp := t.resp }) ∧
  (∀ s a b c, isActive s → exec (.read 16) s = .next a → a.resp = some (.ok 0x0AFF) → exec .run a = .next b →
    exec .release b = .next c → b.fault = 0 → exec .rdHdr s = .next { c with resp := b.resp }) ∧
  ∀ s a v, isActive s → exec (.read 16) s = .next a → a.resp = some (.ok v) → v ≠ 0x0AFF →
    isActive a ∧ ∃ t, exec .rdHdr s = .next t ∧ t.fault = 1 ∧ t.own = false

/-- R117: a RDHDR that succeeds with at most a part of a byte buffered leaves the source at the next byte boundary after
the header, the last bit consumed lying in the last byte pulled. -/
def Obligations.RdHdrLeavesTheSourceAtTheNextByte : Prop :=
  ∀ s t, RegInv s → isActive s → s.nbits.toNat ≤ 7 → exec .rdHdr s = .next t → t.fault = 0 →
    t.pulled = (t.bitsRead.toNat + 7) / 8 ∧ 8 * t.pulled - t.bitsRead.toNat ≤ 7 ∧
    t.src = s.src.after (t.pulled - s.pulled) ∧ t.own = false

/-- R116: after RDHDR, whatever its outcome, `OWN = 0` (on success and on BAD_SIGNATURE) or `FAULT ≠ 0` (on the other
faults); every step but a reset keeps that; and as long as it holds, every command but BITSREAD is answered with an error
and changes only `FAULT` and the response. So the block accepts only BITSREAD until reset (a reset is an event between
steps by log 2, and a descriptor that a step runs on its own is log 4). -/
def Obligations.RdHdrIsOneShot : Prop :=
  (∀ s t, exec .rdHdr s = .next t →
    (t.own = false ∨ t.fault ≠ 0) ∧ (s.fault = 0 → t.fault = 0 ∨ t.fault = 1 → t.own = false)) ∧
  (∀ s t, NoReset s → (s.own = false ∨ s.fault ≠ 0) → step s = .next t → t.own = false ∨ t.fault ≠ 0) ∧
  ∀ s i, (s.own = false ∨ s.fault ≠ 0) → isDescriptor i = false → i ≠ .bitsRead →
    exec i s = .next (if s.fault = 0 then s.faultedWith 4 0 else { s with resp := some (.err s.fault s.errinfo) })

/-- R24, R103: under well-formed tables, whatever they are, `run_schema()` reads no unbound slot and meets no ill-formed
descriptor. -/
def Obligations.WellFormedTablesReadNoUnboundSlot : Prop :=
  ∀ T s, tablesOk T = true →
    runSchema T s ≠ .stuck .unboundSlotRead ∧ runSchema T s ≠ .refused .illFormedDescriptor ∧
    runSchema T s ≠ .refused .noFieldSelected

/-! ## Frames -/

/-- PEEK, READ and RDT change only the window, the count, the source position, the fault registers and the response;
PEEK does not change the count. -/
def Obligations.ReaderCommandsFrame : Prop :=
  ∀ i s t, ((∃ n, i = .peek n) ∨ (∃ n, i = .read n) ∨ ∃ k, i = .rdt k) → exec i s = .next t →
    t.own = s.own ∧ t.slots = s.slots ∧ t.fidx = s.fidx ∧ t.hdr = s.hdr ∧ t.host = s.host ∧ t.fetch = s.fetch ∧
    t.value = s.value ∧ SourceMoved s t ∧ ((∃ n, i = .peek n) → t.bitsRead = s.bitsRead) ∧
    ((t.fault = s.fault ∧ t.errinfo = s.errinfo) ∨ (s.fault = 0 ∧ t.fault ≠ 0))

/-- BITSREAD and RELEASE pull nothing and change no slot, no header register and no count; BITSREAD changes no register
at all, RELEASE none but the window, `OWN` and the fault registers. -/
def Obligations.BitsReadAndReleaseFrame : Prop :=
  ∀ i s t, (i = .bitsRead ∨ i = .release) → exec i s = .next t →
    t.bitsRead = s.bitsRead ∧ t.slots = s.slots ∧ t.fidx = s.fidx ∧ t.hdr = s.hdr ∧ t.src = s.src ∧
    t.pulled = s.pulled ∧ t.host = s.host ∧ t.fetch = s.fetch ∧ t.value = s.value ∧
    (i = .bitsRead → t.acc = s.acc ∧ t.nbits = s.nbits ∧ t.own = s.own ∧ t.fault = s.fault ∧ t.errinfo = s.errinfo) ∧
    ((t.fault = s.fault ∧ t.errinfo = s.errinfo) ∨ (s.fault = 0 ∧ t.fault = 4))

/-- A codec descriptor stepped on its own (log 4) changes only the window, the count, the source position, its returned
value and, when it faults or the gate stops it (that it passes the gate in the RELEASED and FAULTED phases is log 5), the
fault registers and the response. -/
def Obligations.CodecDescriptorsFrame : Prop :=
  ∀ i s t, ((∃ c, i = .const c) ∨ (∃ w, i = .fixed w) ∨ (∃ w o, i = .offset w o) ∨
      ∃ a0 a1 a2 a3, i = .psel a0 a1 a2 a3) → exec i s = .next t →
    t.own = s.own ∧ t.slots = s.slots ∧ t.fidx = s.fidx ∧ t.hdr = s.hdr ∧ t.host = s.host ∧ t.fetch = s.fetch ∧
    SourceMoved s t ∧ ((∃ c, i = .const c) → t.bitsRead = s.bitsRead ∧ t.src = s.src) ∧
    ((t.fault = 0 ∧ s.fault = 0 ∧ t.resp = s.resp ∧ t.errinfo = s.errinfo) ∨
      (t.fault ≠ 0 ∧ t.resp = some (.err t.fault t.errinfo) ∧ (s.fault ≠ 0 → t.fault = s.fault)))

/-- A field descriptor stepped on its own (log 4) changes, beside what its codec changes, only the slot `FIDX` and `FIDX`,
and those together; when it faults or the gate stops it (log 5), neither. -/
def Obligations.FieldDescriptorFrame : Prop :=
  ∀ codec t0 t1 dflt s t, exec (.field codec t0 t1 dflt) s = .next t →
    t.own = s.own ∧ t.hdr = s.hdr ∧ t.host = s.host ∧ t.fetch = s.fetch ∧ t.value = s.value ∧ SourceMoved s t ∧
    (∀ j : BitVec 3, j.toNat ≠ s.fidx.toNat → t.slots[j.toNat] = s.slots[j.toNat]) ∧
    ((t.fidx = s.fidx ∧ t.slots = s.slots ∧ t.fault ≠ 0) ∨
      (t.fidx = s.fidx + 1 ∧ t.fault = s.fault ∧ t.errinfo = s.errinfo ∧ t.resp = s.resp))

/-- RUN leaves `OWN`; RUN and RDHDR leave the ports and the stepped value; in the ACTIVE phase slots 6 and 7 end
unbound or, where RDHDR faults before the record, as they were. -/
def Obligations.RecordCommandsFrame : Prop :=
  ∀ i s t, (i = .run ∨ i = .rdHdr) → exec i s = .next t →
    t.host = s.host ∧ t.fetch = s.fetch ∧ t.value = s.value ∧ SourceMoved s t ∧ (i = .run → t.own = s.own) ∧
    ((t.slots = s.slots ∧ t.fidx = s.fidx ∧ t.hdr = s.hdr ∧ t.fault ≠ 0) ∨
      (isActive s ∧ t.slots[6] = .unbound ∧ t.slots[7] = .unbound)) ∧
    ((t.fault = s.fault ∧ t.errinfo = s.errinfo) ∨ (s.fault = 0 ∧ t.fault ≠ 0))

/-! ## Whole-machine rules -/

/-- R39, R46, R48, R52, R126: no step but a reset does anything to the source but pull from it, a pull that delivers no
byte is its last and latches a fault, and none pulls while the source is not owned or a fault is latched. -/
def Obligations.TheSourceOnlyMovesForward : Prop :=
  ∀ s t, NoReset s → step s = .next t → SourceMoved s t ∧
    ((s.own = false ∨ s.fault ≠ 0) →
      t.src = s.src ∧ t.pulled = s.pulled ∧ t.acc = s.acc ∧ t.nbits = s.nbits ∧ t.bitsRead = s.bitsRead)

/-- R84 law 4, R121: no instruction consumes a bit that is neither buffered nor delivered by the source. -/
def Obligations.NoBitIsInvented : Prop :=
  ∀ i s t, WindowOk s → exec i s = .next t → ∃ n, t.bitsRead.toNat = s.bitsRead.toNat + n ∧ s.offers n

/-- R153: the pulls of one instruction are bounded. -/
def Obligations.PullsOfAnInstructionAreBounded : Prop :=
  ∀ i s t, WindowOk s → exec i s = .next t → t.pulled ≤ s.pulled + pullBound i

/-- R153: every command ends, with a response, when the source answers each pull and the count is not at its end; the
pulls are at most 7 for PEEK and READ, 5 for RDT, 11 for RDHDR. -/
def Obligations.EveryCommandEndsWhenTheSourceAnswers : Prop :=
  ∀ i s, isDescriptor i = false → WindowOk s → SourceAnswers s → s.bitsRead.toNat + 84 < 2 ^ 64 →
    ∃ t r, exec i s = .next t ∧ t.resp = some r ∧
      ((∃ n, i = .peek n ∨ i = .read n) → t.pulled ≤ s.pulled + 7) ∧
      ((∃ k, i = .rdt k) → t.pulled ≤ s.pulled + 5) ∧ (i = .rdHdr → t.pulled ≤ s.pulled + 11)

/-- R20, R52: only RELEASE and RDHDR give the source up, and then nothing stays buffered. -/
def Obligations.OnlyReleaseAndRdHdrGiveTheSourceUp : Prop :=
  ∀ i s t, exec i s = .next t → s.own = true → t.own = false →
    (i = .release ∨ i = .rdHdr) ∧ t.acc = 0 ∧ t.nbits = 0

/-- R119: which instruction can raise which cause, and on which answer of the source. That a descriptor stepped on its own
while `OWN = 0` raises ILLEGAL_COMMAND (in the last clause) is the model's choice (log 5). -/
def Obligations.EachCauseComesFromItsInstructions : Prop :=
  ∀ i s t, s.fault = 0 → exec i s = .next t →
    t.fault.toNat ≤ 4 ∧ (t.fault = 1 → i = .rdHdr) ∧
    (t.fault = 2 → (∃ k, (s.src.after k).pull = some (.eos, t.src)) ∧ t.errinfo = 0 ∧
      i ≠ .bitsRead ∧ i ≠ .release ∧ ∀ c, i ≠ .const c) ∧
    (t.fault = 3 → (∃ k, (s.src.after k).pull = some (.err t.errinfo, t.src)) ∧
      i ≠ .bitsRead ∧ i ≠ .release ∧ ∀ c, i ≠ .const c) ∧
    (t.fault = 4 ↔ i ≠ .bitsRead ∧ (s.own = false ∨ (isDescriptor i = false ∧ i.wf tables 0 = false)))

/-- R37, R6: the block assumes nothing of its source but the answers: two sources that answer alike, whatever their states,
give the same outcome but for the source, and as long as no fault was raised they still answer alike. -/
def Obligations.OnlyTheAnswersOfTheSourceMatter : Prop :=
  ∀ i s y, s.src.answersLike y →
    (∀ t, exec i s = .next t → ∃ z, exec i { s with src := y } = .next { t with src := z } ∧
      (t.fault = 0 → t.src.answersLike z)) ∧
    (∀ f, exec i s = .fault f → exec i { s with src := y } = .fault f) ∧
    ∀ r, exec i s = .refused r → exec i { s with src := y } = .refused r
end

