-- ==== Sys2Proof/Laws/Source.lean ====
section
/-! SUPPORT. What a source delivers, for any source: `ahead` and `after` against one pull, and how they compose (R37). -/

namespace Sys2Proof.Machine

theorem ahead_byte {src x : Source} {b : Byte} (h : src.pull = some (.byte b, x)) (k : Nat) :
    src.ahead (k + 1) = b :: x.ahead k := by rw [Source.ahead, h]

theorem after_byte {src x : Source} {b : Byte} (h : src.pull = some (.byte b, x)) (k : Nat) :
    src.after (k + 1) = x.after k := by rw [Source.after, h]

/-- A source whose next pull delivers no byte delivers none later. -/
theorem ahead_stop {src : Source} (h : ∀ b x, src.pull ≠ some (.byte b, x)) (k : Nat) : src.ahead k = [] := by
  cases k with
  | zero => rfl
  | succ k => rw [Source.ahead]; split; · exact absurd ‹_› (h _ _)
              · rfl

theorem after_stop {src : Source} (h : ∀ b x, src.pull ≠ some (.byte b, x)) (k : Nat) : src.after k = src := by
  cases k with
  | zero => rfl
  | succ k => rw [Source.after]; split; · exact absurd ‹_› (h _ _)
              · rfl

/-- A pull delivers a byte or it does not. -/
theorem pull_cases (src : Source) :
    (∃ b x, src.pull = some (.byte b, x)) ∨ ∀ b x, src.pull ≠ some (.byte b, x) := by
  by_cases h : ∃ b x, src.pull = some (.byte b, x)
  · exact .inl h
  · exact .inr fun b x e => h ⟨b, x, e⟩

theorem ahead_length_le (k : Nat) (src : Source) : (src.ahead k).length ≤ k := by
  induction k generalizing src with
  | zero => exact le_refl _
  | succ k ih =>
    rcases pull_cases src with ⟨b, x, h⟩ | h
    · rw [ahead_byte h, List.length_cons]; exact Nat.succ_le_succ (ih x)
    · rw [ahead_stop h]; exact Nat.zero_le _

/-- What is delivered in `a + b` pulls, when `a` deliver. -/
theorem ahead_add (a b : Nat) (src : Source) (h : (src.ahead a).length = a) :
    src.ahead (a + b) = src.ahead a ++ (src.after a).ahead b ∧ src.after (a + b) = (src.after a).after b := by
  induction a generalizing src with
  | zero => rw [Nat.zero_add]; exact ⟨rfl, rfl⟩
  | succ a ih =>
    rw [Nat.add_right_comm]
    rcases pull_cases src with ⟨c, x, e⟩ | e
    · rw [ahead_byte e, List.length_cons] at h
      obtain ⟨i, j⟩ := ih x (by omega)
      rw [ahead_byte e, ahead_byte e, after_byte e, after_byte e, i, j]; exact ⟨rfl, rfl⟩
    · rw [ahead_stop e] at h; simp at h

/-- A source that stops within `a` pulls delivers nothing more. -/
theorem ahead_short (a b : Nat) (src : Source) (h : (src.ahead a).length < a) (hb : a ≤ b) :
    src.ahead b = src.ahead a := by
  induction a generalizing src b with
  | zero => omega
  | succ a ih =>
    rcases pull_cases src with ⟨c, x, e⟩ | e
    · obtain ⟨b, rfl⟩ : ∃ d, b = d + 1 := ⟨b - 1, by omega⟩
      rw [ahead_byte e, List.length_cons] at h
      rw [ahead_byte e, ahead_byte e, ih b x (by omega) (by omega)]
    · rw [ahead_stop e, ahead_stop e]

/-- Fewer pulls deliver if more do. -/
theorem ahead_full_mono (a b : Nat) (src : Source) (h : (src.ahead b).length = b) (hab : a ≤ b) :
    (src.ahead a).length = a := by
  have := ahead_length_le a src
  by_contra hc
  have e := ahead_short a b src (by omega) hab
  rw [e] at h
  omega

/-- The pulls that deliver, of any number of pulls, are a prefix of them. -/
theorem ahead_prefix (k : Nat) (src : Source) :
    src.ahead (src.ahead k).length = src.ahead k ∧ src.after (src.ahead k).length = src.after k := by
  induction k generalizing src with
  | zero => exact ⟨rfl, rfl⟩
  | succ k ih =>
    rcases pull_cases src with ⟨c, x, e⟩ | e
    · rw [ahead_byte e, List.length_cons, ahead_byte e, after_byte e, after_byte e, (ih x).1, (ih x).2]
      exact ⟨rfl, rfl⟩
    · simp [ahead_stop e, after_stop e]

/-- A source that stops within `k` pulls answers no byte where it stops. -/
theorem after_short (k : Nat) (src : Source) (h : (src.ahead k).length < k) :
    ∀ b x, (src.after k).pull ≠ some (.byte b, x) := by
  induction k generalizing src with
  | zero => omega
  | succ k ih =>
    rcases pull_cases src with ⟨c, x, e⟩ | e
    · rw [ahead_byte e, List.length_cons] at h
      rw [after_byte e]; exact ih x (by omega)
    · rw [after_stop e]; exact e

/-- Taking a prefix of what is delivered. -/
theorem ahead_take (a b : Nat) (src : Source) (hab : a ≤ b) : (src.ahead b).take a = src.ahead a := by
  by_cases h : (src.ahead a).length = a
  · obtain ⟨d, rfl⟩ := Nat.exists_eq_add_of_le hab
    rw [(ahead_add a d src h).1, List.take_append_of_le_length (by omega), List.take_of_length_le (by omega)]
  · have := ahead_length_le a src
    rw [ahead_short a b src (by omega) hab, List.take_of_length_le this]

/-- The reference source of R38: it delivers its list, and goes on behind it. -/
theorem ahead_listed (k : Nat) (bs : List Byte) (tl : SourceEnd) (h : k ≤ bs.length) :
    Source.ahead k ⟨bs, tl⟩ = bs.take k ∧ Source.after k ⟨bs, tl⟩ = ⟨bs.drop k, tl⟩ := by
  induction k generalizing bs with
  | zero => exact ⟨rfl, rfl⟩
  | succ k ih =>
    cases bs with
    | nil => simp at h
    | cons b bs =>
      have e : Source.pull ⟨b :: bs, tl⟩ = some (.byte b, ⟨bs, tl⟩) := rfl
      have i := ih bs (by simpa using h)
      rw [ahead_byte e, after_byte e, i.1, i.2]; exact ⟨rfl, rfl⟩

end Sys2Proof.Machine
end

