-- ==== Sys2Proof/Laws/State.lean ====
section
/-! SUPPORT. One lemma per field per update of the state, so that no later proof unfolds a record update. -/

namespace Sys2Proof.Machine

/-! ### `respond`: R57 -/

@[simp] theorem respond_acc_eq (r : Response) (s : State) : (respond r s).acc = s.acc := rfl
@[simp] theorem respond_nbits_eq (r : Response) (s : State) : (respond r s).nbits = s.nbits := rfl
@[simp] theorem respond_bitsRead_eq (r : Response) (s : State) : (respond r s).bitsRead = s.bitsRead := rfl
@[simp] theorem respond_own_eq (r : Response) (s : State) : (respond r s).own = s.own := rfl
@[simp] theorem respond_fault_eq (r : Response) (s : State) : (respond r s).fault = s.fault := rfl
@[simp] theorem respond_errinfo_eq (r : Response) (s : State) : (respond r s).errinfo = s.errinfo := rfl
@[simp] theorem respond_slots_eq (r : Response) (s : State) : (respond r s).slots = s.slots := rfl
@[simp] theorem respond_fidx_eq (r : Response) (s : State) : (respond r s).fidx = s.fidx := rfl
@[simp] theorem respond_hdr_eq (r : Response) (s : State) : (respond r s).hdr = s.hdr := rfl
@[simp] theorem respond_src_eq (r : Response) (s : State) : (respond r s).src = s.src := rfl
@[simp] theorem respond_pulled_eq (r : Response) (s : State) : (respond r s).pulled = s.pulled := rfl
@[simp] theorem respond_host_eq (r : Response) (s : State) : (respond r s).host = s.host := rfl
@[simp] theorem respond_resp_eq (r : Response) (s : State) : (respond r s).resp = some r := rfl
@[simp] theorem respond_fetch_eq (r : Response) (s : State) : (respond r s).fetch = s.fetch := rfl
@[simp] theorem respond_value_eq (r : Response) (s : State) : (respond r s).value = s.value := rfl

/-! ### `raise`: R124 -/

@[simp] theorem raise_acc_eq (c : Cause) (e : Byte) (s : State) : (raise c e s).acc = s.acc := rfl
@[simp] theorem raise_nbits_eq (c : Cause) (e : Byte) (s : State) : (raise c e s).nbits = s.nbits := rfl
@[simp] theorem raise_bitsRead_eq (c : Cause) (e : Byte) (s : State) : (raise c e s).bitsRead = s.bitsRead := rfl
@[simp] theorem raise_own_eq (c : Cause) (e : Byte) (s : State) : (raise c e s).own = s.own := rfl
@[simp] theorem raise_fault_eq (c : Cause) (e : Byte) (s : State) : (raise c e s).fault = causeCode c := rfl
@[simp] theorem raise_errinfo_eq (c : Cause) (e : Byte) (s : State) : (raise c e s).errinfo = if c = .sourceError then e else 0 := rfl
@[simp] theorem raise_slots_eq (c : Cause) (e : Byte) (s : State) : (raise c e s).slots = s.slots := rfl
@[simp] theorem raise_fidx_eq (c : Cause) (e : Byte) (s : State) : (raise c e s).fidx = s.fidx := rfl
@[simp] theorem raise_hdr_eq (c : Cause) (e : Byte) (s : State) : (raise c e s).hdr = s.hdr := rfl
@[simp] theorem raise_src_eq (c : Cause) (e : Byte) (s : State) : (raise c e s).src = s.src := rfl
@[simp] theorem raise_pulled_eq (c : Cause) (e : Byte) (s : State) : (raise c e s).pulled = s.pulled := rfl
@[simp] theorem raise_host_eq (c : Cause) (e : Byte) (s : State) : (raise c e s).host = s.host := rfl
@[simp] theorem raise_resp_eq (c : Cause) (e : Byte) (s : State) : (raise c e s).resp = some (.err (causeCode c) (if c = .sourceError then e else 0)) := rfl
@[simp] theorem raise_fetch_eq (c : Cause) (e : Byte) (s : State) : (raise c e s).fetch = s.fetch := rfl
@[simp] theorem raise_value_eq (c : Cause) (e : Byte) (s : State) : (raise c e s).value = s.value := rfl

/-! ### `appendByte`: R73 -/

@[simp] theorem appendByte_acc_eq (b : Byte) (s : State) : (appendByte b s).acc = s.acc ||| (b.setWidth 64 <<< s.nbits.toNat) := rfl
@[simp] theorem appendByte_nbits_eq (b : Byte) (s : State) : (appendByte b s).nbits = s.nbits + 8 := rfl
@[simp] theorem appendByte_bitsRead_eq (b : Byte) (s : State) : (appendByte b s).bitsRead = s.bitsRead := rfl
@[simp] theorem appendByte_own_eq (b : Byte) (s : State) : (appendByte b s).own = s.own := rfl
@[simp] theorem appendByte_fault_eq (b : Byte) (s : State) : (appendByte b s).fault = s.fault := rfl
@[simp] theorem appendByte_errinfo_eq (b : Byte) (s : State) : (appendByte b s).errinfo = s.errinfo := rfl
@[simp] theorem appendByte_slots_eq (b : Byte) (s : State) : (appendByte b s).slots = s.slots := rfl
@[simp] theorem appendByte_fidx_eq (b : Byte) (s : State) : (appendByte b s).fidx = s.fidx := rfl
@[simp] theorem appendByte_hdr_eq (b : Byte) (s : State) : (appendByte b s).hdr = s.hdr := rfl
@[simp] theorem appendByte_src_eq (b : Byte) (s : State) : (appendByte b s).src = s.src := rfl
@[simp] theorem appendByte_pulled_eq (b : Byte) (s : State) : (appendByte b s).pulled = s.pulled + 1 := rfl
@[simp] theorem appendByte_host_eq (b : Byte) (s : State) : (appendByte b s).host = s.host := rfl
@[simp] theorem appendByte_resp_eq (b : Byte) (s : State) : (appendByte b s).resp = s.resp := rfl
@[simp] theorem appendByte_fetch_eq (b : Byte) (s : State) : (appendByte b s).fetch = s.fetch := rfl
@[simp] theorem appendByte_value_eq (b : Byte) (s : State) : (appendByte b s).value = s.value := rfl

/-! ### `release`: R83 -/

@[simp] theorem release_acc_eq (s : State) : (release s).acc = 0 := rfl
@[simp] theorem release_nbits_eq (s : State) : (release s).nbits = 0 := rfl
@[simp] theorem release_bitsRead_eq (s : State) : (release s).bitsRead = s.bitsRead := rfl
@[simp] theorem release_own_eq (s : State) : (release s).own = false := rfl
@[simp] theorem release_fault_eq (s : State) : (release s).fault = s.fault := rfl
@[simp] theorem release_errinfo_eq (s : State) : (release s).errinfo = s.errinfo := rfl
@[simp] theorem release_slots_eq (s : State) : (release s).slots = s.slots := rfl
@[simp] theorem release_fidx_eq (s : State) : (release s).fidx = s.fidx := rfl
@[simp] theorem release_hdr_eq (s : State) : (release s).hdr = s.hdr := rfl
@[simp] theorem release_src_eq (s : State) : (release s).src = s.src := rfl
@[simp] theorem release_pulled_eq (s : State) : (release s).pulled = s.pulled := rfl
@[simp] theorem release_host_eq (s : State) : (release s).host = s.host := rfl
@[simp] theorem release_resp_eq (s : State) : (release s).resp = s.resp := rfl
@[simp] theorem release_fetch_eq (s : State) : (release s).fetch = s.fetch := rfl
@[simp] theorem release_value_eq (s : State) : (release s).value = s.value := rfl

/-! ### `bindField`: R97 -/

@[simp] theorem bindField_acc_eq (v : Word32) (s : State) : (bindField v s).acc = s.acc := rfl
@[simp] theorem bindField_nbits_eq (v : Word32) (s : State) : (bindField v s).nbits = s.nbits := rfl
@[simp] theorem bindField_bitsRead_eq (v : Word32) (s : State) : (bindField v s).bitsRead = s.bitsRead := rfl
@[simp] theorem bindField_own_eq (v : Word32) (s : State) : (bindField v s).own = s.own := rfl
@[simp] theorem bindField_fault_eq (v : Word32) (s : State) : (bindField v s).fault = s.fault := rfl
@[simp] theorem bindField_errinfo_eq (v : Word32) (s : State) : (bindField v s).errinfo = s.errinfo := rfl
@[simp] theorem bindField_slots_eq (v : Word32) (s : State) : (bindField v s).slots = s.slots.setIfInBounds s.fidx.toNat (.bound v) := rfl
@[simp] theorem bindField_fidx_eq (v : Word32) (s : State) : (bindField v s).fidx = s.fidx + 1 := rfl
@[simp] theorem bindField_hdr_eq (v : Word32) (s : State) : (bindField v s).hdr = s.hdr := rfl
@[simp] theorem bindField_src_eq (v : Word32) (s : State) : (bindField v s).src = s.src := rfl
@[simp] theorem bindField_pulled_eq (v : Word32) (s : State) : (bindField v s).pulled = s.pulled := rfl
@[simp] theorem bindField_host_eq (v : Word32) (s : State) : (bindField v s).host = s.host := rfl
@[simp] theorem bindField_resp_eq (v : Word32) (s : State) : (bindField v s).resp = s.resp := rfl
@[simp] theorem bindField_fetch_eq (v : Word32) (s : State) : (bindField v s).fetch = s.fetch := rfl
@[simp] theorem bindField_value_eq (v : Word32) (s : State) : (bindField v s).value = s.value := rfl

/-! ### `startRecord`: R99 -/

@[simp] theorem startRecord_acc_eq (s : State) : (startRecord s).acc = s.acc := rfl
@[simp] theorem startRecord_nbits_eq (s : State) : (startRecord s).nbits = s.nbits := rfl
@[simp] theorem startRecord_bitsRead_eq (s : State) : (startRecord s).bitsRead = s.bitsRead := rfl
@[simp] theorem startRecord_own_eq (s : State) : (startRecord s).own = s.own := rfl
@[simp] theorem startRecord_fault_eq (s : State) : (startRecord s).fault = s.fault := rfl
@[simp] theorem startRecord_errinfo_eq (s : State) : (startRecord s).errinfo = s.errinfo := rfl
@[simp] theorem startRecord_slots_eq (s : State) : (startRecord s).slots = Vector.replicate 8 .unbound := rfl
@[simp] theorem startRecord_fidx_eq (s : State) : (startRecord s).fidx = 0 := rfl
@[simp] theorem startRecord_hdr_eq (s : State) : (startRecord s).hdr = .invalid := rfl
@[simp] theorem startRecord_src_eq (s : State) : (startRecord s).src = s.src := rfl
@[simp] theorem startRecord_pulled_eq (s : State) : (startRecord s).pulled = s.pulled := rfl
@[simp] theorem startRecord_host_eq (s : State) : (startRecord s).host = s.host := rfl
@[simp] theorem startRecord_resp_eq (s : State) : (startRecord s).resp = s.resp := rfl
@[simp] theorem startRecord_fetch_eq (s : State) : (startRecord s).fetch = s.fetch := rfl
@[simp] theorem startRecord_value_eq (s : State) : (startRecord s).value = s.value := rfl

/-! ### `delivered`: a number of deliveries (R73) -/

@[simp] theorem delivered_bitsRead_eq (k : Nat) (s : State) : (s.delivered k).bitsRead = s.bitsRead := rfl
@[simp] theorem delivered_own_eq (k : Nat) (s : State) : (s.delivered k).own = s.own := rfl
@[simp] theorem delivered_fault_eq (k : Nat) (s : State) : (s.delivered k).fault = s.fault := rfl
@[simp] theorem delivered_errinfo_eq (k : Nat) (s : State) : (s.delivered k).errinfo = s.errinfo := rfl
@[simp] theorem delivered_slots_eq (k : Nat) (s : State) : (s.delivered k).slots = s.slots := rfl
@[simp] theorem delivered_fidx_eq (k : Nat) (s : State) : (s.delivered k).fidx = s.fidx := rfl
@[simp] theorem delivered_hdr_eq (k : Nat) (s : State) : (s.delivered k).hdr = s.hdr := rfl
@[simp] theorem delivered_src_eq (k : Nat) (s : State) : (s.delivered k).src = s.src.after k := rfl
@[simp] theorem delivered_pulled_eq (k : Nat) (s : State) : (s.delivered k).pulled = s.pulled + k := rfl
@[simp] theorem delivered_host_eq (k : Nat) (s : State) : (s.delivered k).host = s.host := rfl
@[simp] theorem delivered_resp_eq (k : Nat) (s : State) : (s.delivered k).resp = s.resp := rfl
@[simp] theorem delivered_fetch_eq (k : Nat) (s : State) : (s.delivered k).fetch = s.fetch := rfl
@[simp] theorem delivered_value_eq (k : Nat) (s : State) : (s.delivered k).value = s.value := rfl

/-! ### `consumed`: a number of bits consumed (R75); its window is the subject of Laws/Reader.lean -/

@[simp] theorem consumed_bitsRead_eq (n : Nat) (s : State) : (s.consumed n).bitsRead = s.bitsRead + BitVec.ofNat 64 n := rfl
@[simp] theorem consumed_own_eq (n : Nat) (s : State) : (s.consumed n).own = s.own := rfl
@[simp] theorem consumed_fault_eq (n : Nat) (s : State) : (s.consumed n).fault = s.fault := rfl
@[simp] theorem consumed_errinfo_eq (n : Nat) (s : State) : (s.consumed n).errinfo = s.errinfo := rfl
@[simp] theorem consumed_slots_eq (n : Nat) (s : State) : (s.consumed n).slots = s.slots := rfl
@[simp] theorem consumed_fidx_eq (n : Nat) (s : State) : (s.consumed n).fidx = s.fidx := rfl
@[simp] theorem consumed_hdr_eq (n : Nat) (s : State) : (s.consumed n).hdr = s.hdr := rfl
@[simp] theorem consumed_src_eq (n : Nat) (s : State) : (s.consumed n).src = s.src.after (s.pullsFor n) := rfl
@[simp] theorem consumed_pulled_eq (n : Nat) (s : State) : (s.consumed n).pulled = s.pulled + s.pullsFor n := rfl
@[simp] theorem consumed_host_eq (n : Nat) (s : State) : (s.consumed n).host = s.host := rfl
@[simp] theorem consumed_resp_eq (n : Nat) (s : State) : (s.consumed n).resp = s.resp := rfl
@[simp] theorem consumed_fetch_eq (n : Nat) (s : State) : (s.consumed n).fetch = s.fetch := rfl
@[simp] theorem consumed_value_eq (n : Nat) (s : State) : (s.consumed n).value = s.value := rfl

/-! ### `faultedWith`: a latched fault (R124) -/

@[simp] theorem faultedWith_acc_eq (c : BitVec 3) (e : Byte) (s : State) : (s.faultedWith c e).acc = s.acc := rfl
@[simp] theorem faultedWith_nbits_eq (c : BitVec 3) (e : Byte) (s : State) : (s.faultedWith c e).nbits = s.nbits := rfl
@[simp] theorem faultedWith_bitsRead_eq (c : BitVec 3) (e : Byte) (s : State) : (s.faultedWith c e).bitsRead = s.bitsRead := rfl
@[simp] theorem faultedWith_own_eq (c : BitVec 3) (e : Byte) (s : State) : (s.faultedWith c e).own = s.own := rfl
@[simp] theorem faultedWith_fault_eq (c : BitVec 3) (e : Byte) (s : State) : (s.faultedWith c e).fault = c := rfl
@[simp] theorem faultedWith_errinfo_eq (c : BitVec 3) (e : Byte) (s : State) : (s.faultedWith c e).errinfo = e := rfl
@[simp] theorem faultedWith_slots_eq (c : BitVec 3) (e : Byte) (s : State) : (s.faultedWith c e).slots = s.slots := rfl
@[simp] theorem faultedWith_fidx_eq (c : BitVec 3) (e : Byte) (s : State) : (s.faultedWith c e).fidx = s.fidx := rfl
@[simp] theorem faultedWith_hdr_eq (c : BitVec 3) (e : Byte) (s : State) : (s.faultedWith c e).hdr = s.hdr := rfl
@[simp] theorem faultedWith_src_eq (c : BitVec 3) (e : Byte) (s : State) : (s.faultedWith c e).src = s.src := rfl
@[simp] theorem faultedWith_pulled_eq (c : BitVec 3) (e : Byte) (s : State) : (s.faultedWith c e).pulled = s.pulled := rfl
@[simp] theorem faultedWith_host_eq (c : BitVec 3) (e : Byte) (s : State) : (s.faultedWith c e).host = s.host := rfl
@[simp] theorem faultedWith_resp_eq (c : BitVec 3) (e : Byte) (s : State) : (s.faultedWith c e).resp = some (.err c e) := rfl
@[simp] theorem faultedWith_fetch_eq (c : BitVec 3) (e : Byte) (s : State) : (s.faultedWith c e).fetch = s.fetch := rfl
@[simp] theorem faultedWith_value_eq (c : BitVec 3) (e : Byte) (s : State) : (s.faultedWith c e).value = s.value := rfl

/-! ### `State.resetWith`: R31 -/

@[simp] theorem resetWith_acc_eq (src : Source) (host : List HostEvent) : (State.resetWith src host).acc = 0 := rfl
@[simp] theorem resetWith_nbits_eq (src : Source) (host : List HostEvent) : (State.resetWith src host).nbits = 0 := rfl
@[simp] theorem resetWith_bitsRead_eq (src : Source) (host : List HostEvent) : (State.resetWith src host).bitsRead = 0 := rfl
@[simp] theorem resetWith_own_eq (src : Source) (host : List HostEvent) : (State.resetWith src host).own = true := rfl
@[simp] theorem resetWith_fault_eq (src : Source) (host : List HostEvent) : (State.resetWith src host).fault = 0 := rfl
@[simp] theorem resetWith_errinfo_eq (src : Source) (host : List HostEvent) : (State.resetWith src host).errinfo = 0 := rfl
@[simp] theorem resetWith_slots_eq (src : Source) (host : List HostEvent) : (State.resetWith src host).slots = Vector.replicate 8 .unbound := rfl
@[simp] theorem resetWith_fidx_eq (src : Source) (host : List HostEvent) : (State.resetWith src host).fidx = 0 := rfl
@[simp] theorem resetWith_hdr_eq (src : Source) (host : List HostEvent) : (State.resetWith src host).hdr = .invalid := rfl
@[simp] theorem resetWith_src_eq (src : Source) (host : List HostEvent) : (State.resetWith src host).src = src := rfl
@[simp] theorem resetWith_pulled_eq (src : Source) (host : List HostEvent) : (State.resetWith src host).pulled = 0 := rfl
@[simp] theorem resetWith_host_eq (src : Source) (host : List HostEvent) : (State.resetWith src host).host = host := rfl
@[simp] theorem resetWith_resp_eq (src : Source) (host : List HostEvent) : (State.resetWith src host).resp = none := rfl
@[simp] theorem resetWith_fetch_eq (src : Source) (host : List HostEvent) : (State.resetWith src host).fetch = .port := rfl
@[simp] theorem resetWith_value_eq (src : Source) (host : List HostEvent) : (State.resetWith src host).value = none := rfl

end Sys2Proof.Machine
end

