-- ==== Sys2Proof/Laws/Answers.lean ====
section
/-! SUPPORT. The block assumes nothing of its source but the answers (R37): on two sources that answer alike, every
procedure does the same. -/

namespace Sys2Proof.Machine

/-- `t` is `s` on another source that answers alike. -/
def Alike (s t : State) : Prop := ∃ z, t = { s with src := z } ∧ s.src.answersLike z

/-- Two results that differ in the source only, which answers alike unless a fault was raised. -/
def SameRes {α : Type} : Res α → Res α → Prop
  | .done v s, .done w t => v = w ∧ Alike s t
  | .raised s, .raised t => s.fault ≠ 0 ∧ ∃ z, t = { s with src := z }
  | .stuck f, .stuck g => f = g
  | .refused q, .refused r => q = r
  | _, _ => False

theorem answersLike_refl (x : Source) : x.answersLike x := fun _ => ⟨rfl, rfl⟩

/-- Sources that answer alike give the same next answer, and still answer alike after a byte. -/
theorem answersLike_pull {x y : Source} (h : x.answersLike y) :
    (x.pull = none ∧ y.pull = none) ∨
    ∃ a x' y', x.pull = some (a, x') ∧ y.pull = some (a, y') ∧ ∀ b, a = .byte b → x'.answersLike y' := by
  have h0 : x.pull.map Prod.fst = y.pull.map Prod.fst := (h 0).2
  cases hx : x.pull with
  | none =>
    cases hy : y.pull with
    | none => exact .inl ⟨rfl, rfl⟩
    | some q => rw [hx, hy] at h0; simp at h0
  | some p =>
    obtain ⟨a, x'⟩ := p
    cases hy : y.pull with
    | none => rw [hx, hy] at h0; simp at h0
    | some q =>
      obtain ⟨c, y'⟩ := q
      rw [hx, hy] at h0
      obtain rfl : a = c := by simpa using h0
      refine .inr ⟨a, x', y', rfl, rfl, ?_⟩
      rintro b rfl k
      have hk := h (k + 1)
      rw [ahead_byte hx, ahead_byte hy, after_byte hx, after_byte hy] at hk
      exact ⟨(List.cons.inj hk.1).2, hk.2⟩

theorem Alike.refl (s : State) : Alike s s := ⟨s.src, rfl, answersLike_refl _⟩

/-- A sequence of procedures that do the same does the same. -/
theorem SameRes.bind {α β : Type} {p q : Res α} {k l : α → State → Res β} (h : SameRes p q)
    (hk : ∀ v s t, Alike s t → SameRes (k v s) (l v t)) : SameRes (p.bind k) (q.bind l) := by
  cases p <;> cases q <;> first | exact h.elim | skip
  · obtain ⟨rfl, e⟩ := h; exact hk _ _ _ e
  · exact h
  · exact h
  · exact h

theorem refillLoop_same (k n : Nat) (s t : State) (h : Alike s t) : SameRes (refillLoop k n s) (refillLoop k n t) := by
  induction k generalizing s t with
  | zero => exact ⟨rfl, h⟩
  | succ k ih =>
    obtain ⟨z, rfl, hz⟩ := h
    rw [refillLoop, refillLoop]
    show SameRes (if s.nbits.toNat < n then _ else _) (if s.nbits.toNat < n then _ else _)
    split
    · show SameRes (match s.src.pull with | _ => _) (match z.pull with | _ => _)
      rcases answersLike_pull hz with ⟨a, b⟩ | ⟨a, x, y, hx, hy, hb⟩
      · rw [a, b]; exact rfl
      · rw [hx, hy]
        cases a with
        | byte b => exact ih _ _ ⟨y, rfl, hb b rfl⟩
        | eos => exact ⟨by simp [causeCode], y, rfl⟩
        | err e => exact ⟨by simp [causeCode], y, rfl⟩
    · exact ⟨rfl, z, rfl, hz⟩

theorem peek_same (n : Nat) (s t : State) (h : Alike s t) : SameRes (peek n s) (peek n t) := by
  refine (refillLoop_same 8 n s t h).bind fun _ u v e => ?_
  obtain ⟨z, rfl, hz⟩ := e
  exact ⟨rfl, z, rfl, hz⟩

theorem consume_same (n : Nat) (s t : State) (h : Alike s t) : SameRes (consume n s) (consume n t) := by
  obtain ⟨z, rfl, hz⟩ := h
  unfold consume
  show SameRes (if s.bitsRead.toNat + n < 2 ^ 64 then _ else _) (if s.bitsRead.toNat + n < 2 ^ 64 then _ else _)
  split
  · exact ⟨rfl, z, rfl, hz⟩
  · exact rfl

theorem read_same (n : Nat) (s t : State) (h : Alike s t) : SameRes (read n s) (read n t) :=
  (peek_same n s t h).bind fun _ u v e => (consume_same n u v e).bind fun _ _ _ e => ⟨rfl, e⟩

theorem decodeFixed_same (w : BitVec 6) (s t : State) (h : Alike s t) : SameRes (decodeFixed w s) (decodeFixed w t) := by
  unfold decodeFixed
  split
  · exact (read_same _ s t h).bind fun _ _ _ e => ⟨rfl, e⟩
  · exact rfl

theorem decodeOffset_same (w : BitVec 6) (o : Word32) (s t : State) (h : Alike s t) :
    SameRes (decodeOffset w o s) (decodeOffset w o t) := by
  unfold decodeOffset
  split
  · exact (read_same _ s t h).bind fun _ _ _ e => ⟨rfl, e⟩
  · exact rfl

theorem decodeArm_same (T : Tables) (a : BitVec 6) (s t : State) (h : Alike s t) :
    SameRes (decodeArm T a s) (decodeArm T a t) := by
  unfold decodeArm
  split
  · exact ⟨rfl, h⟩
  · exact decodeFixed_same _ s t h
  · exact decodeOffset_same _ _ s t h
  · exact rfl

theorem decodePsel_same (T : Tables) (a0 a1 a2 a3 : BitVec 6) (s t : State) (h : Alike s t) :
    SameRes (decodePsel T a0 a1 a2 a3 s) (decodePsel T a0 a1 a2 a3 t) := by
  unfold decodePsel
  split
  · exact (read_same _ s t h).bind fun _ u v e => decodeArm_same T _ u v e
  · exact rfl

theorem decodeCodec_same (T : Tables) (k : BitVec 6) (s t : State) (h : Alike s t) :
    SameRes (decodeCodec T k s) (decodeCodec T k t) := by
  unfold decodeCodec
  split
  · exact ⟨rfl, h⟩
  · exact decodeFixed_same _ s t h
  · exact decodeOffset_same _ _ s t h
  · exact decodePsel_same T _ _ _ _ s t h
  · exact rfl

theorem getSlot_alike (i : BitVec 3) (s t : State) (h : Alike s t) : SameRes (getSlot i s) (getSlot i t) := by
  obtain ⟨z, rfl, hz⟩ := h
  unfold getSlot
  show SameRes (match s.slots[i.toNat] with | _ => _) (match s.slots[i.toNat] with | _ => _)
  cases s.slots[i.toNat] with
  | bound v => exact ⟨rfl, z, rfl, hz⟩
  | unbound => exact rfl

theorem term_alike (x : Term) (s t : State) (h : Alike s t) : SameRes (term x s) (term x t) := by
  unfold term
  split
  · exact (getSlot_alike _ s t h).bind fun _ _ _ e => ⟨rfl, e⟩
  · exact ⟨rfl, h⟩

theorem present_alike (t0 t1 : Term) (s t : State) (h : Alike s t) : SameRes (present t0 t1 s) (present t0 t1 t) :=
  (term_alike t0 s t h).bind fun _ u v e => (term_alike t1 u v e).bind fun _ _ _ e => ⟨rfl, e⟩

theorem bindField_alike (v : Word32) (s t : State) (h : Alike s t) : Alike (bindField v s) (bindField v t) := by
  obtain ⟨z, rfl, hz⟩ := h; exact ⟨z, rfl, hz⟩

theorem stepField_same (T : Tables) (codec : BitVec 6) (t0 t1 : Term) (d : Word32) (s t : State) (h : Alike s t) :
    SameRes (stepField T codec t0 t1 d s) (stepField T codec t0 t1 d t) := by
  have hf : t.fidx = s.fidx := by obtain ⟨z, rfl, -⟩ := h; rfl
  unfold stepField
  rw [hf]
  split
  · split
    · refine (present_alike t0 t1 s t h).bind fun p u v e => ?_
      cases p with
      | true =>
        exact (decodeCodec_same T codec u v e).bind fun x u v e => ⟨rfl, bindField_alike x u v e⟩
      | false => exact ⟨rfl, bindField_alike d u v e⟩
    · exact rfl
  · exact rfl

theorem runFields_same (T : Tables) (k : Nat) (s t : State) (h : Alike s t) :
    SameRes (runFields T k s) (runFields T k t) := by
  induction k generalizing s t with
  | zero => exact ⟨rfl, h⟩
  | succ k ih =>
    have hf : t.fidx = s.fidx := by obtain ⟨z, rfl, -⟩ := h; rfl
    unfold runFields
    rw [hf]
    split
    · refine SameRes.bind ?_ fun _ u v e => ih u v e
      unfold fieldStep
      rw [hf]
      split
      · exact stepField_same T _ _ _ _ s t h
      · exact rfl
    · exact ⟨rfl, h⟩

theorem assemble_alike (T : Tables) (s t : State) (h : Alike s t) : SameRes (assemble T s) (assemble T t) := by
  have hh : ∀ x u v, Alike u v → SameRes (assembleHeight x u) (assembleHeight x v) := by
    intro x u v e
    unfold assembleHeight
    split <;> exact (getSlot_alike _ u v e).bind fun _ _ _ e => ⟨rfl, e⟩
  have hw : ∀ x r n u v, Alike u v → SameRes (assembleWidth T x r n u) (assembleWidth T x r n v) := by
    intro x r n u v e
    unfold assembleWidth
    split
    · split
      · split
        · exact rfl
        · exact ⟨rfl, e⟩
      · exact rfl
    · split <;> exact (getSlot_alike _ u v e).bind fun _ _ _ e => ⟨rfl, e⟩
  unfold assemble
  refine (getSlot_alike 0 s t h).bind fun x u v e => (getSlot_alike 3 u v e).bind fun r u v e =>
    (hh x u v e).bind fun n u v e => (hw x r n u v e).bind fun m u v e => ?_
  split
  · exact ⟨rfl, e⟩
  · exact rfl

theorem runSchema_same (T : Tables) (s t : State) (h : Alike s t) : SameRes (runSchema T s) (runSchema T t) := by
  unfold runSchema
  split
  · refine (runFields_same T _ _ _ ?_).bind fun _ u v e => (assemble_alike T u v e).bind fun wh u v e => ?_
    · obtain ⟨z, rfl, hz⟩ := h; exact ⟨z, rfl, hz⟩
    · obtain ⟨z, rfl, hz⟩ := e; exact ⟨rfl, z, rfl, hz⟩
  · exact rfl

theorem readHeader_same (T : Tables) (s t : State) (h : Alike s t) : SameRes (readHeader T s) (readHeader T t) := by
  unfold readHeader
  refine (read_same _ s t h).bind fun v u w e => ?_
  split
  · refine (runSchema_same T u w e).bind fun _ u v e => ?_
    obtain ⟨z, rfl, hz⟩ := e
    exact ⟨rfl, z, rfl, hz⟩
  · obtain ⟨z, rfl, hz⟩ := e
    exact ⟨by simp [causeCode], z, rfl⟩

/-- Two outcomes that differ in the source only, which answers alike unless a fault is latched. -/
def SameOut (o p : Out) : Prop :=
  (∀ t, o = .next t → ∃ z, p = .next { t with src := z } ∧ (t.fault = 0 → t.src.answersLike z)) ∧
  (∀ f, o = .fault f → p = .fault f) ∧ ∀ r, o = .refused r → p = .refused r

theorem sameOut_next (s : State) (z : Source) (h : s.fault = 0 → s.src.answersLike z) :
    SameOut (.next s) (.next { s with src := z }) :=
  ⟨fun t e => by cases e; exact ⟨z, rfl, h⟩, (fun _ e => by cases e), (fun _ e => by cases e)⟩

theorem sameOut_fault (f : Fault) : SameOut (.fault f) (.fault f) := 
  ⟨(fun _ e => by cases e), fun _ e => e, (fun _ e => by cases e)⟩

theorem sameOut_refused (r : Refusal) : SameOut (.refused r) (.refused r) := 
  ⟨(fun _ e => by cases e), (fun _ e => by cases e), fun _ e => e⟩

theorem answer_same (p q : Res Word64) (h : SameRes p q) : SameOut (answer p) (answer q) := by
  cases p <;> cases q <;> first | exact h.elim | skip
  · obtain ⟨rfl, z, rfl, hz⟩ := h; exact sameOut_next (respond _ _) z fun _ => hz
  · obtain ⟨hf, z, rfl⟩ := h; exact sameOut_next _ z fun e => absurd e hf
  · cases h; exact sameOut_fault _
  · cases h; exact sameOut_refused _

theorem yieldValue_same (p q : Res Word32) (h : SameRes p q) : SameOut (yieldValue p) (yieldValue q) := by
  cases p <;> cases q <;> first | exact h.elim | skip
  · rename_i v s _ _
    obtain ⟨rfl, z, rfl, hz⟩ := h; exact sameOut_next { s with value := some v } z fun _ => hz
  · rename_i s _
    obtain ⟨hf, z, rfl⟩ := h; exact sameOut_next { s with value := none } z fun e => absurd e hf
  · cases h; exact sameOut_fault _
  · cases h; exact sameOut_refused _

theorem yieldUnit_same (p q : Res Unit) (h : SameRes p q) : SameOut (yieldUnit p) (yieldUnit q) := by
  cases p <;> cases q <;> first | exact h.elim | skip
  · obtain ⟨rfl, z, rfl, hz⟩ := h; exact sameOut_next _ z fun _ => hz
  · obtain ⟨hf, z, rfl⟩ := h; exact sameOut_next _ z fun e => absurd e hf
  · cases h; exact sameOut_fault _
  · cases h; exact sameOut_refused _

/-- The gate on two sources that answer alike. -/
theorem gated_same (legal : Bool) (body : State → Out) (s : State) (z : Source) (hz : s.src.answersLike z)
    (hb : SameOut (body s) (body { s with src := z })) : SameOut (gated legal body s) (gated legal body { s with src := z }) := by
  unfold gated
  show SameOut (if s.fault ≠ 0 then _ else _) (if s.fault ≠ 0 then _ else _)
  split
  · exact sameOut_next (respond _ _) z fun _ => hz
  · split
    · exact sameOut_next (raise _ _ _) z fun _ => hz
    · show SameOut (if s.own = false then _ else _) (if s.own = false then _ else _)
      split
      · exact sameOut_next (raise _ _ _) z fun _ => hz
      · exact hb

end Sys2Proof.Machine
end

