-- ==== Sys2Proof/Laws/Reader.lean ====
section
/-! SUPPORT. What the reader's procedures do, once for each: `refill`, `peek`, `consume`, `read` on a stream with enough
bits and on a shorter one, whatever the source, and how consuming composes (R73 to R76, R42, R49). -/

namespace Sys2Proof.Machine

theorem leNat_lt (bs : List Byte) : leNat bs < 2 ^ (8 * bs.length) := by
  induction bs with
  | nil => simp [leNat]
  | cons b bs ih =>
    have hb := b.isLt
    rw [leNat, List.length_cons, Nat.mul_succ, Nat.pow_add]
    omega

theorem leNat_append (xs ys : List Byte) :
    leNat (xs ++ ys) = leNat xs + leNat ys * 2 ^ (8 * xs.length) := by
  induction xs with
  | nil => simp [leNat]
  | cons b xs ih =>
    rw [List.cons_append, leNat, leNat, ih, List.length_cons, Nat.mul_succ, Nat.pow_add]
    ring

theorem appendByte_nbits (b : Byte) (s : State) (h : s.nbits.toNat < 56) :
    (appendByte b s).nbits.toNat = s.nbits.toNat + 8 := by
  simp [appendByte, BitVec.toNat_add]; omega

theorem appendByte_acc (b : Byte) (s : State) (w : WindowOk s) (h : s.nbits.toNat < 56) :
    (appendByte b s).acc.toNat = s.acc.toNat + b.toNat * 2 ^ s.nbits.toNat := by
  have hb := b.isLt
  have hp : 2 ^ s.nbits.toNat ≤ 2 ^ 56 := Nat.pow_le_pow_right (by omega) (by omega)
  have hlt : b.toNat * 2 ^ s.nbits.toNat < 2 ^ 64 := by
    calc b.toNat * 2 ^ s.nbits.toNat ≤ 255 * 2 ^ 56 := Nat.mul_le_mul (by omega) hp
      _ < 2 ^ 64 := by norm_num
  have hshift : (b.setWidth 64 <<< s.nbits.toNat).toNat = 2 ^ s.nbits.toNat * b.toNat := by
    rw [BitVec.toNat_shiftLeft, BitVec.toNat_setWidth_of_le (by omega), Nat.shiftLeft_eq, Nat.mod_eq_of_lt hlt,
      Nat.mul_comm]
  show (s.acc ||| (b.setWidth 64 <<< s.nbits.toNat)).toNat = _
  rw [BitVec.toNat_or, hshift, Nat.or_comm, ← Nat.two_pow_add_eq_or_of_lt w.above, Nat.mul_comm, Nat.add_comm]

theorem appendByte_window (b : Byte) (s : State) (w : WindowOk s) (h : s.nbits.toNat < 56) :
    WindowOk (appendByte b s) := by
  refine ⟨by rw [appendByte_nbits b s h]; omega, ?_⟩
  have hb := b.isLt
  have ha := w.above
  rw [appendByte_nbits b s h, appendByte_acc b s w h, Nat.pow_add]
  calc s.acc.toNat + b.toNat * 2 ^ s.nbits.toNat
      < 2 ^ s.nbits.toNat + b.toNat * 2 ^ s.nbits.toNat := by omega
    _ = (b.toNat + 1) * 2 ^ s.nbits.toNat := by ring
    _ ≤ 256 * 2 ^ s.nbits.toNat := Nat.mul_le_mul_right _ (by omega)
    _ = 2 ^ s.nbits.toNat * 2 ^ 8 := by ring

theorem window_zero (s : State) : s.window 0 = s.acc.toNat := by simp [State.window, Source.ahead, leNat]

theorem delivered_zero (s : State) : s.delivered 0 = s := by
  rw [State.delivered, window_zero]; simp [Source.after]

/-- One pull that delivers a byte: the window, and what can be had, are counted from the state after it. -/
theorem window_succ (s : State) (b : Byte) (x : Source) (k : Nat) (w : WindowOk s) (h : s.nbits.toNat < 56)
    (hp : s.src.pull = some (.byte b, x)) :
    s.window (k + 1) = (appendByte b { s with src := x }).window k := by
  have ha := appendByte_acc b { s with src := x } ⟨w.bound, w.above⟩ h
  have hn := appendByte_nbits b { s with src := x } h
  rw [State.window, State.window, ha, hn, ahead_byte hp, leNat, Nat.pow_add]
  show _ = _ + leNat (x.ahead k) * _
  ring

/-- Delivering `k + 1` bytes is one `appendByte`, then `k`. -/
theorem delivered_succ (s : State) (b : Byte) (x : Source) (k : Nat) (w : WindowOk s) (h : s.nbits.toNat < 56)
    (hp : s.src.pull = some (.byte b, x)) :
    s.delivered (k + 1) = (appendByte b { s with src := x }).delivered k := by
  have hn := appendByte_nbits b { s with src := x } h
  unfold State.delivered
  rw [window_succ s b x k w h hp, hn, after_byte hp]
  ext1 <;> try rfl
  · show BitVec.ofNat 7 _ = BitVec.ofNat 7 _
    congr 1
    show s.nbits.toNat + 8 * (k + 1) = s.nbits.toNat + 8 + 8 * k
    ring
  · show s.pulled + (k + 1) = s.pulled + 1 + k
    omega

theorem pullsFor_of_le (s : State) (n : Nat) (h : n ≤ s.nbits.toNat) : s.pullsFor n = 0 := by
  simp [State.pullsFor]; omega

theorem pullsFor_spec (s : State) (n : Nat) : n ≤ s.nbits.toNat + 8 * s.pullsFor n := by
  simp [State.pullsFor]; omega

theorem pullsFor_mono (s : State) {a b : Nat} (h : a ≤ b) : s.pullsFor a ≤ s.pullsFor b := by
  simp only [State.pullsFor]; omega

/-- Buffered bits can be had. -/
theorem offers_of_le (s : State) (n : Nat) (h : n ≤ s.nbits.toNat) : s.offers n := by
  rw [State.offers, pullsFor_of_le s n h]; rfl

/-- Fewer bits can be had if more can. -/
theorem offers_mono {s : State} {a b : Nat} (h : s.offers b) (hab : a ≤ b) : s.offers a :=
  ahead_full_mono _ _ _ h (pullsFor_mono s hab)

theorem pullsFor_succ (s : State) (b : Byte) (x : Source) (n : Nat) (h : s.nbits.toNat < 56) (hn : s.nbits.toNat < n) :
    s.pullsFor n = (appendByte b { s with src := x }).pullsFor n + 1 := by
  have hn8 := appendByte_nbits b { s with src := x } h
  simp only [State.pullsFor, hn8]; omega

/-- One pull that delivers a byte does not change whether `n` bits can be had. -/
theorem offers_succ (s : State) (b : Byte) (x : Source) (n : Nat) (h : s.nbits.toNat < 56) (hn : s.nbits.toNat < n)
    (hp : s.src.pull = some (.byte b, x)) : s.offers n ↔ (appendByte b { s with src := x }).offers n := by
  rw [State.offers, State.offers, pullsFor_succ s b x n h hn, ahead_byte hp, List.length_cons, Nat.add_right_cancel_iff]
  rfl

theorem refillLoop_ok (k n : Nat) (s : State) (w : WindowOk s) (hn : n ≤ 56) (ha : s.offers n)
    (hk : s.pullsFor n ≤ k) : refillLoop k n s = .done () (s.lookedAt n) := by
  induction k generalizing s with
  | zero => rw [State.lookedAt, Nat.le_zero.mp hk, delivered_zero]; rfl
  | succ k ih =>
    rw [refillLoop]
    split
    · rename_i hlt
      have h56 : s.nbits.toNat < 56 := by omega
      rcases pull_cases s.src with ⟨b, x, hp⟩ | hp
      · rw [hp]
        have hs := pullsFor_succ s b x n h56 hlt
        show refillLoop k n (appendByte b { s with src := x }) = _
        rw [ih (appendByte b { s with src := x }) (appendByte_window b _ ⟨w.bound, w.above⟩ h56) ((offers_succ s b x n h56 hlt hp).mp ha) (by omega),
          State.lookedAt, State.lookedAt, hs, delivered_succ s b x _ w h56 hp]
      · rw [State.offers, ahead_stop hp] at ha
        have := pullsFor_spec s n
        simp at ha; omega
    · rename_i hge
      rw [State.lookedAt, pullsFor_of_le s n (by omega), delivered_zero]

theorem pullsFor_le_seven (s : State) (n : Nat) (hn : n ≤ 56) : s.pullsFor n ≤ 7 := by
  simp [State.pullsFor]; omega

theorem refill_ok (n : Nat) (s : State) (w : WindowOk s) (hn : n ≤ 56) (ha : s.offers n) :
    refill n s = .done () (s.lookedAt n) :=
  refillLoop_ok 8 n s w hn ha (by have := pullsFor_le_seven s n hn; omega)

/-- The whole of what `k` deliveries put into the window, as a number. -/
theorem window_lt (s : State) (k : Nat) (w : WindowOk s) : s.window k < 2 ^ (s.nbits.toNat + 8 * k) := by
  have h1 := leNat_lt (s.src.ahead k)
  have h2 : 2 ^ (8 * (s.src.ahead k).length) ≤ 2 ^ (8 * k) :=
    Nat.pow_le_pow_right (by omega) (by have := ahead_length_le k s.src; omega)
  have h3 := w.above
  rw [State.window, Nat.pow_add]
  calc s.acc.toNat + leNat (s.src.ahead k) * 2 ^ s.nbits.toNat
      < (leNat (s.src.ahead k) + 1) * 2 ^ s.nbits.toNat := by rw [Nat.add_mul]; omega
    _ ≤ 2 ^ (8 * k) * 2 ^ s.nbits.toNat := Nat.mul_le_mul_right _ (by omega)
    _ = _ := Nat.mul_comm _ _

/-- The window after `a + b` deliveries, when `a` deliver. -/
theorem window_add (s : State) (a b : Nat) (h : (s.src.ahead a).length = a) :
    s.window (a + b) = s.window a + leNat ((s.src.after a).ahead b) * 2 ^ (s.nbits.toNat + 8 * a) := by
  rw [State.window, State.window, (ahead_add a b s.src h).1, leNat_append, h, Nat.pow_add]; ring

theorem delivered_nbits (s : State) (k : Nat) (h : s.nbits.toNat + 8 * k ≤ 63) :
    (s.delivered k).nbits.toNat = s.nbits.toNat + 8 * k := by
  simp [State.delivered]; omega

theorem delivered_acc (s : State) (k : Nat) (w : WindowOk s) (h : s.nbits.toNat + 8 * k ≤ 63) :
    (s.delivered k).acc.toNat = s.window k := by
  have h1 := window_lt s k w
  have h2 : 2 ^ (s.nbits.toNat + 8 * k) ≤ 2 ^ 63 := Nat.pow_le_pow_right (by omega) h
  simp only [State.delivered, BitVec.toNat_ofNat]
  exact Nat.mod_eq_of_lt (by omega)

theorem delivered_window (s : State) (k : Nat) (w : WindowOk s) (h : s.nbits.toNat + 8 * k ≤ 63) :
    WindowOk (s.delivered k) :=
  ⟨by rw [delivered_nbits s k h]; exact h,
   by rw [delivered_nbits s k h, delivered_acc s k w h]; exact window_lt s k w⟩

theorem lookedAt_fits (s : State) (n : Nat) (w : WindowOk s) (hn : n ≤ 56) :
    s.nbits.toNat + 8 * s.pullsFor n ≤ 63 := by
  have := w.bound
  simp [State.pullsFor]; omega

theorem mask_and (v : Word64) (n : Nat) (h : n ≤ 64) : (v &&& mask n).toNat = v.toNat % 2 ^ n := by
  have : 2 ^ n ≤ 2 ^ 64 := Nat.pow_le_pow_right (by omega) h
  have hp : 0 < 2 ^ n := by positivity
  rw [BitVec.toNat_and, mask, BitVec.toNat_ofNat, Nat.mod_eq_of_lt (by omega), Nat.and_two_pow_sub_one_eq_mod]

theorem peek_ok (n : Nat) (s : State) (w : WindowOk s) (hn : n ≤ 56) (ha : s.offers n) :
    peek n s = .done (BitVec.ofNat 64 (s.bits 0 n)) (s.lookedAt n) := by
  rw [peek, refill_ok n s w hn ha]
  have hf := lookedAt_fits s n w hn
  show Res.done _ _ = _
  congr 1
  apply BitVec.eq_of_toNat_eq
  have hmod : s.bits 0 n % 2 ^ 64 = s.bits 0 n := by
    apply Nat.mod_eq_of_lt
    refine lt_of_lt_of_le (Nat.mod_lt _ (by positivity)) (Nat.pow_le_pow_right (by omega) (by omega))
  rw [mask_and _ _ (by omega), BitVec.toNat_ofNat, hmod, State.bits, State.lookedAt, delivered_acc s _ w hf,
    Nat.pow_zero, Nat.div_one, Nat.zero_add]

theorem consumed_nbits (s : State) (n : Nat) (w : WindowOk s) :
    (s.consumed n).nbits.toNat = s.nbits.toNat + 8 * s.pullsFor n - n := by
  have := w.bound
  simp only [State.consumed, BitVec.toNat_ofNat]
  apply Nat.mod_eq_of_lt
  simp [State.pullsFor]; omega

theorem consumed_lt (s : State) (n : Nat) (w : WindowOk s) :
    s.window (s.pullsFor n) / 2 ^ n < 2 ^ (s.nbits.toNat + 8 * s.pullsFor n - n) := by
  rw [Nat.div_lt_iff_lt_mul (by positivity), ← Nat.pow_add, Nat.sub_add_cancel (pullsFor_spec s n)]
  exact window_lt s _ w

theorem consumed_fits (s : State) (n : Nat) (w : WindowOk s) : s.nbits.toNat + 8 * s.pullsFor n - n ≤ 63 := by
  have := w.bound
  simp [State.pullsFor]; omega

theorem consumed_acc (s : State) (n : Nat) (w : WindowOk s) :
    (s.consumed n).acc.toNat = s.window (s.pullsFor n) / 2 ^ n := by
  have h1 := consumed_lt s n w
  have h2 : 2 ^ (s.nbits.toNat + 8 * s.pullsFor n - n) ≤ 2 ^ 63 :=
    Nat.pow_le_pow_right (by omega) (consumed_fits s n w)
  simp only [State.consumed, BitVec.toNat_ofNat]
  exact Nat.mod_eq_of_lt (by omega)

theorem consumed_window (s : State) (n : Nat) (w : WindowOk s) : WindowOk (s.consumed n) :=
  ⟨by rw [consumed_nbits s n w]; exact consumed_fits s n w,
   by rw [consumed_nbits s n w, consumed_acc s n w]; exact consumed_lt s n w⟩

/-- The window after a consume is that before it, without the bits consumed. -/
theorem consumed_window_eq (s : State) (n k : Nat) (w : WindowOk s) (ha : s.offers n) :
    (s.consumed n).window k = s.window (s.pullsFor n + k) / 2 ^ n := by
  obtain ⟨d, hd⟩ := Nat.exists_eq_add_of_le (pullsFor_spec s n)
  rw [window_add s _ k ha, State.window, consumed_acc s n w, consumed_nbits s n w, hd, Nat.add_sub_cancel_left,
    Nat.pow_add, Nat.mul_comm (2 ^ n), ← Nat.mul_assoc, Nat.add_mul_div_right _ _ (by positivity)]
  rfl

theorem consumed_pullsFor (s : State) (a b : Nat) (w : WindowOk s) :
    s.pullsFor (a + b) = s.pullsFor a + (s.consumed a).pullsFor b := by
  have h := consumed_nbits s a w
  have h2 := pullsFor_spec s a
  simp only [State.pullsFor] at *
  omega

/-- After `a` bits are consumed, `b` can be had if `a + b` could. -/
theorem consumed_offers (s : State) (a b : Nat) (w : WindowOk s) (ha : s.offers a) :
    (s.consumed a).offers b ↔ s.offers (a + b) := by
  rw [State.offers, State.offers, consumed_pullsFor s a b w, (ahead_add _ _ s.src ha).1, List.length_append, ha,
    Nat.add_left_cancel_iff]
  rfl

theorem consumed_bits (s : State) (a p n : Nat) (w : WindowOk s) (ha : s.offers a) :
    (s.consumed a).bits p n = s.bits (a + p) n := by
  rw [State.bits, State.bits, consumed_window_eq s a _ w ha, Nat.div_div_eq_div_mul, ← Nat.pow_add, Nat.add_assoc a p n,
    consumed_pullsFor s a (p + n) w]

/-- Consuming `a` bits and then `b` is consuming `a + b`. -/
theorem consumed_consumed (s : State) (a b : Nat) (w : WindowOk s) (ha : s.offers a) :
    (s.consumed a).consumed b = s.consumed (a + b) := by
  have hk := consumed_pullsFor s a b w
  have hn := consumed_nbits s a w
  have hs := pullsFor_spec s a
  have hs2 := pullsFor_spec s (a + b)
  rw [hk] at hs2
  rw [State.consumed, consumed_window_eq s a _ w ha, hn, Nat.div_div_eq_div_mul, ← Nat.pow_add, ← hk]
  ext1 <;> try rfl
  · show BitVec.ofNat 7 _ = BitVec.ofNat 7 _
    congr 1
    omega
  · show s.bitsRead + BitVec.ofNat 64 a + BitVec.ofNat 64 b = s.bitsRead + BitVec.ofNat 64 (a + b)
    rw [BitVec.ofNat_add, BitVec.add_assoc]
  · show (s.src.after _).after _ = s.src.after _
    rw [hk, (ahead_add _ _ s.src ha).2]
  · show s.pulled + _ + _ = s.pulled + _
    omega

theorem consume_lookedAt (n : Nat) (s : State) (w : WindowOk s) (hn : n ≤ 56)
    (hb : s.bitsRead.toNat + n < 2 ^ 64) : consume n (s.lookedAt n) = .done () (s.consumed n) := by
  have hf := lookedAt_fits s n w hn
  have hs := pullsFor_spec s n
  rw [consume, if_pos (show (s.lookedAt n).bitsRead.toNat + n < 2 ^ 64 from hb)]
  congr 1
  ext1 <;> try rfl
  · apply BitVec.eq_of_toNat_eq
    rw [consumed_acc s n w, BitVec.toNat_ushiftRight, State.lookedAt, delivered_acc s _ w hf, Nat.shiftRight_eq_div_pow]
  · apply BitVec.eq_of_toNat_eq
    rw [consumed_nbits s n w, BitVec.toNat_sub, State.lookedAt, delivered_nbits s _ hf, BitVec.toNat_ofNat]
    omega

theorem read_ok (n : Nat) (s : State) (w : WindowOk s) (hn : n ≤ 56) (ha : s.offers n)
    (hb : s.bitsRead.toNat + n < 2 ^ 64) :
    read n s = .done (BitVec.ofNat 64 (s.bits 0 n)) (s.consumed n) := by
  rw [read, peek_ok n s w hn ha]
  show (consume n (s.lookedAt n)).bind _ = _
  rw [consume_lookedAt n s w hn hb]; rfl

/-- The end of a read whose next pull delivers no byte. -/
def endRes {α : Type} (s : State) : Res α :=
  match s.src.pull with
  | some (.eos, x) => .raised (raise .endOfStream 0 { s with src := x })
  | some (.err e, x) => .raised (raise .sourceError e { s with src := x })
  | some (.byte _, _) => .raised s
  | none => .stuck .sourceNeverAnswers

theorem endRes_bind {α β : Type} (s : State) (k : α → State → Res β) : (endRes s : Res α).bind k = endRes s := by
  unfold endRes; split <;> rfl

/-- A source that lacks bits of `a` lacks the same bytes for more: the failing pull is the same. -/
theorem drained_of_short (s : State) (a b : Nat) (ha : ¬ s.offers a) (hab : a ≤ b) : s.drained b = s.drained a := by
  have := ahead_length_le (s.pullsFor a) s.src
  rw [State.drained, State.drained, ahead_short (s.pullsFor a) (s.pullsFor b) s.src
    (by have := fun e => ha e; simp only [State.offers] at this; omega) (pullsFor_mono s hab)]

theorem drained_succ (s : State) (b : Byte) (x : Source) (n : Nat) (w : WindowOk s) (h : s.nbits.toNat < 56)
    (hn : s.nbits.toNat < n) (hp : s.src.pull = some (.byte b, x)) :
    s.drained n = (appendByte b { s with src := x }).drained n := by
  rw [State.drained, State.drained, pullsFor_succ s b x n h hn, ahead_byte hp, List.length_cons,
    delivered_succ s b x _ w h hp]
  rfl

theorem refillLoop_short (k n : Nat) (s : State) (w : WindowOk s) (hn : n ≤ 56) (ha : ¬ s.offers n)
    (hk : s.pullsFor n ≤ k) : refillLoop k n s = endRes (s.drained n) := by
  induction k generalizing s with
  | zero => exact absurd (by rw [State.offers, Nat.le_zero.mp hk]; rfl) ha
  | succ k ih =>
    have hlt : s.nbits.toNat < n := by
      by_contra h; exact ha (offers_of_le s n (by omega))
    have h56 : s.nbits.toNat < 56 := by omega
    rw [refillLoop, if_pos hlt]
    rcases pull_cases s.src with ⟨b, x, hp⟩ | hp
    · have hs := pullsFor_succ s b x n h56 hlt
      rw [hp, drained_succ s b x n w h56 hlt hp]
      show refillLoop k n (appendByte b { s with src := x }) = _
      exact ih _ (appendByte_window b _ ⟨w.bound, w.above⟩ h56) (fun e => ha ((offers_succ s b x n h56 hlt hp).mpr e))
        (by omega)
    · rw [State.drained, ahead_stop hp, List.length_nil, delivered_zero, endRes]
      cases h : s.src.pull with
      | none => rfl
      | some p =>
        obtain ⟨a, x⟩ := p
        cases a with
        | byte b => exact absurd h (hp b x)
        | eos => rfl
        | err e => rfl

theorem refill_short (n : Nat) (s : State) (w : WindowOk s) (hn : n ≤ 56) (ha : ¬ s.offers n) :
    refill n s = endRes (s.drained n) :=
  refillLoop_short 8 n s w hn ha (by have := pullsFor_le_seven s n hn; omega)

theorem peek_short (n : Nat) (s : State) (w : WindowOk s) (hn : n ≤ 56) (ha : ¬ s.offers n) :
    peek n s = endRes (s.drained n) := by rw [peek, refill_short n s w hn ha, endRes_bind]

theorem read_short (n : Nat) (s : State) (w : WindowOk s) (hn : n ≤ 56) (ha : ¬ s.offers n) :
    read n s = endRes (s.drained n) := by rw [read, peek_short n s w hn ha, endRes_bind]

theorem read_overflow (n : Nat) (s : State) (w : WindowOk s) (hn : n ≤ 56) (ha : s.offers n)
    (hb : 2 ^ 64 ≤ s.bitsRead.toNat + n) : read n s = .refused .bitsReadOverflow := by
  rw [read, peek_ok n s w hn ha]
  show (consume n (s.lookedAt n)).bind _ = _
  rw [consume, if_neg (by show ¬ s.bitsRead.toNat + n < 2 ^ 64; omega)]; rfl

theorem answer_endRes (s : State) : answer (endRes s) = s.pullEnds := by
  unfold endRes State.pullEnds; rcases s.src.pull with _ | ⟨_ | _ | _, _⟩ <;> rfl

theorem yieldUnit_endRes (s : State) : yieldUnit (endRes s) = s.pullEnds := by
  unfold endRes State.pullEnds; rcases s.src.pull with _ | ⟨_ | _ | _, _⟩ <;> rfl

theorem yieldValue_endRes (s : State) : yieldValue (endRes s) = ({ s with value := none } : State).pullEnds := by
  unfold endRes State.pullEnds
  show yieldValue _ = (match s.src.pull with | some (.eos, _) => _ | some (.err _, _) => _ | some (.byte _, _) => _ | none => _)
  rcases s.src.pull with _ | ⟨_ | _ | _, _⟩ <;> rfl

end Sys2Proof.Machine
end

