-- ==== Sys2Proof/Laws/Codecs.lean ====
section
/-! SUPPORT. What each codec procedure ends in: the value of the wire format and the bits it takes, the end of the
source, or an overflowing count (R85 to R91, R108). -/

namespace Sys2Proof.Machine

/-- `read(n)` answers the next `n` bits, meets the end of the source, or overflows the count. -/
theorem read_cases (n : Nat) (s : State) (w : WindowOk s) (hn : n ≤ 56) :
    (s.offers n ∧ s.bitsRead.toNat + n < 2 ^ 64 ∧ read n s = .done (BitVec.ofNat 64 (s.bits 0 n)) (s.consumed n)) ∨
    (¬ s.offers n ∧ read n s = endRes (s.drained n)) ∨
    (s.offers n ∧ 2 ^ 64 ≤ s.bitsRead.toNat + n ∧ read n s = .refused .bitsReadOverflow) := by
  by_cases h : s.offers n
  · by_cases hb : s.bitsRead.toNat + n < 2 ^ 64
    · exact .inl ⟨h, hb, read_ok n s w hn h hb⟩
    · exact .inr (.inr ⟨h, by omega, read_overflow n s w hn h (by omega)⟩)
  · exact .inr (.inl ⟨h, read_short n s w hn h⟩)

theorem consumed_zero (s : State) : s.consumed 0 = s := by
  have : s.pullsFor 0 = 0 := pullsFor_of_le s 0 (by omega)
  unfold State.consumed
  rw [this, window_zero]
  simp [Source.after]

theorem bits_lt (s : State) (p n : Nat) : s.bits p n < 2 ^ n := Nat.mod_lt _ (by positivity)

/-- A codec's value is the low 32 bits of what `read` returns (R87). -/
theorem valueOf_ofNat (x : Nat) : valueOf (BitVec.ofNat 64 x) = BitVec.ofNat 32 x := by
  apply BitVec.eq_of_toNat_eq
  simp [valueOf]

theorem consumed_bitsRead (s : State) (n : Nat) (h : s.bitsRead.toNat + n < 2 ^ 64) :
    (s.consumed n).bitsRead.toNat = s.bitsRead.toNat + n := by
  simp [State.consumed, BitVec.toNat_add]; omega

/-- The three ends of `decode_fixed` (R87). -/
theorem decodeFixed_cases (w : BitVec 6) (s : State) (wn : WindowOk s) (h1 : 1 ≤ w.toNat) (h2 : w.toNat ≤ 32) :
    (s.offers w.toNat ∧ s.bitsRead.toNat + w.toNat < 2 ^ 64 ∧
      decodeFixed w s = .done (BitVec.ofNat 32 (s.bits 0 w.toNat)) (s.consumed w.toNat)) ∨
    (¬ s.offers w.toNat ∧ decodeFixed w s = endRes (s.drained w.toNat)) ∨
    (s.offers w.toNat ∧ 2 ^ 64 ≤ s.bitsRead.toNat + w.toNat ∧ decodeFixed w s = .refused .bitsReadOverflow) := by
  have hw : widthOk w = true := by simp only [widthOk, Bool.and_eq_true, decide_eq_true_eq]; exact ⟨h1, h2⟩
  rw [decodeFixed, if_pos hw, countOf]
  rcases read_cases w.toNat s wn (by omega) with ⟨a, b, h⟩ | ⟨a, h⟩ | ⟨a, b, h⟩ <;> rw [h]
  · refine .inl ⟨a, b, ?_⟩
    show Res.done (valueOf _) _ = _
    rw [valueOf_ofNat]
  · exact .inr (.inl ⟨a, endRes_bind _ _⟩)
  · exact .inr (.inr ⟨a, b, rfl⟩)

/-- The three ends of `decode_offset` (R88). -/
theorem decodeOffset_cases (w : BitVec 6) (o : Word32) (s : State) (wn : WindowOk s) (h1 : 1 ≤ w.toNat)
    (h2 : w.toNat ≤ 32) (ho : o.toNat + 2 ^ w.toNat - 1 < 2 ^ 32) :
    (s.offers w.toNat ∧ s.bitsRead.toNat + w.toNat < 2 ^ 64 ∧
      decodeOffset w o s = .done (BitVec.ofNat 32 (s.bits 0 w.toNat + o.toNat)) (s.consumed w.toNat)) ∨
    (¬ s.offers w.toNat ∧ decodeOffset w o s = endRes (s.drained w.toNat)) ∨
    (s.offers w.toNat ∧ 2 ^ 64 ≤ s.bitsRead.toNat + w.toNat ∧
      decodeOffset w o s = .refused .bitsReadOverflow) := by
  have hw : (widthOk w && offsetOk w o) = true := by
    simp only [widthOk, offsetOk, Bool.and_eq_true, decide_eq_true_eq]; exact ⟨⟨h1, h2⟩, ho⟩
  rw [decodeOffset, if_pos hw, countOf]
  rcases read_cases w.toNat s wn (by omega) with ⟨a, b, h⟩ | ⟨a, h⟩ | ⟨a, b, h⟩ <;> rw [h]
  · refine .inl ⟨a, b, ?_⟩
    show Res.done (valueOf _ + o) _ = _
    rw [valueOf_ofNat, BitVec.ofNat_add, BitVec.ofNat_toNat, BitVec.setWidth_eq]
  · exact .inr (.inl ⟨a, endRes_bind _ _⟩)
  · exact .inr (.inr ⟨a, b, rfl⟩)

/-- The entries of `CT` (R108). -/
theorem codecAt_tables : codecAt tables 0 = some (.fixed 1) ∧ codecAt tables 1 = some (.fixed 5) ∧
    codecAt tables 2 = some (.offset 9 1) ∧ codecAt tables 3 = some (.offset 13 1) ∧
    codecAt tables 4 = some (.offset 18 1) ∧ codecAt tables 5 = some (.offset 30 1) ∧
    codecAt tables 6 = some (.psel 2 3 4 5) ∧ codecAt tables 7 = some (.fixed 3) ∧
    codecAt tables 8 = some (.fixed 16) ∧ codecAt tables 9 = some (.const 0) := by decide

/-- An arm of `CT` that is no PSEL, decoded at `s`. -/
theorem decodeArm_cases (a : BitVec 6) (s : State) (wn : WindowOk s) (ha : a.toNat < 10) (h6 : a.toNat ≠ 6) :
    (s.offers (s.wireCodec 0 a.toNat).2 ∧ s.bitsRead.toNat + (s.wireCodec 0 a.toNat).2 < 2 ^ 64 ∧
      decodeArm tables a s = .done (BitVec.ofNat 32 (s.wireCodec 0 a.toNat).1) (s.consumed (s.wireCodec 0 a.toNat).2)) ∨
    (¬ s.offers (s.wireCodec 0 a.toNat).2 ∧ decodeArm tables a s = endRes (s.drained (s.wireCodec 0 a.toNat).2)) ∨
    (2 ^ 64 ≤ s.bitsRead.toNat + (s.wireCodec 0 a.toNat).2 ∧
      decodeArm tables a s = .refused .bitsReadOverflow) := by
  obtain ⟨c0, c1, c2, c3, c4, c5, c6, c7, c8, c9⟩ := codecAt_tables
  have hb := s.bitsRead.isLt
  have fx : ∀ (k : BitVec 6), 1 ≤ k.toNat → k.toNat ≤ 32 → _ := fun k h1 h2 => decodeFixed_cases k s wn h1 h2
  have ox : ∀ (k : BitVec 6), 1 ≤ k.toNat → k.toNat ≤ 30 → _ :=
    fun k h1 h2 => decodeOffset_cases k 1 s wn h1 (by omega) (by
      have : (2:Nat) ^ k.toNat ≤ 2 ^ 30 := Nat.pow_le_pow_right (by omega) h2
      show 1 + _ - 1 < _; omega)
  obtain ⟨k, hk⟩ : ∃ k, k = a.toNat := ⟨_, rfl⟩
  rw [← hk] at ha h6 ⊢
  unfold decodeArm
  rw [← hk]
  have f3 : ∀ {A B C : Prop}, (A ∧ B ∧ C) → (B ∧ C) := fun h => h.2
  interval_cases k
  · rw [c0]; exact (fx 1 (by decide) (by decide)).imp id (Or.imp id f3)
  · rw [c1]; exact (fx 5 (by decide) (by decide)).imp id (Or.imp id f3)
  · rw [c2]; exact (ox 9 (by decide) (by decide)).imp id (Or.imp id f3)
  · rw [c3]; exact (ox 13 (by decide) (by decide)).imp id (Or.imp id f3)
  · rw [c4]; exact (ox 18 (by decide) (by decide)).imp id (Or.imp id f3)
  · rw [c5]; exact (ox 30 (by decide) (by decide)).imp id (Or.imp id f3)
  · omega
  · rw [c7]; exact (fx 3 (by decide) (by decide)).imp id (Or.imp id f3)
  · rw [c8]; exact (fx 16 (by decide) (by decide)).imp id (Or.imp id f3)
  · rw [c9]; exact .inl ⟨offers_of_le s 0 (Nat.zero_le _), hb, by show _ = Res.done _ (s.consumed 0); rw [consumed_zero]; rfl⟩

/-- After `p` bits are consumed a codec reads what lay at `p`. -/
theorem consumed_wireCodec (s : State) (p q k : Nat) (w : WindowOk s) (hp : s.offers p) :
    (s.consumed p).wireCodec q k = s.wireCodec (p + q) k := by
  unfold State.wireCodec
  simp only [consumed_bits s p _ _ w hp, Nat.add_assoc]

/-- The entries a PSEL may name: all of `CT` but entry 6 (R66 (d)). -/
theorem armOk_tables (a : BitVec 6) : armOk tables a = true ↔ a.toNat < 10 ∧ a.toNat ≠ 6 := by
  revert a; decide

/-- The ends of `decode_psel`: a failing payload leaves the selector consumed (R89, R91). -/
theorem decodePsel_cases (a0 a1 a2 a3 a : BitVec 6) (s : State) (wn : WindowOk s)
    (hw : (Instr.psel a0 a1 a2 a3).wf tables 0 = true) (hpick : a = [a0, a1, a2, a3].getD (s.bits 0 2) a3) :
    (s.offers (2 + (s.wireCodec 2 a.toNat).2) ∧ s.bitsRead.toNat + (2 + (s.wireCodec 2 a.toNat).2) < 2 ^ 64 ∧
      decodePsel tables a0 a1 a2 a3 s =
        .done (BitVec.ofNat 32 (s.wireCodec 2 a.toNat).1) (s.consumed (2 + (s.wireCodec 2 a.toNat).2))) ∨
    (s.offers 2 ∧ ¬ s.offers (2 + (s.wireCodec 2 a.toNat).2) ∧ s.bitsRead.toNat + 2 < 2 ^ 64 ∧
      decodePsel tables a0 a1 a2 a3 s = endRes ((s.consumed 2).drained (s.wireCodec 2 a.toNat).2)) ∨
    (¬ s.offers 2 ∧ decodePsel tables a0 a1 a2 a3 s = endRes (s.drained 2)) ∨
    (2 ^ 64 ≤ s.bitsRead.toNat + (2 + (s.wireCodec 2 a.toNat).2) ∧
      decodePsel tables a0 a1 a2 a3 s = .refused .bitsReadOverflow) := by
  have hw' := hw
  simp only [Instr.wf, Bool.and_eq_true] at hw'
  obtain ⟨⟨⟨w0, w1⟩, w2⟩, w3⟩ := hw'
  rw [armOk_tables] at w0 w1 w2 w3
  have hsel := bits_lt s 0 2
  have hpk : pickArm a0 a1 a2 a3 (BitVec.ofNat 64 (s.bits 0 2)) = a := by
    subst hpick
    generalize s.bits 0 2 = x at *
    interval_cases x <;> rfl
  have ha : a.toNat < 10 ∧ a.toNat ≠ 6 := by
    subst hpick
    generalize s.bits 0 2 = x at *
    interval_cases x <;> assumption
  have hw2 : (armOk tables a0 && armOk tables a1 && armOk tables a2 && armOk tables a3) = true := hw
  rw [decodePsel, if_pos hw2]
  rcases read_cases 2 s wn (by omega) with ⟨h2, b, h⟩ | ⟨h2, h⟩ | ⟨h2, b, h⟩ <;> rw [Config.selW, h]
  · have hc := decodeArm_cases a (s.consumed 2) (consumed_window s 2 wn) ha.1 ha.2
    have e1 : (s.consumed 2).wireCodec 0 a.toNat = s.wireCodec 2 a.toNat := consumed_wireCodec s 2 0 _ wn h2
    rw [e1, consumed_offers s 2 _ wn h2, consumed_bitsRead s 2 b, consumed_consumed s 2 _ wn h2] at hc
    simp only [Res.bind, hpk]
    rcases hc with ⟨x, y, z⟩ | ⟨x, z⟩ | ⟨x, z⟩
    · exact .inl ⟨x, by omega, z⟩
    · exact .inr (.inl ⟨h2, x, b, z⟩)
    · exact .inr (.inr (.inr ⟨by omega, z⟩))
  · exact .inr (.inr (.inl ⟨h2, endRes_bind _ _⟩))
  · exact .inr (.inr (.inr ⟨by omega, rfl⟩))

/-- `decode(k)` for an entry of `CT`: the value of the wire format, or the end of the source after the `m` bits it
consumed (the selector of a PSEL that fails in its payload, R91), or an overflowing count. -/
theorem decodeCodec_cases (k : BitVec 6) (s : State) (wn : WindowOk s) (hk : k.toNat < 10) :
    (s.offers (s.wireCodec 0 k.toNat).2 ∧ s.bitsRead.toNat + (s.wireCodec 0 k.toNat).2 < 2 ^ 64 ∧
      decodeCodec tables k s = .done (BitVec.ofNat 32 (s.wireCodec 0 k.toNat).1) (s.consumed (s.wireCodec 0 k.toNat).2)) ∨
    (¬ s.offers (s.wireCodec 0 k.toNat).2 ∧ ∃ m, m = (if k.toNat = 6 ∧ s.offers 2 then 2 else 0) ∧
      s.bitsRead.toNat + m < 2 ^ 64 ∧
      decodeCodec tables k s = endRes ((s.consumed m).drained ((s.wireCodec 0 k.toNat).2 - m))) ∨
    (2 ^ 64 ≤ s.bitsRead.toNat + (s.wireCodec 0 k.toNat).2 ∧
      decodeCodec tables k s = .refused .bitsReadOverflow) := by
  have hb := s.bitsRead.isLt
  by_cases h6 : k.toNat = 6
  · have hd : decodeCodec tables k s = decodePsel tables 2 3 4 5 s := by
      unfold decodeCodec; rw [h6, codecAt_tables.2.2.2.2.2.2.1]
    rw [hd, h6]
    have hsel := bits_lt s 0 2
    have hc := decodePsel_cases 2 3 4 5 _ s wn (by decide) rfl
    have e : ∀ x : Nat, x < 4 → (s.wireCodec 2 ([2, 3, 4, 5].getD x (5 : BitVec 6)).toNat)
        = (s.bits 2 (armBits x) + 1, armBits x) := by
      intro x hx; interval_cases x <;> rfl
    rw [e _ hsel] at hc
    have hw6 : s.wireCodec 0 6 = (s.bits 2 (armBits (s.bits 0 2)) + 1, 2 + armBits (s.bits 0 2)) := rfl
    rw [hw6]
    rcases hc with h | ⟨a, b, c, d⟩ | ⟨a, b⟩ | ⟨a, b⟩
    · exact .inl h
    · exact .inr (.inl ⟨b, 2, by rw [if_pos ⟨rfl, a⟩], c, by rw [d]; simp only [Nat.add_sub_cancel_left]⟩)
    · refine .inr (.inl ⟨fun h => a (offers_mono h (by simp)), 0, by rw [if_neg (fun h => a h.2)], by omega, ?_⟩)
      rw [consumed_zero, b, ← drained_of_short s 2 _ a (show 2 ≤ 2 + armBits (s.bits 0 2) - 0 by omega)]
    · exact .inr (.inr ⟨a, b⟩)
  · have hd : decodeCodec tables k s = decodeArm tables k s := by
      obtain ⟨c0, c1, c2, c3, c4, c5, c6, c7, c8, c9⟩ := codecAt_tables
      unfold decodeCodec decodeArm
      obtain ⟨x, hx⟩ : ∃ x, x = k.toNat := ⟨_, rfl⟩
      rw [← hx] at hk h6 ⊢
      interval_cases x <;> first | omega | simp only [c0, c1, c2, c3, c4, c5, c7, c8, c9]
    rw [hd]
    rcases decodeArm_cases k s wn hk h6 with h | ⟨a, b⟩ | h
    · exact .inl h
    · exact .inr (.inl ⟨a, 0, by simp [h6], by omega, by rw [consumed_zero]; exact b⟩)
    · exact .inr (.inr h)

end Sys2Proof.Machine
end

