-- ==== Sys2Proof/Laws/Decode.lean ====
section
/-! SUPPORT. The fields of what the encoder packs, and packing the fields of an object again (R54, R60, R63). -/

namespace Sys2Proof

/-- The three fields of a packed command word. -/
@[simp] theorem packCommand_fields (op : BitVec 4) (a : BitVec 6) :
    cmdOp (packCommand op a) = op ∧ cmdRsv (packCommand op a) = 0 ∧ cmdArg (packCommand op a) = a := by
  refine ⟨?_, ?_, ?_⟩
  all_goals
    simp only [cmdOp, cmdRsv, cmdArg, packCommand]
    repeat rw [BitVec.extractLsb'_append_eq_of_le (by omega)]
    try rw [BitVec.extractLsb'_append_eq_of_add_le (by omega)]
    simp

/-- The fields of a packed codec descriptor. -/
@[simp] theorem packCdesc_fields (k : BitVec 2) (w a0 a1 a2 a3 : BitVec 6) (m : Word32) :
    cdKind (packCdesc k w a0 a1 a2 a3 m) = k ∧ cdW (packCdesc k w a0 a1 a2 a3 m) = w ∧
    cdA0 (packCdesc k w a0 a1 a2 a3 m) = a0 ∧ cdA1 (packCdesc k w a0 a1 a2 a3 m) = a1 ∧
    cdA2 (packCdesc k w a0 a1 a2 a3 m) = a2 ∧ cdA3 (packCdesc k w a0 a1 a2 a3 m) = a3 ∧
    cdImm (packCdesc k w a0 a1 a2 a3 m) = m := by
  refine ⟨?_, ?_, ?_, ?_, ?_, ?_, ?_⟩
  all_goals
    simp only [cdKind, cdW, cdA0, cdA1, cdA2, cdA3, cdImm, packCdesc]
    repeat rw [BitVec.extractLsb'_append_eq_of_le (by omega)]
    try rw [BitVec.extractLsb'_append_eq_of_add_le (by omega)]
    simp

/-- The four arms of a codec descriptor lie together in bits 31:8. -/
theorem cdArms_eq (d : Word64) : cdArms d = cdA3 d ++ cdA2 d ++ cdA1 d ++ cdA0 d := by
  simp only [cdArms, cdA0, cdA1, cdA2, cdA3]
  rw [BitVec.extractLsb'_append_extractLsb'_eq_extractLsb' (by rfl),
    BitVec.extractLsb'_append_extractLsb'_eq_extractLsb' (by rfl),
    BitVec.extractLsb'_append_extractLsb'_eq_extractLsb' (by rfl)]

/-- A command word is its three fields. -/
theorem command_eq_fields (w : Word16) : cmdOp w ++ cmdRsv w ++ cmdArg w = w := by
  simp only [cmdOp, cmdRsv, cmdArg]
  rw [BitVec.extractLsb'_append_extractLsb'_eq_extractLsb' (by rfl),
    BitVec.extractLsb'_append_extractLsb'_eq_extractLsb' (by rfl)]
  simp

/-- A codec descriptor is its fields packed. -/
theorem packCdesc_of_fields (d : Word64) :
    packCdesc (cdKind d) (cdW d) (cdA0 d) (cdA1 d) (cdA2 d) (cdA3 d) (cdImm d) = d := by
  simp only [cdKind, cdW, cdA0, cdA1, cdA2, cdA3, cdImm, packCdesc]
  iterate 6 rw [BitVec.extractLsb'_append_extractLsb'_eq_extractLsb' (by rfl)]
  simp

/-- The 13 bits of a term, read back. -/
theorem packTerm_fields (t : Term) :
    (packTerm t).getLsbD 0 = t.en ∧ (packTerm t).extractLsb' 1 3 = t.slot ∧ (packTerm t).getLsbD 4 = t.ne ∧
    (packTerm t).extractLsb' 5 8 = t.k := by
  refine ⟨?_, ?_, ?_, ?_⟩ <;> simp only [packTerm]
  · rw [BitVec.getLsbD_append]; simp
  · rw [BitVec.extractLsb'_append_eq_of_le (by omega), BitVec.extractLsb'_append_eq_of_add_le (by omega)]
    simp
  · rw [BitVec.getLsbD_append, BitVec.getLsbD_append, BitVec.getLsbD_append]; simp
  · iterate 3 rw [BitVec.extractLsb'_append_eq_of_le (by omega)]
    simp

/-- Packing the term at `p` gives the 13 bits there. -/
theorem packTerm_fdTerm (p : Nat) (d : Word64) : packTerm (fdTerm p d) = d.extractLsb' p 13 := by
  have h : ∀ q, BitVec.ofBool (d.getLsbD q) = d.extractLsb' q 1 := by
    intro q; ext i hi; obtain rfl : i = 0 := by omega
    simp
  simp only [packTerm, fdTerm, h]
  iterate 3 rw [BitVec.extractLsb'_append_extractLsb'_eq_extractLsb' (by omega)]

/-- A term whose 13 bits lie at `p` is the term read at `p`. -/
theorem fdTerm_of_bits (p : Nat) (d : Word64) (t : Term) (h : d.extractLsb' p 13 = packTerm t) : fdTerm p d = t := by
  obtain ⟨h1, h2, h3, h4⟩ := packTerm_fields t
  rw [← h] at h1 h2 h3 h4
  cases t
  simp only [fdTerm, Term.mk.injEq]
  refine ⟨?_, ?_, ?_, ?_⟩
  · simpa using h1
  · refine Eq.trans ?_ h2; ext i hi; simp [Nat.add_assoc]; intros; omega
  · simpa using h3
  · refine Eq.trans ?_ h4; ext i hi; simp [Nat.add_assoc]; intros; omega

/-- The fields of a packed field descriptor. -/
@[simp] theorem packFdesc_fields (c : BitVec 6) (t0 t1 : Term) (m : Word32) :
    (packFdesc c t0 t1 m).extractLsb' 0 6 = c ∧ fdTerm 6 (packFdesc c t0 t1 m) = t0 ∧
    fdTerm 19 (packFdesc c t0 t1 m) = t1 ∧ (packFdesc c t0 t1 m).extractLsb' 32 32 = m := by
  refine ⟨?_, fdTerm_of_bits _ _ _ ?_, fdTerm_of_bits _ _ _ ?_, ?_⟩
  all_goals
    simp only [packFdesc]
    repeat rw [BitVec.extractLsb'_append_eq_of_le (by omega)]
    try rw [BitVec.extractLsb'_append_eq_of_add_le (by omega)]
    simp

/-- A field descriptor is its fields packed. -/
theorem packFdesc_of_fields (d : Word64) :
    packFdesc (d.extractLsb' 0 6) (fdTerm 6 d) (fdTerm 19 d) (d.extractLsb' 32 32) = d := by
  simp only [packFdesc, packTerm_fdTerm]
  iterate 3 rw [BitVec.extractLsb'_append_extractLsb'_eq_extractLsb' (by rfl)]
  simp

end Sys2Proof
end

