-- ==== Sys2Proof/Laws/Effects.lean ====
section
/-! SUPPORT. What each procedure leaves alone: reading touches the window, the count and the source position only; a field
step and a record, the slots, `FIDX` and the header record besides; and which faults each can raise. -/

namespace Sys2Proof.Machine

/-- `t` stands `k` pulls behind `s`, each of which delivered a byte. -/
structure PulledBytes (s t : State) (k : Nat) : Prop where
  delivered : (s.src.ahead k).length = k
  src : t.src = s.src.after k
  pulled : t.pulled = s.pulled + k

/-- `t` is `s` after some reading: only the window, the count and the source position differ. -/
structure Reads (s t : State) : Prop where
  own : t.own = s.own
  fault : t.fault = s.fault
  errinfo : t.errinfo = s.errinfo
  slots : t.slots = s.slots
  fidx : t.fidx = s.fidx
  hdr : t.hdr = s.hdr
  host : t.host = s.host
  resp : t.resp = s.resp
  fetch : t.fetch = s.fetch
  value : t.value = s.value
  moved : ∃ k, PulledBytes s t k
  count : s.bitsRead.toNat ≤ t.bitsRead.toNat

/-- The faults a pull can raise, with the answer of the source that causes each (R121, R122). -/
def RaisesEnd (u t : State) : Prop :=
  (∃ x, u.src.pull = some (.eos, x) ∧ t = raise .endOfStream 0 { u with src := x }) ∨
  ∃ e x, u.src.pull = some (.err e, x) ∧ t = raise .sourceError e { u with src := x }

/-- No pull. -/
theorem PulledBytes.refl (s : State) : PulledBytes s s 0 := ⟨rfl, rfl, rfl⟩

/-- Pulls that deliver compose. -/
theorem PulledBytes.trans {s t u : State} {a b : Nat} (h : PulledBytes s t a) (k : PulledBytes t u b) :
    PulledBytes s u (a + b) := by
  obtain ⟨h0, h1, h2⟩ := h
  obtain ⟨k0, k1, k2⟩ := k
  obtain ⟨e1, e2⟩ := ahead_add a b s.src h0
  rw [h1] at k0 k1
  exact ⟨by rw [e1, List.length_append, h0, k0], by rw [k1, e2], by rw [k2, h2, Nat.add_assoc]⟩

/-- Pulls that all deliver move the source forward. -/
theorem PulledBytes.sourceMoved {s t : State} {k : Nat} (h : PulledBytes s t k) : SourceMoved s t :=
  ⟨k, h.delivered, h.pulled, .inl h.src⟩

/-- So does a last pull that raises. -/
theorem RaisesEnd.sourceMoved {s u t : State} {k : Nat} (h : PulledBytes s u k) (e : RaisesEnd u t) : SourceMoved s t := by
  obtain ⟨h0, h1, h2⟩ := h
  rcases e with ⟨x, hp, rfl⟩ | ⟨y, x, hp, rfl⟩ <;> rw [h1] at hp
  · exact ⟨k, h0, h2, .inr ⟨by simp [raise, respond, causeCode], .inl hp⟩⟩
  · exact ⟨k, h0, h2, .inr ⟨by simp [raise, respond, causeCode], .inr ⟨y, hp⟩⟩⟩

/-- Reading nothing. -/
theorem Reads.refl (s : State) : Reads s s :=
  ⟨rfl, rfl, rfl, rfl, rfl, rfl, rfl, rfl, rfl, rfl, ⟨0, PulledBytes.refl s⟩, le_refl _⟩

/-- Reading composes. -/
theorem Reads.trans {s t u : State} (h : Reads s t) (k : Reads t u) : Reads s u :=
  ⟨k.own.trans h.own, k.fault.trans h.fault, k.errinfo.trans h.errinfo, k.slots.trans h.slots,
   k.fidx.trans h.fidx, k.hdr.trans h.hdr, k.host.trans h.host, k.resp.trans h.resp, k.fetch.trans h.fetch,
   k.value.trans h.value, h.moved.elim fun _ x => k.moved.elim fun _ y => ⟨_, x.trans y⟩, h.count.trans k.count⟩

/-- A procedure that only reads: what it is done with, or raised from, `Reads` from `s`. -/
def OnlyReads {α : Type} (s : State) (p : Res α) : Prop :=
  (∀ v t, p = .done v t → Reads s t) ∧
  (∀ t, p = .raised t → ∃ u, Reads s u ∧ RaisesEnd u t)

theorem OnlyReads.done {α : Type} {s t : State} (v : α) (h : Reads s t) : OnlyReads s (.done v t) :=
  ⟨fun _ _ e => by cases e; exact h, fun _ e => by cases e⟩

theorem OnlyReads.stuck {α : Type} (s : State) (f : Fault) : OnlyReads s (.stuck f : Res α) :=
  ⟨(fun _ _ e => by cases e), (fun _ e => by cases e)⟩

theorem OnlyReads.refused {α : Type} (s : State) (r : Refusal) : OnlyReads s (.refused r : Res α) :=
  ⟨(fun _ _ e => by cases e), (fun _ e => by cases e)⟩

/-- A sequence of reading procedures only reads. -/
theorem OnlyReads.bind {α β : Type} {s : State} {p : Res α} {k : α → State → Res β} (hp : OnlyReads s p)
    (hk : ∀ v t, p = .done v t → OnlyReads t (k v t)) : OnlyReads s (p.bind k) := by
  cases p with
  | done v t =>
    have r := hp.1 v t rfl
    obtain ⟨h1, h2⟩ := hk v t rfl
    refine ⟨fun v' t' e => r.trans (h1 v' t' e), fun t' e => ?_⟩
    obtain ⟨u, hu, he⟩ := h2 t' e
    exact ⟨u, r.trans hu, he⟩
  | raised t => exact ⟨(fun _ _ e => by cases e), (fun t' e => hp.2 t' (by cases e; rfl))⟩
  | stuck f => exact OnlyReads.stuck s f
  | refused r => exact OnlyReads.refused s r

theorem refillLoop_onlyReads (k n : Nat) (s : State) : OnlyReads s (refillLoop k n s) := by
  induction k generalizing s with
  | zero => exact OnlyReads.done _ (Reads.refl s)
  | succ k ih =>
    rw [refillLoop]
    split
    · cases hp : s.src.pull with
      | none => exact OnlyReads.stuck s _
      | some q =>
        obtain ⟨a, x⟩ := q
        cases a with
        | byte b =>
          have ih := ih (appendByte b { s with src := x })
          have r : Reads s (appendByte b { s with src := x }) :=
            ⟨rfl, rfl, rfl, rfl, rfl, rfl, rfl, rfl, rfl, rfl,
              ⟨1, by rw [ahead_byte hp]; rfl, by rw [after_byte hp]; rfl, rfl⟩, le_refl _⟩
          refine ⟨fun v t e => r.trans (ih.1 v t e), fun t e => ?_⟩
          obtain ⟨u, hu, he⟩ := ih.2 t e
          exact ⟨u, r.trans hu, he⟩
        | eos => exact ⟨(fun _ _ e => by simp at e), (fun t e => ⟨s, Reads.refl s, .inl ⟨x, hp, by simpa using e.symm⟩⟩)⟩
        | err y =>
          exact ⟨(fun _ _ e => by simp at e), (fun t e => ⟨s, Reads.refl s, .inr ⟨y, x, hp, by simpa using e.symm⟩⟩)⟩
    · exact OnlyReads.done _ (Reads.refl s)

theorem refill_onlyReads (n : Nat) (s : State) : OnlyReads s (refill n s) := refillLoop_onlyReads 8 n s

theorem peek_onlyReads (n : Nat) (s : State) : OnlyReads s (peek n s) :=
  (refill_onlyReads n s).bind fun _ t _ => OnlyReads.done _ (Reads.refl t)

theorem consume_onlyReads (n : Nat) (s : State) : OnlyReads s (consume n s) := by
  unfold consume
  split
  · rename_i h
    refine OnlyReads.done _ ⟨rfl, rfl, rfl, rfl, rfl, rfl, rfl, rfl, rfl, rfl, ⟨0, rfl, rfl, rfl⟩, ?_⟩
    simp [BitVec.toNat_add]; omega
  · exact OnlyReads.refused s _

theorem read_onlyReads (n : Nat) (s : State) : OnlyReads s (read n s) :=
  (peek_onlyReads n s).bind fun _ t _ => (consume_onlyReads n t).bind fun _ u _ => OnlyReads.done _ (Reads.refl u)

theorem decodeConst_onlyReads (c : Word32) (s : State) : OnlyReads s (decodeConst c s) :=
  OnlyReads.done _ (Reads.refl s)

theorem decodeFixed_onlyReads (w : BitVec 6) (s : State) : OnlyReads s (decodeFixed w s) := by
  unfold decodeFixed
  split
  · exact (read_onlyReads _ s).bind fun _ t _ => OnlyReads.done _ (Reads.refl t)
  · exact OnlyReads.refused s _

theorem decodeOffset_onlyReads (w : BitVec 6) (o : Word32) (s : State) : OnlyReads s (decodeOffset w o s) := by
  unfold decodeOffset
  split
  · exact (read_onlyReads _ s).bind fun _ t _ => OnlyReads.done _ (Reads.refl t)
  · exact OnlyReads.refused s _

theorem decodeArm_onlyReads (T : Tables) (a : BitVec 6) (s : State) : OnlyReads s (decodeArm T a s) := by
  unfold decodeArm
  split
  · exact decodeConst_onlyReads _ s
  · exact decodeFixed_onlyReads _ s
  · exact decodeOffset_onlyReads _ _ s
  · exact OnlyReads.refused s _

theorem decodePsel_onlyReads (T : Tables) (a0 a1 a2 a3 : BitVec 6) (s : State) :
    OnlyReads s (decodePsel T a0 a1 a2 a3 s) := by
  unfold decodePsel
  split
  · exact (read_onlyReads _ s).bind fun _ t _ => decodeArm_onlyReads T _ t
  · exact OnlyReads.refused s _

theorem decodeCodec_onlyReads (T : Tables) (k : BitVec 6) (s : State) : OnlyReads s (decodeCodec T k s) := by
  unfold decodeCodec
  split
  · exact decodeConst_onlyReads _ s
  · exact decodeFixed_onlyReads _ s
  · exact decodeOffset_onlyReads _ _ s
  · exact decodePsel_onlyReads T _ _ _ _ s
  · exact OnlyReads.refused s _

theorem getSlot_same (i : BitVec 3) (s : State) (v : Word32) (t : State) (h : getSlot i s = .done v t) :
    t = s ∧ s.slots[i.toNat] = .bound v := by
  unfold getSlot at h
  split at h
  · rename_i x hx; cases h; exact ⟨rfl, hx⟩
  · cases h

theorem getSlot_not_raised (i : BitVec 3) (s t : State) : getSlot i s ≠ .raised t := by
  unfold getSlot; split <;> simp

/-- A condition term reads slots only: it neither changes the state nor raises (R96). -/
theorem term_same (x : Term) (s : State) : (∀ v t, term x s = .done v t → t = s) ∧ ∀ t, term x s ≠ .raised t := by
  unfold term getSlot
  constructor
  · intro v t h; split at h
    · cases hc : s.slots[x.slot.toNat] <;> simp [hc, Res.bind] at h; exact h.2.symm
    · simp at h; exact h.2.symm
  · intro t; split
    · cases hc : s.slots[x.slot.toNat] <;> simp [Res.bind]
    · simp

theorem present_same (t0 t1 : Term) (s : State) :
    (∀ v t, present t0 t1 s = .done v t → t = s) ∧ ∀ t, present t0 t1 s ≠ .raised t := by
  unfold present
  obtain ⟨a1, a2⟩ := term_same t0 s
  cases h0 : term t0 s with
  | done p u =>
    obtain rfl := a1 p u h0
    obtain ⟨b1, b2⟩ := term_same t1 u
    cases h1 : term t1 u with
    | done q v => obtain rfl := b1 q v h1; constructor <;> simp [Res.bind, h1]
    | raised t => exact absurd h1 (b2 t)
    | stuck f => simp [Res.bind, h1]
    | refused r => simp [Res.bind, h1]
  | raised t => exact absurd h0 (a2 t)
  | stuck f => simp [Res.bind]
  | refused r => simp [Res.bind]

/-- What a field step can do: skip or read, then bind the slot `FIDX`; or raise with nothing bound (R97). -/
theorem stepField_cases (T : Tables) (codec : BitVec 6) (t0 t1 : Term) (d : Word32) (s : State) :
    (∀ x t, stepField T codec t0 t1 d s = .done x t →
      s.fidx.toNat < T.nf ∧ ∃ v u, Reads s u ∧ t = bindField v u ∧
        ((v = d ∧ u = s) ∨ decodeCodec T codec s = .done v u)) ∧
    (∀ t, stepField T codec t0 t1 d s = .raised t → s.fidx.toNat < T.nf ∧ ∃ u, Reads s u ∧ RaisesEnd u t) := by
  unfold stepField
  split
  · rename_i hlt
    split
    · obtain ⟨p1, p2⟩ := present_same t0 t1 s
      cases hp : present t0 t1 s with
      | done b u =>
        obtain rfl := p1 b u hp
        have hd := decodeCodec_onlyReads T codec u
        cases b with
        | true =>
          cases hc : decodeCodec T codec u with
          | done v w =>
            refine ⟨fun x t e => ?_, fun t e => ?_⟩ <;> simp [Res.bind, hc] at e
            exact ⟨hlt, v, w, hd.1 v w hc, e.symm, .inr rfl⟩
          | raised w =>
            refine ⟨fun x t e => ?_, fun t e => ?_⟩ <;> simp [Res.bind, hc] at e
            subst e; exact ⟨hlt, hd.2 w hc⟩
          | stuck f => simp [Res.bind, hc]
          | refused r => simp [Res.bind, hc]
        | false =>
          refine ⟨fun x t e => ?_, fun t e => ?_⟩ <;> simp [Res.bind] at e
          exact ⟨hlt, d, u, Reads.refl u, e.symm, .inl ⟨rfl, rfl⟩⟩
      | raised t => exact absurd hp (p2 t)
      | stuck f => simp [Res.bind]
      | refused r => simp [Res.bind]
    · simp
  · simp

theorem fieldAt_field (T : Tables) (i : Nat) (x : Instr) (h : fieldAt T i = some x) :
    ∃ codec t0 t1 d, x = .field codec t0 t1 d := by
  unfold fieldAt at h
  cases hf : T.ft[i]? with
  | none => simp [hf] at h
  | some d => simp [hf, decode, decodeFdesc] at h; exact ⟨_, _, _, _, h.symm⟩

/-- A field step of a table is the step of one of its descriptors. -/
theorem fieldStep_eq (T : Tables) (s : State) : fieldStep T s = .refused .illFormedTable ∨
    ∃ codec t0 t1 d, fieldAt T s.fidx.toNat = some (.field codec t0 t1 d) ∧ fieldStep T s = stepField T codec t0 t1 d s := by
  unfold fieldStep
  cases h : fieldAt T s.fidx.toNat with
  | none => exact .inl rfl
  | some x => obtain ⟨c, t0, t1, d, rfl⟩ := fieldAt_field T _ x h; exact .inr ⟨c, t0, t1, d, rfl, rfl⟩

/-- `t` is `s` after part of a record: as `Reads`, but for the slots, `FIDX` and the header record. -/
structure RecordReads (s t : State) : Prop where
  own : t.own = s.own
  fault : t.fault = s.fault
  errinfo : t.errinfo = s.errinfo
  host : t.host = s.host
  resp : t.resp = s.resp
  fetch : t.fetch = s.fetch
  value : t.value = s.value
  moved : ∃ k, PulledBytes s t k
  count : s.bitsRead.toNat ≤ t.bitsRead.toNat

theorem Reads.record {s t : State} (h : Reads s t) : RecordReads s t :=
  ⟨h.own, h.fault, h.errinfo, h.host, h.resp, h.fetch, h.value, h.moved, h.count⟩

theorem RecordReads.trans {s t u : State} (h : RecordReads s t) (k : RecordReads t u) : RecordReads s u :=
  ⟨k.own.trans h.own, k.fault.trans h.fault, k.errinfo.trans h.errinfo, k.host.trans h.host, k.resp.trans h.resp,
   k.fetch.trans h.fetch, k.value.trans h.value, h.moved.elim fun _ x => k.moved.elim fun _ y => ⟨_, x.trans y⟩, h.count.trans k.count⟩

theorem bindField_record {s u : State} (v : Word32) (h : Reads s u) : RecordReads s (bindField v u) :=
  ⟨h.own, h.fault, h.errinfo, h.host, h.resp, h.fetch, h.value, h.moved.imp fun _ x => ⟨x.delivered, x.src, x.pulled⟩,
   h.count⟩

theorem startRecord_record (s : State) : RecordReads s (startRecord s) :=
  ⟨rfl, rfl, rfl, rfl, rfl, rfl, rfl, ⟨0, rfl, rfl, rfl⟩, le_refl _⟩

/-- One field step of a table: it binds the slot `FIDX` and steps to the next field, or raises with neither done (R97). -/
theorem fieldStep_cases (T : Tables) (s : State) :
    (∀ x t, fieldStep T s = .done x t →
      s.fidx.toNat < T.nf ∧ ∃ v u, Reads s u ∧ t = bindField v u) ∧
    (∀ t, fieldStep T s = .raised t → s.fidx.toNat < T.nf ∧ ∃ u, Reads s u ∧ RaisesEnd u t) := by
  rcases fieldStep_eq T s with h | ⟨c, t0, t1, d, -, h⟩ <;> rw [h]
  · simp
  · obtain ⟨h1, h2⟩ := stepField_cases T c t0 t1 d s
    refine ⟨fun x t e => ?_, h2⟩
    obtain ⟨hlt, v, u, hr, ht, -⟩ := h1 x t e
    exact ⟨hlt, v, u, hr, ht⟩

/-- Binding the field `FIDX` binds that slot and no other. -/
theorem bindField_bound (v : Word32) (s : State) (j : BitVec 3) :
    boundBit j (bindField v s) = (decide (j.toNat = s.fidx.toNat) || boundBit j s) := by
  unfold boundBit bindField
  by_cases e : j.toNat = s.fidx.toNat
  · simp [e]
  · have : ¬ s.fidx.toNat = j.toNat := fun x => e x.symm
    simp [e, this]

/-- What the loop over the fields has done when it ends, by completion or by a raise: it read, left the header record
alone, and bound exactly the slots from the old `FIDX` up to the new one (R99, R102). -/
structure FieldsRun (s t : State) : Prop where
  record : RecordReads s t
  hdr : t.hdr = s.hdr
  index : s.fidx.toNat ≤ t.fidx.toNat
  bound : ∀ j : BitVec 3,
    boundBit j t = (decide (s.fidx.toNat ≤ j.toNat ∧ j.toNat < t.fidx.toNat) || boundBit j s)

theorem FieldsRun.of_reads {s t : State} (h : Reads s t) : FieldsRun s t :=
  ⟨h.record, h.hdr, by rw [h.fidx], fun j => by
    have : ¬ (s.fidx.toNat ≤ j.toNat ∧ j.toNat < t.fidx.toNat) := by rw [h.fidx]; omega
    simp [this, boundBit, h.slots]⟩

theorem FieldsRun.trans {s t u : State} (h : FieldsRun s t) (k : FieldsRun t u) : FieldsRun s u :=
  ⟨h.record.trans k.record, k.hdr.trans h.hdr, h.index.trans k.index, fun j => by
    have h1 := h.index; have h2 := k.index
    rw [k.bound j, h.bound j, ← Bool.or_assoc]
    congr 1
    rw [← Bool.decide_or]
    exact decide_eq_decide.mpr (by omega)⟩

theorem FieldsRun.step {s u : State} (v : Word32) (hr : Reads s u) (h8 : s.fidx.toNat < 8) :
    FieldsRun s (bindField v u) := by
  have hf : (bindField v u).fidx.toNat = s.fidx.toNat + 1 := by
    simp [bindField, BitVec.toNat_add, hr.fidx]; omega
  refine ⟨bindField_record v hr, hr.hdr, by omega, fun j => ?_⟩
  rw [bindField_bound v u, hf, hr.fidx]
  congr 1
  · exact decide_eq_decide.mpr (by omega)
  · simp [boundBit, hr.slots]

/-- The loop over the fields of a table of at most eight: what it has done, and that it completes at `FIDX = NF` when it
had enough steps (R99). -/
theorem runFields_cases (T : Tables) (hT : T.nf ≤ 8) (k : Nat) (s : State) :
    (∀ x t, runFields T k s = .done x t →
      FieldsRun s t ∧ (s.fidx.toNat ≤ T.nf → t.fidx.toNat ≤ T.nf ∧ (T.nf ≤ s.fidx.toNat + k → t.fidx.toNat = T.nf))) ∧
    (∀ t, runFields T k s = .raised t →
      ∃ u, FieldsRun s u ∧ u.fidx.toNat < T.nf ∧ RaisesEnd u t) := by
  induction k generalizing s with
  | zero =>
    refine ⟨fun x t e => ?_, fun t e => ?_⟩ <;> cases e
    exact ⟨FieldsRun.of_reads (Reads.refl s), by omega⟩
  | succ k ih =>
    unfold runFields
    split
    · rename_i hlt
      obtain ⟨f1, f2⟩ := fieldStep_cases T s
      cases hc : fieldStep T s with
      | done x u =>
        obtain ⟨-, v, w, hr, rfl⟩ := f1 x u hc
        have hs := FieldsRun.step v hr (by omega)
        have hf : (bindField v w).fidx.toNat = s.fidx.toNat + 1 := by
          simp [bindField, BitVec.toNat_add, hr.fidx]; omega
        obtain ⟨i1, i2⟩ := ih (bindField v w)
        refine ⟨fun y t e => ?_, fun t e => ?_⟩
        · obtain ⟨a, b⟩ := i1 y t e
          exact ⟨hs.trans a, fun _ => by rw [hf] at b; obtain ⟨b1, b2⟩ := b (by omega); exact ⟨b1, fun _ => b2 (by omega)⟩⟩
        · obtain ⟨z, a, b, c⟩ := i2 t e
          exact ⟨z, hs.trans a, b, c⟩
      | raised u =>
        obtain ⟨-, w, hr, he⟩ := f2 u hc
        refine ⟨fun y t e => ?_, fun t e => ?_⟩ <;> cases e
        exact ⟨w, FieldsRun.of_reads hr, by rw [hr.fidx]; exact hlt, he⟩
      | stuck f => simp [Res.bind]
      | refused r => simp [Res.bind]
    · refine ⟨fun x t e => ?_, fun t e => ?_⟩ <;> cases e
      exact ⟨FieldsRun.of_reads (Reads.refl s), by omega⟩

/-- `assemble()` reads slots and a table only: it neither changes the state nor raises (R111, R113). -/
theorem assemble_same (T : Tables) (s : State) :
    (∀ v t, assemble T s = .done v t → t = s) ∧ ∀ t, assemble T s ≠ .raised t := by
  have hh : ∀ (x : Word32) (u : State), (∀ v t, assembleHeight x u = .done v t → t = u) ∧
      ∀ t, assembleHeight x u ≠ .raised t := by
    intro x u
    unfold assembleHeight getSlot
    constructor
    · intro v t h
      split at h <;> split at h <;> simp [Res.bind] at h <;> exact h.2.symm
    · intro t; split <;> split <;> simp [Res.bind]
  have hw : ∀ (x r : Word32) (h : Nat) (u : State), (∀ v t, assembleWidth T x r h u = .done v t → t = u) ∧
      ∀ t, assembleWidth T x r h u ≠ .raised t := by
    intro x r h u
    unfold assembleWidth getSlot
    constructor
    · intro v t e
      split at e
      · split at e
        · split at e
          · cases e
          · simp at e; exact e.2.symm
        · cases e
      · split at e <;> split at e <;> simp [Res.bind] at e <;> exact e.2.symm
    · intro t
      split
      · split
        · split <;> simp
        · simp
      · split <;> split <;> simp [Res.bind]
  unfold assemble
  cases h0 : getSlot 0 s with
  | done a t0 =>
    obtain rfl := (getSlot_same 0 s a t0 h0).1
    cases h3 : getSlot 3 t0 with
    | done b t3 =>
      obtain rfl := (getSlot_same 3 t0 b t3 h3).1
      cases hH : assembleHeight a t3 with
      | done h th =>
        obtain rfl := (hh a t3).1 h th hH
        cases hW : assembleWidth T a b h th with
        | done w tw =>
          obtain rfl := (hw a b h th).1 w tw hW
          simp only [Res.bind, h3, hH, hW]
          split
          · exact ⟨fun v t e => by simp at e; exact e.2.symm, by simp⟩
          · simp
        | raised t => exact absurd hW ((hw a b h th).2 t)
        | stuck f => simp only [Res.bind, h3, hH, hW]; simp
        | refused r => simp only [Res.bind, h3, hH, hW]; simp
      | raised t => exact absurd hH ((hh a t3).2 t)
      | stuck f => simp only [Res.bind, h3, hH]; simp
      | refused r => simp only [Res.bind, h3, hH]; simp
    | raised t => exact absurd h3 (getSlot_not_raised 3 t0 t)
    | stuck f => simp only [Res.bind, h3]; simp
    | refused r => simp only [Res.bind, h3]; simp
  | raised t => exact absurd h0 (getSlot_not_raised 0 s t)
  | stuck f => simp [Res.bind]
  | refused r => simp [Res.bind]

/-- What `run_schema()` can do: a record completes with every field bound and the header set; or a field raises with the
header still invalid and the slots below the failing field bound (R99, R102). -/
theorem runSchema_cases (T : Tables) (s : State) :
    (∀ v t, runSchema T s = .done v t → ∃ w h u, FieldsRun (startRecord s) u ∧ u.fidx.toNat = T.nf ∧
      t = { u with hdr := .valid w h } ∧ v = packDims w h) ∧
    (∀ t, runSchema T s = .raised t →
      ∃ u, FieldsRun (startRecord s) u ∧ u.fidx.toNat < T.nf ∧ RaisesEnd u t) := by
  unfold runSchema
  split
  · rename_i hc
    have hn : T.nf ≤ 8 := by
      simp only [fieldCountOk, Config.nS, Bool.and_eq_true] at hc; exact of_decide_eq_true hc.2
    obtain ⟨r1, r2⟩ := runFields_cases T hn T.nf (startRecord s)
    cases hr : runFields T T.nf (startRecord s) with
    | done x u =>
      obtain ⟨hf, hi⟩ := r1 x u hr
      obtain ⟨a1, a2⟩ := assemble_same T u
      cases ha : assemble T u with
      | done wh y =>
        obtain rfl := a1 wh y ha
        simp only [Res.bind, ha]
        refine ⟨fun v t e => ?_, by simp⟩
        simp at e
        exact ⟨wh.1, wh.2, y, hf, (hi (by simp [startRecord])).2 (by simp [startRecord]), e.2.symm, e.1.symm⟩
      | raised t => exact absurd ha (a2 t)
      | stuck f => simp [Res.bind, ha]
      | refused r => simp [Res.bind, ha]
    | raised u =>
      refine ⟨by simp [Res.bind], fun t e => ?_⟩
      simp [Res.bind] at e
      subst e
      exact r2 u hr
    | stuck f => simp [Res.bind]
    | refused r => simp [Res.bind]
  · simp

/-- What `read_header()` can do (R115 to R120): the signature matches and the record completes, then the source is
given up; or it does not and the source is given up before BAD_SIGNATURE; or the source ends in the signature or in the
record, and the source is not given up. -/
theorem readHeader_cases (T : Tables) (s : State) :
    (∀ v t, readHeader T s = .done v t → ∃ a u, read Config.sigW s = .done Config.sig a ∧ Reads s a ∧
      runSchema T a = .done v u ∧ t = release u) ∧
    (∀ t, readHeader T s = .raised t →
      (∃ x a, read Config.sigW s = .done x a ∧ x ≠ Config.sig ∧ Reads s a ∧ t = raise .badSignature 0 (release a)) ∨
      (∃ u, Reads s u ∧ RaisesEnd u t) ∨
      (∃ a, read Config.sigW s = .done Config.sig a ∧ Reads s a ∧ runSchema T a = .raised t)) := by
  unfold readHeader
  have ho := read_onlyReads Config.sigW s
  cases hr : read Config.sigW s with
  | done x a =>
    have ha := ho.1 x a hr
    by_cases hx : x = Config.sig
    · subst hx
      simp only [Res.bind, if_true]
      cases hs : runSchema T a with
      | done v u =>
        refine ⟨fun v' t e => ?_, by simp⟩
        simp at e
        obtain ⟨rfl, rfl⟩ := e
        exact ⟨a, u, rfl, ha, hs, rfl⟩
      | raised u =>
        refine ⟨by simp, fun t e => ?_⟩
        simp at e
        subst e
        exact .inr (.inr ⟨a, rfl, ha, hs⟩)
      | stuck f => simp
      | refused r => simp
    · simp only [Res.bind, if_neg hx]
      refine ⟨by simp, fun t e => ?_⟩
      simp at e
      exact .inl ⟨x, a, rfl, hx, ha, e.symm⟩
  | raised u =>
    refine ⟨by simp [Res.bind], fun t e => ?_⟩
    simp [Res.bind] at e
    subst e
    exact .inr (.inl (ho.2 u hr))
  | stuck f => simp [Res.bind]
  | refused r => simp [Res.bind]

end Sys2Proof.Machine
end

