-- ==== Sys2Proof/Laws/Gate.lean ====
section
/-! SUPPORT. What the command gate does in each phase (R77). -/

namespace Sys2Proof.Machine

theorem gated_active (legal : Bool) (body : State → Out) (s : State) (h : isActive s) (hl : legal = true) :
    gated legal body s = body s := by
  rw [gated, if_neg (by simp [h.1]), if_neg (by simp [hl]), if_neg (by simp [h.2])]

theorem gated_faulted (legal : Bool) (body : State → Out) (s : State) (h : s.fault ≠ 0) :
    gated legal body s = .next { s with resp := some (.err s.fault s.errinfo) } := by
  rw [gated, if_pos h]; rfl

theorem gated_stopped (legal : Bool) (body : State → Out) (s : State) (h : s.fault = 0)
    (h2 : legal = false ∨ s.own = false) : gated legal body s = .next (s.faultedWith 4 0) := by
  rw [gated, if_neg (by simp [h])]
  split
  · rfl
  · rw [if_pos (by simp_all)]; rfl
end Sys2Proof.Machine
end

