-- ==== Sys2Proof/Laws/Record.lean ====
section
/-! SUPPORT. The sequencer on the tables of R108 and R109: a field step with its condition decided, and where in the
stream a record stands between two of its fields (R97, R98, R45). -/

namespace Sys2Proof.Machine

/-- `s` inside a record: `p` of its stream bits are consumed, the slots and `FIDX` are as given, no header is valid. -/
def State.inRecord (s : State) (p : Nat) (sl : Vector SlotCell 8) (f : BitVec 4) : State :=
  { s.consumed p with slots := sl, fidx := f, hdr := .invalid }

/-- A record starts with nothing consumed, nothing bound, `FIDX = 0` (R99). -/
theorem startRecord_inRecord (s : State) :
    startRecord s = s.inRecord 0 (Vector.replicate 8 .unbound) 0 := by
  rw [State.inRecord, consumed_zero]; rfl

/-- Binding inside a record. -/
theorem bindField_inRecord (s : State) (p : Nat) (sl : Vector SlotCell 8) (f : BitVec 4) (v : Word32) :
    bindField v (s.inRecord p sl f) = s.inRecord p (sl.setIfInBounds f.toNat (.bound v)) (f + 1) := rfl

/-- The window inside a record. -/
theorem inRecord_window (s : State) (p : Nat) (sl : Vector SlotCell 8) (f : BitVec 4) (w : WindowOk s) :
    WindowOk (s.inRecord p sl f) := ⟨(consumed_window s p w).bound, (consumed_window s p w).above⟩

/-- Consuming inside a record moves the position. -/
theorem inRecord_consumed (s : State) (p n : Nat) (sl : Vector SlotCell 8) (f : BitVec 4) (w : WindowOk s)
    (hp : s.offers p) : (s.inRecord p sl f).consumed n = s.inRecord (p + n) sl f := by
  rw [State.inRecord, State.inRecord, ← consumed_consumed s p n w hp]; rfl

/-- A codec inside a record, at position `p`: the value that lies there, or the end of the source within the codec after
the `m` bits it consumed, or an overflowing count. -/
theorem decodeCodec_inRecord (k : BitVec 6) (s : State) (p : Nat) (sl : Vector SlotCell 8) (f : BitVec 4)
    (w : WindowOk s) (hp : s.offers p) (hb : s.bitsRead.toNat + p < 2 ^ 64) (hk : k.toNat < 10) :
    (s.offers (p + (s.wireCodec p k.toNat).2) ∧ s.bitsRead.toNat + (p + (s.wireCodec p k.toNat).2) < 2 ^ 64 ∧
      decodeCodec tables k (s.inRecord p sl f) =
        .done (BitVec.ofNat 32 (s.wireCodec p k.toNat).1) (s.inRecord (p + (s.wireCodec p k.toNat).2) sl f)) ∨
    (¬ s.offers (p + (s.wireCodec p k.toNat).2) ∧ ∃ m, m = (if k.toNat = 6 ∧ s.offers (p + 2) then 2 else 0) ∧
      decodeCodec tables k (s.inRecord p sl f) =
        endRes ((s.inRecord (p + m) sl f).drained ((s.wireCodec p k.toNat).2 - m))) ∨
    (2 ^ 64 ≤ s.bitsRead.toNat + (p + (s.wireCodec p k.toNat).2) ∧
      decodeCodec tables k (s.inRecord p sl f) = .refused .bitsReadOverflow) := by
  have hw : (s.inRecord p sl f).wireCodec 0 k.toNat = s.wireCodec p k.toNat :=
    (consumed_wireCodec s p 0 k.toNat w hp).trans (by rw [Nat.add_zero])
  have ha : ∀ n, (s.inRecord p sl f).offers n ↔ s.offers (p + n) := fun n => consumed_offers s p n w hp
  have hc : (s.inRecord p sl f).bitsRead.toNat = s.bitsRead.toNat + p := consumed_bitsRead s p hb
  have h := decodeCodec_cases k (s.inRecord p sl f) (inRecord_window s p sl f w) hk
  simp only [hw, ha, hc, inRecord_consumed s p _ sl f w hp] at h
  rcases h with ⟨a, b, c⟩ | ⟨a, m, hm, b, c⟩ | ⟨a, b⟩
  · exact .inl ⟨a, by omega, c⟩
  · exact .inr (.inl ⟨a, m, hm, c⟩)
  · exact .inr (.inr ⟨by omega, b⟩)

/-- A condition term on a bound slot is its truth value (R96). -/
theorem term_of_bound (t : Term) (s : State) (h : termBound t s = true) : term t s = .done (termHolds t s) s := by
  unfold term termHolds
  cases he : t.en with
  | false => simp
  | true =>
    simp only [termBound, he, boundBit] at h
    unfold getSlot
    cases hs : s.slots[t.slot.toNat] with
    | unbound => simp [hs] at h
    | bound v =>
      have e : (v == constantOf t.k) = decide (v = BitVec.setWidth 32 t.k) := rfl
      simp [Res.bind, e]

/-- A condition on bound slots is the conjunction of its terms (R96). -/
theorem present_of_bound (t0 t1 : Term) (s : State) (h0 : termBound t0 s = true) (h1 : termBound t1 s = true) :
    present t0 t1 s = .done (termHolds t0 s && termHolds t1 s) s := by
  rw [present, term_of_bound t0 s h0]
  simp only [Res.bind]
  rw [term_of_bound t1 s h1]

/-- A field step on a well-formed descriptor whose condition reads bound slots (R97). -/
theorem stepField_eq (T : Tables) (codec : BitVec 6) (t0 t1 : Term) (d : Word32) (s : State)
    (hf : s.fidx.toNat < T.nf) (hw : (Instr.field codec t0 t1 d).wf T s.fidx.toNat = true)
    (h0 : termBound t0 s = true) (h1 : termBound t1 s = true) :
    stepField T codec t0 t1 d s =
      if termHolds t0 s && termHolds t1 s then
        (decodeCodec T codec s).bind fun v u => .done () (bindField v u)
      else .done () (bindField d s) := by
  rw [stepField, if_pos hf, if_pos hw, present_of_bound t0 t1 s h0 h1]; rfl

/-- The entries of `FT` (R109). -/
theorem fieldAt_tables :
    fieldAt tables 0 = some (.field 0 ⟨false, 0, false, 0⟩ ⟨false, 0, false, 0⟩ 0) ∧
    fieldAt tables 1 = some (.field 1 ⟨true, 0, false, 1⟩ ⟨false, 0, false, 0⟩ 0) ∧
    fieldAt tables 2 = some (.field 6 ⟨true, 0, false, 0⟩ ⟨false, 0, false, 0⟩ 0) ∧
    fieldAt tables 3 = some (.field 7 ⟨false, 0, false, 0⟩ ⟨false, 0, false, 0⟩ 0) ∧
    fieldAt tables 4 = some (.field 1 ⟨true, 3, false, 0⟩ ⟨true, 0, false, 1⟩ 0) ∧
    fieldAt tables 5 = some (.field 6 ⟨true, 3, false, 0⟩ ⟨true, 0, false, 0⟩ 0) := by decide

/-- One pass of the loop over the fields of `FT` (R99). -/
theorem runFields_succ (T : Tables) (k : Nat) (s : State) (h : s.fidx.toNat < T.nf) :
    runFields T (k + 1) s = (fieldStep T s).bind fun _ t => runFields T k t := by
  rw [runFields, if_pos h]

/-- A present field of `FT` inside a record: bound to the value at its position, or the end of the source within it, or
an overflowing count. -/
theorem fieldStep_present (i : Nat) (c : BitVec 6) (t0 t1 : Term) (d : Word32) (s : State) (p : Nat)
    (sl : Vector SlotCell 8) (f : BitVec 4) (w : WindowOk s) (hp : s.offers p)
    (hb : s.bitsRead.toNat + p < 2 ^ 64) (hc : c.toNat < 10) (hi : f.toNat = i) (hn : i < tables.nf)
    (hf : fieldAt tables i = some (.field c t0 t1 d)) (hw : (Instr.field c t0 t1 d).wf tables i = true)
    (h0 : termBound t0 (s.inRecord p sl f) = true) (h1 : termBound t1 (s.inRecord p sl f) = true)
    (h : (termHolds t0 (s.inRecord p sl f) && termHolds t1 (s.inRecord p sl f)) = true) :
    (s.offers (p + (s.wireCodec p c.toNat).2) ∧ s.bitsRead.toNat + (p + (s.wireCodec p c.toNat).2) < 2 ^ 64 ∧
      fieldStep tables (s.inRecord p sl f) = .done () (s.inRecord (p + (s.wireCodec p c.toNat).2)
        (sl.setIfInBounds i (.bound (BitVec.ofNat 32 (s.wireCodec p c.toNat).1))) (f + 1))) ∨
    (¬ s.offers (p + (s.wireCodec p c.toNat).2) ∧ ∃ m, m = (if c.toNat = 6 ∧ s.offers (p + 2) then 2 else 0) ∧
      fieldStep tables (s.inRecord p sl f) =
        endRes ((s.inRecord (p + m) sl f).drained ((s.wireCodec p c.toNat).2 - m))) ∨
    (2 ^ 64 ≤ s.bitsRead.toNat + (p + (s.wireCodec p c.toNat).2) ∧
      fieldStep tables (s.inRecord p sl f) = .refused .bitsReadOverflow) := by
  have hfi : (s.inRecord p sl f).fidx.toNat = i := hi
  have e : fieldStep tables (s.inRecord p sl f) =
      (decodeCodec tables c (s.inRecord p sl f)).bind fun v u => .done () (bindField v u) := by
    rw [fieldStep, hfi, hf]
    show stepField tables c t0 t1 d _ = _
    rw [stepField_eq tables c t0 t1 d _ (by rw [hfi]; exact hn) (by rw [hfi]; exact hw) h0 h1, if_pos h]
  rw [e]
  rcases decodeCodec_inRecord c s p sl f w hp hb hc with ⟨a, b, x⟩ | ⟨a, m, b, x⟩ | ⟨a, x⟩ <;> rw [x]
  · exact .inl ⟨a, b, by rw [← hi]; rfl⟩
  · exact .inr (.inl ⟨a, m, b, endRes_bind _ _⟩)
  · exact .inr (.inr ⟨a, rfl⟩)

/-- An absent field of `FT` inside a record: bound to its default, no bit taken (R98). -/
theorem fieldStep_absent (i : Nat) (c : BitVec 6) (t0 t1 : Term) (d : Word32) (s : State) (p : Nat)
    (sl : Vector SlotCell 8) (f : BitVec 4) (hi : f.toNat = i) (hn : i < tables.nf)
    (hf : fieldAt tables i = some (.field c t0 t1 d)) (hw : (Instr.field c t0 t1 d).wf tables i = true)
    (h0 : termBound t0 (s.inRecord p sl f) = true) (h1 : termBound t1 (s.inRecord p sl f) = true)
    (h : (termHolds t0 (s.inRecord p sl f) && termHolds t1 (s.inRecord p sl f)) = false) :
    fieldStep tables (s.inRecord p sl f) = .done () (s.inRecord p (sl.setIfInBounds i (.bound d)) (f + 1)) := by
  have hfi : (s.inRecord p sl f).fidx.toNat = i := hi
  rw [fieldStep, hfi, hf]
  show stepField tables c t0 t1 d _ = _
  rw [stepField_eq tables c t0 t1 d _ (by rw [hfi]; exact hn) (by rw [hfi]; exact hw) h0 h1,
    if_neg (by rw [h]; exact Bool.false_ne_true), bindField_inRecord, hi]

/-- The fields of a record follow each other (R98). -/
theorem fieldStart_succ (s : State) (p i : Nat) (h : i < 6) : s.fieldStart p i ≤ s.fieldStart p (i + 1) := by
  by_cases a : s.bits p 1 = 1 <;> interval_cases i <;> simp [State.fieldStart, State.wireHeader, a] <;>
    (try split_ifs) <;> omega

/-- The start of a later field is not before that of an earlier one. -/
theorem fieldStart_mono (s : State) (p i j : Nat) (hij : i ≤ j) (hj : j ≤ 6) : s.fieldStart p i ≤ s.fieldStart p j := by
  induction j with
  | zero => rw [Nat.le_zero.mp hij]
  | succ j ih =>
    rcases Nat.lt_or_ge j i with h | h
    · rw [show i = j + 1 by omega]
    · exact (ih h (by omega)).trans (fieldStart_succ s p j (by omega))

/-- Where the record ends: the position of a field after the last one. -/
theorem fieldStart_six (s : State) (p : Nat) : s.fieldStart p 6 = (s.wireHeader p).stop := rfl

/-- The failing field is the only one whose end the stream does not have while it has those of the fields before it. -/
theorem failingField_eq (s : State) (p f : Nat) (hf : f < 6) (h : f = 0 ∨ s.offers (s.fieldStart p f))
    (hn : ¬ s.offers (s.fieldStart p (f + 1))) : s.failingField p = f := by
  unfold State.failingField
  have e : ∀ l : List Nat, l.length = 6 → l = List.range 6 → l.findIdx (fun i => !decide (s.offers (s.fieldStart p (i + 1)))) = f := by
    rintro l - rfl
    rw [List.findIdx_eq (by simpa using hf)]
    refine ⟨by simpa using hn, fun j hj => ?_⟩
    rcases h with rfl | h
    · omega
    · simpa using offers_mono h (fieldStart_mono s p (j + 1) f hj (by omega))
  exact e _ (by simp) rfl

/-- A record that the stream does not have has a failing field. -/
theorem failingField_lt (s : State) (p : Nat) (h : ¬ s.offers (s.wireHeader p).stop) : s.failingField p < 6 := by
  unfold State.failingField
  have := List.findIdx_lt_length_of_exists (xs := List.range 6)
    (p := fun i => !decide (s.offers (s.fieldStart p (i + 1)))) ⟨5, by simp, by simp only [Bool.not_eq_true', decide_eq_false_iff_not]; exact h⟩
  simpa using this

/-- How the loop over the fields ends when the record has `stop` bits: done in `t`; at the end of the source inside its
failing field, with the slots below it bound (R102); or at an overflowing count. -/
def RecordEnds (s : State) (t : State) (r : Res Unit) : Prop :=
  (s.offers (s.wireHeader 0).stop ∧ s.bitsRead.toNat + (s.wireHeader 0).stop < 2 ^ 64 ∧ r = .done () t) ∨
  (¬ s.offers (s.wireHeader 0).stop ∧ ∃ f, f = s.failingField 0 ∧
    r = endRes ((s.recordFails 0 f).drained (s.fieldStart 0 (f + 1) - s.failingPosition 0 f))) ∨
  (2 ^ 64 ≤ s.bitsRead.toNat + (s.wireHeader 0).stop ∧ r = .refused .bitsReadOverflow)

/-- A present field `i`, then the rest of the record. -/
theorem recordEnds_present (i k : Nat) (c : BitVec 6) (t0 t1 : Term) (d : Word32) (s : State) (p : Nat)
    (sl : Vector SlotCell 8) (f : BitVec 4) (t : State) (w : WindowOk s) (hp : s.offers p)
    (hb : s.bitsRead.toNat + p < 2 ^ 64) (hc : c.toNat < 10) (hi : f = BitVec.ofNat 4 i) (hn : i < 6)
    (hf : fieldAt tables i = some (.field c t0 t1 d)) (hw : (Instr.field c t0 t1 d).wf tables i = true)
    (h0 : termBound t0 (s.inRecord p sl f) = true) (h1 : termBound t1 (s.inRecord p sl f) = true)
    (h : (termHolds t0 (s.inRecord p sl f) && termHolds t1 (s.inRecord p sl f)) = true)
    (hps : s.fieldStart 0 i = p) (hpe : s.fieldStart 0 (i + 1) = p + (s.wireCodec p c.toNat).2)
    (hsl : sl = (s.wireHeader 0).slotsBelow i) (h6 : c.toNat = 6 ↔ i = 2 ∨ i = 5)
    (rest : s.offers (p + (s.wireCodec p c.toNat).2) →
      s.bitsRead.toNat + (p + (s.wireCodec p c.toNat).2) < 2 ^ 64 →
      RecordEnds s t (runFields tables k (s.inRecord (p + (s.wireCodec p c.toNat).2)
        (sl.setIfInBounds i (.bound (BitVec.ofNat 32 (s.wireCodec p c.toNat).1))) (f + 1)))) :
    RecordEnds s t (runFields tables (k + 1) (s.inRecord p sl f)) := by
  have hft : f.toNat = i := by rw [hi, BitVec.toNat_ofNat]; omega
  have hfi : (s.inRecord p sl f).fidx.toNat < tables.nf := by show f.toNat < 6; omega
  have hstop : p + (s.wireCodec p c.toNat).2 ≤ (s.wireHeader 0).stop := by
    rw [← hpe, ← fieldStart_six]; exact fieldStart_mono s 0 _ 6 (by omega) (le_refl _)
  rw [runFields_succ tables k _ hfi]
  rcases fieldStep_present i c t0 t1 d s p sl f w hp hb hc hft hn hf hw h0 h1 h with ⟨a, b, x⟩ | ⟨a, m, hm, x⟩ | ⟨a, x⟩ <;>
    rw [x]
  · exact rest a b
  · refine .inr (.inl ⟨fun h => a (offers_mono h hstop), i, ?_, (endRes_bind _ _).trans ?_⟩)
    · exact (failingField_eq s 0 i hn (.inr (by rw [hps]; exact hp)) (by rw [hpe]; exact a)).symm
    · have hq : s.failingPosition 0 i = p + m := by
        unfold State.failingPosition
        simp only [hps, ← h6]
        rw [hm]; split <;> rfl
      rw [State.recordFails, hq, hpe, Nat.add_sub_add_left, ← hsl, ← hi]
      rfl
  · exact .inr (.inr ⟨by omega, rfl⟩)

/-- An absent field `i`, then the rest of the record. -/
theorem recordEnds_absent (i k : Nat) (c : BitVec 6) (t0 t1 : Term) (d : Word32) (s : State) (p : Nat)
    (sl : Vector SlotCell 8) (f : BitVec 4) (t : State) (hi : f.toNat = i) (hn : i < 6)
    (hf : fieldAt tables i = some (.field c t0 t1 d)) (hw : (Instr.field c t0 t1 d).wf tables i = true)
    (h0 : termBound t0 (s.inRecord p sl f) = true) (h1 : termBound t1 (s.inRecord p sl f) = true)
    (h : (termHolds t0 (s.inRecord p sl f) && termHolds t1 (s.inRecord p sl f)) = false)
    (rest : RecordEnds s t (runFields tables k (s.inRecord p (sl.setIfInBounds i (.bound d)) (f + 1)))) :
    RecordEnds s t (runFields tables (k + 1) (s.inRecord p sl f)) := by
  have hfi : (s.inRecord p sl f).fidx.toNat < tables.nf := by show f.toNat < 6; omega
  rw [runFields_succ tables k _ hfi, fieldStep_absent i c t0 t1 d s p sl f hi hn hf hw h0 h1 h]
  exact rest

end Sys2Proof.Machine
end

