-- ==== Sys2Proof/Laws/Header.lean ====
section
/-! SUPPORT. What `run_schema()` ends in, on the stream map of R45: the record that lies at the current position, the end
of the source inside one of its fields, or an overflowing count (R99, R102, R106 to R112). -/

namespace Sys2Proof.Machine

/-- A property of every slot number, slot by slot. -/
theorem forall_slot (P : BitVec 3 → Prop) (h : P 0 ∧ P 1 ∧ P 2 ∧ P 3 ∧ P 4 ∧ P 5 ∧ P 6 ∧ P 7) : ∀ j, P j := by
  intro j
  obtain ⟨h0, h1, h2, h3, h4, h5, h6, h7⟩ := h
  obtain ⟨k, hk⟩ : ∃ k, k = j.toNat := ⟨_, rfl⟩
  have hl := j.isLt
  have hj : j = BitVec.ofNat 3 k := by rw [hk]; simp
  rw [hj]
  rw [← hk] at hl
  have : k < 8 := hl
  interval_cases k <;> assumption

/-- A 3-bit value in a slot equals the constant 0 exactly when it is 0. -/
theorem bound_eq_zero (x : Nat) (h : x < 8) :
    SlotCell.bound (BitVec.ofNat 32 x) = .bound (BitVec.setWidth 32 (0 : Byte)) ↔ x = 0 := by
  interval_cases x <;> decide

/-- The condition of `w_small` and of `w_large` is false when `ratio` is not 0, whatever its second term. -/
theorem ratio_term_false (x : Nat) (h : x < 8) (hz : x ≠ 0) (b : Bool) :
    ((!true || (decide (SlotCell.bound (BitVec.ofNat 32 x) = .bound (BitVec.setWidth 32 (0 : Byte))) != false)) && b)
      = false := by
  rw [decide_eq_false (fun e => hz ((bound_eq_zero x h).mp e))]; rfl

/-- The stream map of a record in the small regime (R45). -/
theorem wireHeader_small (s : State) (h : s.bits 0 1 = 1) :
    s.wireHeader 0 = if s.bits 6 3 = 0
      then ⟨1, s.bits 1 5, 0, 0, s.bits 9 5, 0, 8 * (s.bits 1 5 + 1), 8 * (s.bits 9 5 + 1), 14⟩
      else ⟨1, s.bits 1 5, 0, s.bits 6 3, 0, 0, 8 * (s.bits 1 5 + 1),
        ratioWidth (s.bits 6 3) (8 * (s.bits 1 5 + 1)), 9⟩ := by
  by_cases hz : s.bits 6 3 = 0 <;> simp [State.wireHeader, h, hz]

/-- The stream map of a record in the large regime, `p` being the position of `ratio` (R45). -/
theorem wireHeader_large (s : State) (p g : Nat) (h : s.bits 0 1 = 0) (hg : g = s.bits 1 2) (hp : p = 3 + armBits g) :
    s.wireHeader 0 = if s.bits p 3 = 0
      then ⟨0, 0, s.bits 3 (armBits g) + 1, 0, 0, s.bits (p + 3 + 2) (armBits (s.bits (p + 3) 2)) + 1,
        s.bits 3 (armBits g) + 1, s.bits (p + 3 + 2) (armBits (s.bits (p + 3) 2)) + 1,
        p + 3 + (2 + armBits (s.bits (p + 3) 2))⟩
      else ⟨0, 0, s.bits 3 (armBits g) + 1, s.bits p 3, 0, 0, s.bits 3 (armBits g) + 1,
        ratioWidth (s.bits p 3) (s.bits 3 (armBits g) + 1), p + 3⟩ := by
  subst hp hg
  by_cases hz : s.bits (3 + armBits (s.bits 1 2)) 3 = 0
  · simp [State.wireHeader, h, hz]; omega
  · simp [State.wireHeader, h, hz]

/-- The loop over the fields of `FT` from the start of a record, in the small regime. -/
theorem runFields_small (s : State) (w : WindowOk s) (h : s.bits 0 1 = 1) (a1 : s.offers 1)
    (b1 : s.bitsRead.toNat + 1 < 2 ^ 64) :
    RecordEnds s (s.inRecord (s.wireHeader 0).stop (s.wireHeader 0).slotFile 6)
      (runFields tables 5 (s.inRecord 1 #v[.bound (BitVec.ofNat 32 1), .unbound, .unbound, .unbound, .unbound, .unbound,
        .unbound, .unbound] 1)) := by
  obtain ⟨f0, f1, f2, f3, f4, f5⟩ := fieldAt_tables
  have hh := wireHeader_small s h
  have hr := bits_lt s 6 3
  have p1 : s.fieldStart 0 1 = 1 := rfl
  have p2 : s.fieldStart 0 2 = 6 := by simp only [State.fieldStart, hh]; split <;> rfl
  have p3 : s.fieldStart 0 3 = 6 := by simp only [State.fieldStart, hh]; split <;> rfl
  have p4 : s.fieldStart 0 4 = 9 := by simp only [State.fieldStart, hh]; split <;> rfl
  refine recordEnds_present 1 4 1 _ _ 0 s 1 _ _ _ w a1 b1 (by decide) rfl (by decide) f1 (by decide) rfl rfl rfl
    p1 p2 (by rw [hh]; split <;> rfl) (by decide) ?_
  intro _ _
  refine recordEnds_absent 2 3 6 _ _ 0 s 6 _ _ _ rfl (by decide) f2 (by decide) rfl rfl rfl ?_
  refine recordEnds_present 3 2 7 _ _ 0 s 6 _ _ _ w ‹_› ‹_› (by decide) rfl (by decide) f3 (by decide) rfl rfl rfl
    p3 p4 (by rw [hh]; split <;> rfl) (by decide) ?_
  intro a3 b3
  change RecordEnds s _ (runFields tables 2 (s.inRecord 9 #v[.bound (BitVec.ofNat 32 1),
    .bound (BitVec.ofNat 32 (s.bits 1 5)), .bound 0, .bound (BitVec.ofNat 32 (s.bits 6 3)), .unbound, .unbound, .unbound,
    .unbound] 4))
  by_cases hz : s.bits 6 3 = 0
  · rw [if_pos hz] at hh
    rw [hz]
    have p5 : s.fieldStart 0 5 = 14 := by simp [State.fieldStart, hh]
    refine recordEnds_present 4 1 1 _ _ 0 s 9 _ _ _ w a3 b3 (by decide) rfl (by decide) f4 (by decide) rfl rfl rfl
      p4 p5 (by rw [hh]; rfl) (by decide) ?_
    intro a4 b4
    refine recordEnds_absent 5 0 6 _ _ 0 s 14 _ _ _ rfl (by decide) f5 (by decide) rfl rfl rfl ?_
    refine .inl ⟨by rw [hh]; exact a4, by rw [hh]; exact b4, ?_⟩
    rw [hh]; rfl
  · rw [if_neg hz] at hh
    refine recordEnds_absent 4 1 1 _ _ 0 s 9 _ _ _ rfl (by decide) f4 (by decide) rfl rfl
      (ratio_term_false _ hr hz _) ?_
    refine recordEnds_absent 5 0 6 _ _ 0 s 9 _ _ _ rfl (by decide) f5 (by decide) rfl rfl
      (ratio_term_false _ hr hz _) ?_
    refine .inl ⟨by rw [hh]; exact a3, by rw [hh]; exact b3, ?_⟩
    rw [hh]; rfl

/-- The loop over the fields of `FT` from the start of a record, in the large regime. -/
theorem runFields_large (s : State) (w : WindowOk s) (h : s.bits 0 1 = 0) (a1 : s.offers 1)
    (b1 : s.bitsRead.toNat + 1 < 2 ^ 64) :
    RecordEnds s (s.inRecord (s.wireHeader 0).stop (s.wireHeader 0).slotFile 6)
      (runFields tables 5 (s.inRecord 1 #v[.bound (BitVec.ofNat 32 0), .unbound, .unbound, .unbound, .unbound, .unbound,
        .unbound, .unbound] 1)) := by
  obtain ⟨f0, f1, f2, f3, f4, f5⟩ := fieldAt_tables
  obtain ⟨g, hg⟩ : ∃ g, g = s.bits 1 2 := ⟨_, rfl⟩
  obtain ⟨p, hp⟩ : ∃ p, p = 3 + armBits g := ⟨_, rfl⟩
  have hh := wireHeader_large s p g h hg hp
  have hr := bits_lt s p 3
  have hw6 : s.wireCodec 1 (6 : BitVec 6).toNat = (s.bits 3 (armBits g) + 1, 2 + armBits g) := by subst hg; rfl
  have hpos : 1 + (2 + armBits g) = p := by omega
  have hsm : (s.wireHeader 0).small = 0 := h
  have p2 : s.fieldStart 0 2 = 1 := by simp [State.fieldStart, hsm]
  have p3 : s.fieldStart 0 3 = p := by simp [State.fieldStart, hsm, ← hg, hp]
  have p4 : s.fieldStart 0 4 = p + 3 := by simp [State.fieldStart, hsm, ← hg, hp]
  have p5 : s.fieldStart 0 5 = p + 3 := by simp [State.fieldStart, hsm, ← hg, hp]
  refine recordEnds_absent 1 4 1 _ _ 0 s 1 _ _ _ rfl (by decide) f1 (by decide) rfl rfl rfl ?_
  refine recordEnds_present 2 3 6 _ _ 0 s 1 _ _ _ w a1 b1 (by decide) rfl (by decide) f2 (by decide) rfl rfl rfl
    p2 (by rw [hw6, hpos]; exact p3) (by rw [hh]; split <;> rfl) (by decide) ?_
  rw [hw6]
  dsimp only
  rw [hpos]
  intro a2 b2
  refine recordEnds_present 3 2 7 _ _ 0 s p _ _ _ w a2 b2 (by decide) rfl (by decide) f3 (by decide) rfl rfl rfl
    p3 p4 (by rw [hh]; split <;> rfl) (by decide) ?_
  intro a3 b3
  change s.offers (p + 3) at a3
  change s.bitsRead.toNat + (p + 3) < 2 ^ 64 at b3
  change RecordEnds s _ (runFields tables 2 (s.inRecord (p + 3) #v[.bound (BitVec.ofNat 32 0), .bound 0,
    .bound (BitVec.ofNat 32 (s.bits 3 (armBits g) + 1)), .bound (BitVec.ofNat 32 (s.bits p 3)), .unbound, .unbound,
    .unbound, .unbound] 4))
  by_cases hz : s.bits p 3 = 0
  · rw [if_pos hz] at hh
    rw [hz]
    refine recordEnds_absent 4 1 1 _ _ 0 s (p + 3) _ _ _ rfl (by decide) f4 (by decide) rfl rfl rfl ?_
    refine recordEnds_present 5 0 6 _ _ 0 s (p + 3) _ _ _ w a3 b3 (by decide) rfl (by decide) f5 (by decide) rfl rfl
      rfl p5 (by rw [fieldStart_six, hh]; rfl) (by rw [hh]; rfl) (by decide) ?_
    intro a4 b4
    refine .inl ⟨by rw [hh]; exact a4, by rw [hh]; exact b4, ?_⟩
    rw [hh]; rfl
  · rw [if_neg hz] at hh
    refine recordEnds_absent 4 1 1 _ _ 0 s (p + 3) _ _ _ rfl (by decide) f4 (by decide) rfl rfl
      (ratio_term_false _ hr hz _) ?_
    refine recordEnds_absent 5 0 6 _ _ 0 s (p + 3) _ _ _ rfl (by decide) f5 (by decide) rfl rfl
      (ratio_term_false _ hr hz _) ?_
    refine .inl ⟨by rw [hh]; exact a3, by rw [hh]; exact b3, ?_⟩
    rw [hh]; rfl

/-- The loop over the fields of `FT` ends as the stream map says (R45, R106). -/
theorem runFields_wireHeader (s : State) (w : WindowOk s) :
    RecordEnds s (s.inRecord (s.wireHeader 0).stop (s.wireHeader 0).slotFile 6)
      (runFields tables 6 (startRecord s)) := by
  have hb := s.bitsRead.isLt
  have hx : s.bits 0 1 < 2 := bits_lt s 0 1
  rw [startRecord_inRecord]
  refine recordEnds_present 0 5 0 _ _ 0 s 0 _ _ _ w (offers_of_le s 0 (Nat.zero_le _)) (by omega) (by decide) rfl
    (by decide) fieldAt_tables.1 (by decide) rfl rfl rfl rfl rfl rfl (by decide) ?_
  intro a1 b1
  change RecordEnds s _ (runFields tables 5 (s.inRecord 1 #v[.bound (BitVec.ofNat 32 (s.bits 0 1)), .unbound, .unbound,
    .unbound, .unbound, .unbound, .unbound, .unbound] 1))
  rcases (show s.bits 0 1 = 1 ∨ s.bits 0 1 = 0 by omega) with h | h
  · rw [h]; exact runFields_small s w h a1 b1
  · rw [h]; exact runFields_large s w h a1 b1

/-- A payload is at most 30 bits wide. -/
theorem armBits_le (g : Nat) : armBits g ≤ 30 := by unfold armBits; split <;> omega

/-- `w ≥ h`, and `w ≤ 2 h`, for every row of `RT` (R112). -/
theorem ratioWidth_bounds (r h : Nat) (hr : 1 ≤ r) (hr8 : r < 8) : h ≤ ratioWidth r h ∧ ratioWidth r h ≤ 2 * h := by
  interval_cases r <;> simp [ratioWidth] <;> omega

theorem ite_lt_of {c : Prop} [Decidable c] {a b n : Nat} (h : a < n) (k : b < n) : (if c then a else b) < n := by
  split <;> assumption

/-- The ranges of the fields of a record, and how its dimensions come from them (R111, R112). -/
structure HeaderRanges (h : WireHeader) : Prop where
  small : h.small = 0 ∨ h.small = 1
  hSmall : h.hSmall < 32
  wSmall : h.wSmall < 32
  ratio : h.ratio < 8
  hLarge : h.hLarge < 2 ^ 30 + 1
  wLarge : h.wLarge < 2 ^ 30 + 1
  height_eq : h.height = if h.small = 1 then 8 * (h.hSmall + 1) else h.hLarge
  width_eq : h.width = if h.ratio ≠ 0 then ratioWidth h.ratio h.height
    else if h.small = 1 then 8 * (h.wSmall + 1) else h.wLarge

theorem HeaderRanges.height_le {h : WireHeader} (f : HeaderRanges h) : h.height ≤ 2 ^ 30 := by
  have := f.hSmall; have := f.hLarge
  rw [f.height_eq]; split <;> omega

theorem HeaderRanges.width_le {h : WireHeader} (f : HeaderRanges h) : h.width ≤ 2 ^ 31 := by
  have := f.wSmall; have := f.wLarge; have := f.height_le
  rw [f.width_eq]
  split
  · have := ratioWidth_bounds h.ratio h.height (by omega) f.ratio; omega
  · split <;> omega

/-- A record of the stream has its fields in range. -/
theorem wireHeader_ranges (s : State) (p : Nat) : HeaderRanges (s.wireHeader p) := by
  have b1 := bits_lt s p 1
  have b5 := fun q => bits_lt s q 5
  have ba : ∀ q g, s.bits q (armBits g) + 1 < 2 ^ 30 + 1 := fun q g =>
    Nat.succ_lt_succ (lt_of_lt_of_le (bits_lt s q _) (Nat.pow_le_pow_right (by omega) (armBits_le g)))
  refine ⟨?_, ite_lt_of (b5 _) (by omega), ite_lt_of (b5 _) (by omega), bits_lt s _ 3, ite_lt_of (by omega) (ba _ _),
    ite_lt_of (ba _ _) (by omega), rfl, rfl⟩
  show s.bits p 1 = 0 ∨ s.bits p 1 = 1
  omega

/-- `assemble()` on the slot file of a record gives its dimensions (R111). -/
theorem assemble_slotFile (t : State) (h : WireHeader) (f : HeaderRanges h) (ht : t.slots = h.slotFile) :
    assemble tables t = .done (BitVec.ofNat 32 h.width, BitVec.ofNat 32 h.height) t := by
  have g0 : getSlot 0 t = .done (BitVec.ofNat 32 h.small) t := by unfold getSlot; rw [ht]; rfl
  have g1 : getSlot 1 t = .done (BitVec.ofNat 32 h.hSmall) t := by unfold getSlot; rw [ht]; rfl
  have g2 : getSlot 2 t = .done (BitVec.ofNat 32 h.hLarge) t := by unfold getSlot; rw [ht]; rfl
  have g3 : getSlot 3 t = .done (BitVec.ofNat 32 h.ratio) t := by unfold getSlot; rw [ht]; rfl
  have g4 : getSlot 4 t = .done (BitVec.ofNat 32 h.wSmall) t := by unfold getSlot; rw [ht]; rfl
  have g5 : getSlot 5 t = .done (BitVec.ofNat 32 h.wLarge) t := by unfold getSlot; rw [ht]; rfl
  have hH := f.height_le
  have hW := f.width_le
  obtain ⟨sm, hs, ws, r, hl, wl, he, wi⟩ := f
  have hone : BitVec.ofNat 32 h.small = 1 ↔ h.small = 1 := by rcases sm with e | e <;> rw [e] <;> decide
  have hrt : (BitVec.ofNat 32 h.ratio).toNat = h.ratio := by simp; omega
  have hh : assembleHeight (BitVec.ofNat 32 h.small) t = .done h.height t := by
    unfold assembleHeight
    rw [he]
    by_cases e : h.small = 1
    · rw [if_pos (hone.mpr e), if_pos e, g1]; simp only [Res.bind, smallDim, BitVec.toNat_ofNat]; congr 3; omega
    · rw [if_neg (show ¬ BitVec.ofNat 32 h.small = 1 from fun x => e (hone.mp x)), if_neg e, g2]
      simp only [Res.bind, BitVec.toNat_ofNat]; congr 1; omega
  have hw : assembleWidth tables (BitVec.ofNat 32 h.small) (BitVec.ofNat 32 h.ratio) h.height t = .done h.width t := by
    unfold assembleWidth
    rw [wi, hrt]
    by_cases e : h.ratio = 0
    · rw [if_neg (show ¬ 0 < h.ratio by omega), if_neg (show ¬ h.ratio ≠ 0 by omega)]
      by_cases e : h.small = 1
      · rw [if_pos (hone.mpr e), if_pos e, g4]; simp only [Res.bind, smallDim, BitVec.toNat_ofNat]; congr 3; omega
      · rw [if_neg (show ¬ BitVec.ofNat 32 h.small = 1 from fun x => e (hone.mp x)), if_neg e, g5]
        simp only [Res.bind, BitVec.toNat_ofNat]; congr 1; omega
    · rw [if_pos (show 0 < h.ratio by omega), if_pos e]
      generalize h.ratio = x at *
      interval_cases x <;> first | omega | rfl
  unfold assemble
  rw [g0]
  show (getSlot 3 t).bind _ = _
  rw [g3]
  show (assembleHeight _ t).bind _ = _
  rw [hh]
  show (assembleWidth tables _ _ _ t).bind _ = _
  rw [hw]
  show (if h.width < 2 ^ 32 ∧ h.height < 2 ^ 32 then _ else _) = _
  rw [if_pos (by omega)]

/-- The record response is `height × 2^32 + width` (R100). -/
theorem packDims_ofNat (w h : Nat) (hw : w < 2 ^ 32) (hh : h < 2 ^ 32) :
    packDims (BitVec.ofNat 32 w) (BitVec.ofNat 32 h) = BitVec.ofNat 64 (h * 2 ^ 32 + w) := by
  apply BitVec.eq_of_toNat_eq
  unfold packDims
  rw [BitVec.toNat_or, BitVec.toNat_shiftLeft]
  simp only [BitVec.toNat_setWidth, BitVec.toNat_ofNat, Nat.mod_eq_of_lt hw, Nat.mod_eq_of_lt hh]
  rw [Nat.mod_eq_of_lt (show h < 2 ^ 64 by omega), Nat.mod_eq_of_lt (show w < 2 ^ 64 by omega), Nat.shiftLeft_eq,
    Nat.mod_eq_of_lt (by omega), ← Nat.shiftLeft_eq, ← Nat.shiftLeft_add_eq_or_of_lt hw, Nat.shiftLeft_eq,
    Nat.mod_eq_of_lt (by omega)]

/-- Everything `run_schema()` can end in (R99, R102). -/
theorem runSchema_wireHeader (s : State) (w : WindowOk s) (h : WireHeader) (hh : h = s.wireHeader 0) :
    (s.offers h.stop ∧ s.bitsRead.toNat + h.stop < 2 ^ 64 ∧
      runSchema tables s = .done (BitVec.ofNat 64 (h.height * 2 ^ 32 + h.width))
        { s.inRecord h.stop h.slotFile 6 with
          hdr := .valid (BitVec.ofNat 32 h.width) (BitVec.ofNat 32 h.height) }) ∨
    (¬ s.offers h.stop ∧ ∃ f, f = s.failingField 0 ∧
      runSchema tables s = endRes ((s.recordFails 0 f).drained (s.fieldStart 0 (f + 1) - s.failingPosition 0 f))) ∨
    (2 ^ 64 ≤ s.bitsRead.toNat + h.stop ∧ runSchema tables s = .refused .bitsReadOverflow) := by
  subst hh
  have hf := wireHeader_ranges s 0
  unfold runSchema
  rw [if_pos (by decide), show tables.nf = 6 from rfl]
  rcases runFields_wireHeader s w with ⟨a, b, e⟩ | ⟨a, f, x, e⟩ | ⟨a, e⟩ <;> rw [e]
  · refine .inl ⟨a, b, ?_⟩
    show (assemble tables _).bind _ = _
    rw [assemble_slotFile _ _ hf rfl]
    show Res.done _ _ = _
    rw [packDims_ofNat _ _ (lt_of_le_of_lt hf.width_le (by omega)) (lt_of_le_of_lt hf.height_le (by omega))]
  · exact .inr (.inl ⟨a, f, x, endRes_bind _ _⟩)
  · exact .inr (.inr ⟨a, rfl⟩)

/-- The record at position `16 + p` is the record at `p` of the stream without its first 16 bits. -/
theorem wireHeader_consumed (s : State) (w : WindowOk s) (h16 : s.offers 16) (p : Nat) :
    s.wireHeader (16 + p) =
      { (s.consumed 16).wireHeader p with stop := 16 + ((s.consumed 16).wireHeader p).stop } := by
  simp only [State.wireHeader, fun q n => consumed_bits s 16 q n w h16]
  by_cases e : s.bits (16 + p) 1 = 1
  · by_cases e2 : s.bits (16 + (p + 6)) 3 = 0 <;> simp [e, e2, Nat.add_assoc]
  · by_cases e2 : s.bits (16 + (p + (3 + armBits (s.bits (16 + (p + 1)) 2)))) 3 = 0 <;> simp [e, e2, Nat.add_assoc]

/-- So are the positions of its fields. -/
theorem fieldStart_consumed (s : State) (w : WindowOk s) (h16 : s.offers 16) (i : Nat) :
    s.fieldStart 16 i = 16 + (s.consumed 16).fieldStart 0 i := by
  have hh := wireHeader_consumed s w h16 0
  rw [Nat.add_zero] at hh
  unfold State.fieldStart
  rw [hh]
  simp only [consumed_bits s 16 _ _ w h16, Nat.zero_add]
  rcases i with _ | _ | _ | _ | _ | _ | i <;> simp only <;> split_ifs <;> omega

/-- And the field it fails in. -/
theorem failingField_consumed (s : State) (w : WindowOk s) (h16 : s.offers 16) :
    s.failingField 16 = (s.consumed 16).failingField 0 := by
  unfold State.failingField
  simp only [fieldStart_consumed s w h16, consumed_offers s 16 _ w h16]

/-- And the position it fails at. -/
theorem failingPosition_consumed (s : State) (w : WindowOk s) (h16 : s.offers 16) (f : Nat) :
    s.failingPosition 16 f = 16 + (s.consumed 16).failingPosition 0 f := by
  unfold State.failingPosition
  simp only [fieldStart_consumed s w h16, consumed_offers s 16 _ w h16, Nat.add_assoc]
  split <;> rfl

/-- And the state it fails in. -/
theorem recordFails_consumed (s : State) (w : WindowOk s) (h16 : s.offers 16) (f : Nat) :
    s.recordFails 16 f = (s.consumed 16).recordFails 0 f := by
  have hh := wireHeader_consumed s w h16 0
  rw [Nat.add_zero] at hh
  rw [State.recordFails, State.recordFails, failingPosition_consumed s w h16 f, ← consumed_consumed s 16 _ w h16, hh]
  rfl

end Sys2Proof.Machine
end

