-- ==== Sys2Proof/Laws/PerInstr.lean ====
section
/-! SUPPORT. Per instruction: the object an instruction encodes to has the width of its kind (R53). -/

namespace Sys2Proof.Laws.EncodingWidth

/-- A command is a 16-bit word (R54), a codec or field descriptor 64 bits (R60, R63). -/
def Statement (i : Instr) : Prop :=
  (encode i).nbits = if Machine.isDescriptor i then 64 else 16

theorem peek (n : BitVec 6) : Statement (.peek n) := rfl
theorem read (n : BitVec 6) : Statement (.read n) := rfl
theorem bitsRead : Statement .bitsRead := rfl
theorem release : Statement .release := rfl
theorem rdt (k : BitVec 6) : Statement (.rdt k) := rfl
theorem run : Statement .run := rfl
theorem rdHdr : Statement .rdHdr := rfl
theorem const (c : Word32) : Statement (.const c) := rfl
theorem fixed (w : BitVec 6) : Statement (.fixed w) := rfl
theorem offset (w : BitVec 6) (o : Word32) : Statement (.offset w o) := rfl
theorem psel (a0 a1 a2 a3 : BitVec 6) : Statement (.psel a0 a1 a2 a3) := rfl
theorem field (codec : BitVec 6) (t0 t1 : Term) (dflt : Word32) : Statement (.field codec t0 t1 dflt) := rfl

end Sys2Proof.Laws.EncodingWidth
end

