-- ==== Sys2Proof/Laws/Step.lean ====
section
/-! SUPPORT. What a step fetches: the object placed for it (log 14), and what the encoder lays out for it. -/

namespace Sys2Proof.Machine

/-- A placed object that decodes is what the next step fetches, and nothing else of the state has changed. -/
theorem fetchNext_placeObject (o : Encoded) (i : Instr) (s : State) (h : decode o = .ok i) (hp : s.fetch = .port) :
    fetchNext (placeObject o s) = .instr i s := by
  obtain ⟨acc, nbits, bitsRead, own, fault, errinfo, slots, fidx, hdr, src, pulled, host, resp, fetch, value⟩ := s
  obtain rfl : fetch = .port := hp
  cases o <;> simp [placeObject, fetchNext, h]

/-- The step after an object was placed runs its instruction. -/
theorem step_placeObject (o : Encoded) (i : Instr) (s : State) (h : decode o = .ok i) (hp : s.fetch = .port) :
    step (placeObject o s) = exec i s := by
  simp [step, fetchNext_placeObject o i s h hp]

/-- The step after table bits were placed runs the instruction they decode to. -/
theorem step_withFetchWord (nbits w : Nat) (i : Instr) (s : State) (h : decode (encodedOf nbits w) = .ok i)
    (hp : s.fetch = .port) : step (s.withFetchWord nbits w) = exec i s :=
  step_placeObject _ i s h hp

end Sys2Proof.Machine
end

