-- ==== Sys2Proof/Machine/Assembler.lean ====
section
/-! DEFINITION. The spec's textual form of instructions, table entries, responses and sources (R71), and the
pseudo-instructions with their expansions (R72). Nothing of the step uses this file. -/

namespace Sys2Proof.Machine

/-- A number in decimal. -/
def decimal (n : Nat) : String := Nat.repr n

/-- Texts joined by `sep`. -/
def joinText (sep : String) : List String → String
  | [] => ""
  | [x] => x
  | x :: y :: rest => x ++ sep ++ joinText sep (y :: rest)

/-- A byte as two hexadecimal digits. -/
def hexByte (b : Byte) : String :=
  String.ofList [(Nat.digitChar (b.toNat / 16)).toUpper, (Nat.digitChar (b.toNat % 16)).toUpper]

/-- A comparator term: `SLOT[s] == K` or `SLOT[s] != K` (R71). -/
def termText (t : Term) : String :=
  "SLOT[" ++ decimal t.slot.toNat ++ "] " ++ (if t.ne then "!= " else "== ") ++ decimal t.k.toNat

/-- The condition of a field entry: nothing, or `if` and the enabled terms joined by `and` (R71). -/
def conditionText (t0 t1 : Term) : String :=
  match [t0, t1].filter (·.en) with
  | [] => ""
  | ts => " if " ++ joinText " and " (ts.map termText)

/-- The text of an instruction; for a descriptor what stands right of `=` in its table entry, for a field without its
name (R71). -/
def instrText : Instr → String
  | .peek n => "PEEK " ++ decimal n.toNat
  | .read n => "READ " ++ decimal n.toNat
  | .bitsRead => "BITSREAD"
  | .release => "RELEASE"
  | .rdt k => "RDT " ++ decimal k.toNat
  | .run => "RUN"
  | .rdHdr => "RDHDR"
  | .const c => "CONST(" ++ decimal c.toNat ++ ")"
  | .fixed w => "FIXED(" ++ decimal w.toNat ++ ")"
  | .offset w o => "OFFSET(" ++ decimal w.toNat ++ ", " ++ decimal o.toNat ++ ")"
  | .psel a0 a1 a2 a3 => "PSEL(" ++ joinText ", " ([a0, a1, a2, a3].map fun a => decimal a.toNat) ++ ")"
  | .field codec t0 t1 d =>
    "CT[" ++ decimal codec.toNat ++ "] default " ++ decimal d.toNat ++ conditionText t0 t1

/-- The text of a response, without the arrow (R71). -/
def responseText : Response → String
  | .ok v => "Ok(" ++ decimal v.toNat ++ ")"
  | .err c e => "Err(" ++ decimal c.toNat ++ ", " ++ decimal e.toNat ++ ")"
  | .count f b => "Count(" ++ decimal f.toNat ++ ", " ++ decimal b.toNat ++ ")"

/-- The text of a source: its bytes in delivery order, then its end (R71); R71 gives none to a source that
never answers or is the parameter `Src`. -/
def sourceText (src : Source) : Option String :=
  match src.tail with
  | .eos => some (joinText " " (src.bytes.map hexByte ++ ["<eos>"]))
  | .err e => some (joinText " " (src.bytes.map hexByte ++ ["Err(" ++ decimal e.toNat ++ ")"]))
  | .never => none
  | .outside _ => none

/-- The pseudo-instructions (R72). -/
inductive Pseudo where
  /-- `BOOL`. -/
  | bool
  /-- `U32HW`. -/
  | u32hw
  /-- `SKIP n`. -/
  | skip (n : Nat)
  /-- `READW n`, `56 < n ≤ 112`. -/
  | readw (n : Nat)
deriving DecidableEq, Repr

/-- The operands a pseudo-instruction takes: those of the commands it expands to (R72). -/
def Pseudo.ok : Pseudo → Bool
  | .bool => true
  | .u32hw => true
  | .skip n => Config.nMin ≤ n && n ≤ Config.nMax
  | .readw n => Config.nMax < n && n ≤ 2 * Config.nMax

/-- The commands a pseudo-instruction expands to (R72). -/
def Pseudo.expand : Pseudo → List Instr
  | .bool => [.rdt 0]
  | .u32hw => [.rdt 6]
  | .skip n => [.read (BitVec.ofNat 6 n)]
  | .readw n => [.read 56, .read (BitVec.ofNat 6 (n - 56))]

/-- The value a pseudo-instruction has from the responses of its commands: none for SKIP; for READW the first in the
lower 56 bits (R72, R82). -/
def Pseudo.value (p : Pseudo) (vs : List Nat) : Option Nat :=
  match p, vs with
  | .bool, [v] => some v
  | .u32hw, [v] => some v
  | .readw _, [v1, v2] => some (v1 + v2 * 2 ^ 56)
  | _, _ => none

end Sys2Proof.Machine
end

