-- ==== Sys2Proof/Tests/Slice0.lean ====
section
/-! SUPPORT. Tests: the words of spec/30_encoding.md and the vectors of spec/95_test_vectors.md (each theorem names its
own), one step each; and, for every obligation with hypotheses, a state and operands that meet them. -/

namespace Sys2Proof.Tests

open Sys2Proof Sys2Proof.Machine

/-! ## Helpers -/

/-- The state after reset around the bytes of a source that then answers `Eos`. -/
def from' (bytes : List Byte) : State := State.resetWith ⟨bytes, .eos⟩ []

/-- The registers a reader vector lists: response, `ACC`, `NBITS`, `BITS_READ`, `PULLED`. -/
def readerView (o : Out) : Option (Option Response × Nat × Nat × Nat × Nat) :=
  match o with
  | .next t => some (t.resp, t.acc.toNat, t.nbits.toNat, t.bitsRead.toNat, t.pulled)
  | .fault _ => none
  | .refused _ => none

/-- What a stepped descriptor gives: its value, `BITS_READ`, `FAULT`, `FIDX`. -/
def valueView (o : Out) : Option (Option Word32 × Nat × Nat × Nat) :=
  match o with
  | .next t => some (t.value, t.bitsRead.toNat, t.fault.toNat, t.fidx.toNat)
  | .fault _ => none
  | .refused _ => none

/-- What a record vector lists beside: `FIDX`, `OWN`, the slots, the header record. -/
def recordView (o : Out) : Option (Nat × Bool × List SlotCell × HdrRecord) :=
  match o with
  | .next t => some (t.fidx.toNat, t.own, t.slots.toList, t.hdr)
  | .fault _ => none
  | .refused _ => none

/-- The outcome is a next state with `P`. -/
def nextWith (o : Out) (p : State → Bool) : Bool :=
  match o with
  | .next t => p t
  | .fault _ => false
  | .refused _ => false

/-- From `nextWith` to the existence of the next state. -/
theorem next_exists {o : Out} (P : State → Prop) [DecidablePred P] (h : nextWith o (fun t => decide (P t)) = true) :
    ∃ t, o = .next t ∧ P t := by
  cases o with
  | next t => exact ⟨t, rfl, of_decide_eq_true h⟩
  | fault f => exact absurd h (by simp [nextWith])
  | refused r => exact absurd h (by simp [nextWith])

/-- Eight slots: the given bound ones, then unbound ones. -/
def slotList (vs : List Word32) : List SlotCell :=
  vs.map SlotCell.bound ++ List.replicate (8 - vs.length) .unbound

/-! ## Decoding: every constructor's word, written out from R54, R55, R60, R63 -/

theorem test_decode_peek : decodeCommand 0b0001_000000_001100 = .ok (.peek 12) := by decide
theorem test_decode_read : decodeCommand 0b0010_000000_111000 = .ok (.read 56) := by decide
theorem test_decode_bitsRead : decodeCommand 0b0011_000000_000000 = .ok .bitsRead := by decide
theorem test_decode_release : decodeCommand 0b0100_000000_000000 = .ok .release := by decide
theorem test_decode_rdt : decodeCommand 0b0101_000000_001001 = .ok (.rdt 9) := by decide
theorem test_decode_run : decodeCommand 0b0110_000000_000000 = .ok .run := by decide
theorem test_decode_rdHdr : decodeCommand 0b0111_000000_000000 = .ok .rdHdr := by decide
/-- IMM 63:32 = 0xDEADBEEF, KIND = 0. -/
theorem test_decode_const : decodeCdesc 0xDEADBEEF_00000000 = .ok (.const 0xDEADBEEF) := by decide
/-- W = 5 in bits 7:2, KIND = 1: `000101_01` (R108, CT[1]). -/
theorem test_decode_fixed : decodeCdesc 0b000101_01 = .ok (.fixed 5) := by decide
/-- IMM = 1, W = 30, KIND = 2: `011110_10` (R108, CT[5]). -/
theorem test_decode_offset : decodeCdesc 0x00000001_0000007A = .ok (.offset 30 1) := by decide
/-- A3 = 5, A2 = 4, A1 = 3, A0 = 2, W = 0, KIND = 3 (R108, CT[6]). -/
theorem test_decode_psel : decodeCdesc 0b000101_000100_000011_000010_000000_11 = .ok (.psel 2 3 4 5) := by decide
/-- DEFAULT = 9; term 1 `K = 1, NE = 0, SLOT = 0, EN = 1`; term 0 `K = 0, NE = 1, SLOT = 3, EN = 1`; CODEC = 1 (R63). -/
theorem test_decode_field :
    decodeFdesc (0x9#32 ++ 0b00000001_0_000_1#13 ++ 0b00000000_1_011_1#13 ++ 0b000001#6) =
      .field 1 ⟨true, 3, true, 0⟩ ⟨true, 0, false, 1⟩ 9 := by decide

/-- R59: `rsv`, reserved opcodes, an argument where none is taken. -/
theorem test_decode_reserved :
    decodeCommand 0x2048 = .error .reservedBits ∧ decodeCommand 0x0000 = .error .reservedOpcode ∧
    decodeCommand 0x8000 = .error .reservedOpcode ∧ decodeCommand 0xF000 = .error .reservedOpcode ∧
    decodeCommand 0x3001 = .error .unusedArgument ∧ decodeCommand 0x7001 = .error .unusedArgument := by decide

/-- R65: a codec descriptor with a nonzero field its kind does not use. -/
theorem test_decode_unused_field :
    decodeCdesc 0x0000000100000005 = .error .unusedField ∧ decodeCdesc 0x0000000000000104 = .error .unusedField ∧
    decodeCdesc 0x0000000000000007 = .error .unusedField := by decide

/-- The words of the opcode table's rows read as their instructions; a 64-bit word that is no codec descriptor reads as a
field descriptor (log 11). -/
theorem test_decodeTableWord :
    decodeTableWord 16 0x1005 = some (.peek 5) ∧ decodeTableWord 16 0x3001 = none ∧
    decodeTableWord 64 0x15 = some (.fixed 5) ∧
    decodeTableWord 64 0x841 = some (.field 1 ⟨true, 0, false, 1⟩ ⟨false, 0, false, 0⟩ 0) := by decide

/-! ## Well-formedness: one ill-formed term for each check -/

theorem test_wf_count : Instr.wf tables 0 (.peek 0) = false ∧ Instr.wf tables 0 (.peek 57) = false ∧
    Instr.wf tables 0 (.read 0) = false ∧ Instr.wf tables 0 (.read 63) = false := by decide
theorem test_wf_index : Instr.wf tables 0 (.rdt 10) = false ∧
    Instr.wf tables 0 (.field 10 ⟨false, 0, false, 0⟩ ⟨false, 0, false, 0⟩ 0) = false := by decide
theorem test_wf_width : Instr.wf tables 0 (.fixed 0) = false ∧ Instr.wf tables 0 (.fixed 33) = false ∧
    Instr.wf tables 0 (.offset 0 1) = false := by decide
theorem test_wf_offset : Instr.wf tables 0 (.offset 32 1) = false ∧ Instr.wf tables 0 (.offset 32 0) = true := by decide
theorem test_wf_arm : Instr.wf tables 0 (.psel 2 6 4 5) = false ∧ Instr.wf tables 0 (.psel 2 3 4 10) = false := by decide
/-- R65: a disabled term with a nonzero field; R103 (c), (d): a slot not below the field's own index. -/
theorem test_wf_term : Instr.wf tables 5 (.field 1 ⟨false, 1, false, 0⟩ ⟨false, 0, false, 0⟩ 0) = false ∧
    Instr.wf tables 3 (.field 1 ⟨true, 3, false, 0⟩ ⟨false, 0, false, 0⟩ 0) = false := by decide
/-- The configuration of R108 to R110 is well-formed; a PSEL arm that is a PSEL, or too few fields, is not. -/
theorem test_wf_tables : tablesOk tables = true ∧ fieldCountOk ⟨[], [], []⟩ = false ∧
    codecTableOk ⟨[0x3, 0x3], [], []⟩ = false := by decide

/-! ## The reader -/

/-- V3. -/
theorem test_peek_crosses_bytes :
    readerView (exec (.peek 12) (from' [0xA5, 0x3C])) = some (some (.ok 0xCA5), 0x3CA5, 16, 0, 2) := by decide
/-- V7. -/
theorem test_peek_past_the_end :
    readerView (exec (.peek 9) (from' [0xAB])) = some (some (.err 2 0), 0xAB, 8, 0, 1) := by decide
/-- V5, third line: 56 bits from a window of 63. -/
theorem test_read_widest :
    readerView (exec (.read 56) { from' [0x99] with acc := 0x443BB32AA2199108, nbits := 63, bitsRead := 1, pulled := 8 })
      = some (some (.ok 0x3BB32AA2199108), 0x44, 7, 57, 8) := by decide
/-- V8. -/
theorem test_read_short_consumes_nothing :
    readerView (exec (.read 16) { from' [0xCD] with acc := 0xA, nbits := 4, bitsRead := 4, pulled := 1 })
      = some (some (.err 2 0), 0xCDA, 12, 4, 2) := by decide
/-- V10: BITSREAD and a READ after a source error. -/
theorem test_bitsRead_faulted :
    readerView (exec .bitsRead { from' [] with fault := 3, errinfo := 42, bitsRead := 8, pulled := 1 })
      = some (some (.count 3 8), 0, 0, 8, 1) := by decide
theorem test_read_source_error :
    readerView (exec (.read 1) { from' [] with src := ⟨[], .err 42⟩, bitsRead := 8, pulled := 1 })
      = some (some (.err 3 42), 0, 0, 8, 1) := by decide
/-- V13, third and fifth line. -/
theorem test_release :
    exec .release { from' [0x12] with acc := 0xEFCDA, nbits := 20, bitsRead := 4, pulled := 3 } =
      .next { from' [0x12] with bitsRead := 4, pulled := 3, own := false, resp := some (.ok 0) } := by rfl
theorem test_read_after_release :
    readerView (exec (.read 1) { from' [0x12] with own := false, bitsRead := 4, pulled := 3 })
      = some (some (.err 4 0), 0, 0, 4, 3) := by decide

/-! ## The codecs -/

/-- V27 and V30. -/
theorem test_rdt_psel :
    readerView (exec (.rdt 6) (from' [0xAC, 0x04])) = some (some (.ok 300), 0, 5, 11, 2) := by decide
theorem test_rdt_psel_payload_fails :
    readerView (exec (.rdt 6) (from' [0xAC])) = some (some (.err 2 0), 0x2B, 6, 2, 1) := by decide
/-- V29's entry, as a descriptor. -/
theorem test_const : valueView (exec (.const 7) (from' [])) = some (some 7, 0, 0, 0) := by decide
/-- V21 and V22. -/
theorem test_fixed : valueView (exec (.fixed 5) (from' [0x0A])) = some (some 10, 5, 0, 0) := by decide
theorem test_fixed_wide : valueView (exec (.fixed 16) (from' [0xFF, 0x0A])) = some (some 0x0AFF, 16, 0, 0) := by decide
/-- V23. -/
theorem test_offset : valueView (exec (.offset 9 1) (from' [0x2B, 0x01])) = some (some 300, 9, 0, 0) := by decide
theorem test_offset_refused : exec (.offset 32 1) (from' [0, 0, 0, 0]) = .refused .illFormedDescriptor := by rfl
/-- V28, 300 through arm 2; V31. -/
theorem test_psel : valueView (exec (.psel 2 3 4 5) (from' [0xAE, 0x04, 0x00])) = some (some 300, 20, 0, 0) := by decide
theorem test_psel_selector_fails : valueView (exec (.psel 2 3 4 5) (from' [])) = some (none, 0, 2, 0) := by decide

/-! ## The record -/

/-- `FT[2] = h_large` in the large regime: F5's field, here with its payload. -/
theorem test_field_present :
    recordView (exec (.field 6 ⟨true, 0, false, 0⟩ ⟨false, 0, false, 0⟩ 0)
      { from' [0xAC, 0x04] with slots := #v[.bound 0, .bound 0, .unbound, .unbound, .unbound, .unbound, .unbound, .unbound], fidx := 2 })
      = some (3, true, slotList [0, 0, 300], .invalid) := by decide
/-- `FT[1] = h_small` skipped in the large regime binds its default. -/
theorem test_field_skipped :
    recordView (exec (.field 1 ⟨true, 0, false, 1⟩ ⟨false, 0, false, 0⟩ 7)
      { from' [] with slots := #v[.bound 0, .unbound, .unbound, .unbound, .unbound, .unbound, .unbound, .unbound], fidx := 1 })
      = some (2, true, slotList [0, 7], .invalid) := by decide
/-- S11, the second record. -/
theorem test_run_after_a_record :
    recordView (exec .run { from' [0xD2] with
      acc := 0x58, nbits := 7, bitsRead := 9, pulled := 2, fidx := 6, hdr := .valid 88 88
      slots := #v[.bound 1, .bound 10, .bound 0, .bound 1, .bound 0, .bound 0, .unbound, .unbound] })
      = some (6, true, slotList [0, 0, 300, 6, 0, 0], .valid 375 300) := by decide
/-- F6's record, by RUN: it ends in `ratio`. -/
theorem test_run_short :
    recordView (exec .run (from' [0x01])) = some (3, true, slotList [1, 0, 0], .invalid) := by decide
/-- S7, the longest header. -/
theorem test_rdHdr_longest :
    readerView (exec .rdHdr (from' [0xFF, 0x0A, 0x06, 0x00, 0x20, 0x00, 0xF0, 0xFF, 0xFF, 0xFF, 0x0F]))
      = some (some (.ok 0x0004000140000000), 0, 0, 84, 11) := by decide
/-- F1. -/
theorem test_rdHdr_bytes_swapped :
    readerView (exec .rdHdr (from' [0x0A, 0xFF, 0x58, 0x69])) = some (some (.err 1 0), 0, 0, 16, 2) ∧
    recordView (exec .rdHdr (from' [0x0A, 0xFF, 0x58, 0x69])) = some (0, false, slotList [], .invalid) := by decide

/-! ## The step -/

/-- V16, three of its words, through the command port. -/
theorem test_step_illegal_words :
    [0x1000, 0x2048, 0x500A].all (fun w => decide (readerView (step ((from' [0xAB]).withFetchWord 16 w))
      = some (some (.err 4 0), 0, 0, 0, 0))) = true := by decide
/-- F11: a latched fault hides illegality. -/
theorem test_step_fault_hides_illegality :
    readerView (step ({ from' [] with fault := 2, bitsRead := 16, pulled := 2 }.withFetchWord 16 0x0000))
      = some (some (.err 2 0), 0, 0, 16, 2) := by decide
/-- A descriptor placed for the fetch runs as one step (log 4, 14). -/
theorem test_step_descriptor :
    valueView (step ((from' [0x2B, 0x01]).withFetchWord 64 0x0000000100000026)) = some (some 300, 9, 0, 0) := by decide
/-- R40, U6: a pull that is never answered. -/
theorem test_source_never_answers :
    exec (.read 1) { from' [] with src := ⟨[], .never⟩ } = .fault .sourceNeverAnswers := by rfl
/-- R138: a reset between commands clears the latched fault. -/
theorem test_reset_event :
    step { from' [] with fault := 2, own := false, host := [.reset ⟨[0xAB], .eos⟩] } = .next (from' [0xAB]) := by rfl

/-! ## The textual form (R71, R72) -/

theorem test_text : instrText (.read 16) = "READ 16" ∧ instrText (.psel 2 3 4 5) = "PSEL(2, 3, 4, 5)" ∧
    instrText (.field 6 ⟨true, 3, false, 0⟩ ⟨true, 0, true, 1⟩ 0) =
      "CT[6] default 0 if SLOT[3] == 0 and SLOT[0] != 1" ∧
    responseText (.count 2 16) = "Count(2, 16)" ∧ sourceText ⟨[0xAB], .err 42⟩ = some "AB Err(42)" := by decide
theorem test_pseudo : Pseudo.expand (.readw 72) = [.read 56, .read 16] ∧ Pseudo.expand .u32hw = [.rdt 6] ∧
    (Pseudo.readw 72).value [0x77665544332211, 0x9988] = some 0x998877665544332211 ∧
    (Pseudo.readw 113).ok = false := by decide

/-! ## Witnesses: states and operands that meet the hypotheses of each obligation, clause by clause -/

theorem active_from (bytes : List Byte) : isActive (from' bytes) := ⟨rfl, rfl⟩
theorem window_from (bytes : List Byte) : WindowOk (from' bytes) := ⟨Nat.zero_le _, Nat.one_pos⟩

/-- A state inside a session: three bits buffered, one byte pulled, two fields bound. -/
def inside : State :=
  { from' [0xAC, 0x04] with
    acc := 5, nbits := 3, bitsRead := 5, pulled := 1, fidx := 2
    slots := #v[.bound 0, .bound 0, .unbound, .unbound, .unbound, .unbound, .unbound, .unbound] }

theorem inside_active : isActive inside := ⟨rfl, rfl⟩
theorem inside_window : WindowOk inside := ⟨by decide, by decide⟩
theorem inside_regInv : RegInv inside :=
  ⟨inside_window, by decide, by decide, by decide, by decide, by decide, by decide, by decide, by decide⟩

/-- A state with a complete record, and a RUN pending on a stream that holds another one. -/
def recorded : State :=
  { from' [0x58, 0x69] with
    fidx := 6, hdr := .valid 88 88, host := [.command 0x6000]
    slots := #v[.bound 1, .bound 10, .bound 0, .bound 1, .bound 0, .bound 0, .unbound, .unbound] }

theorem recorded_regInv : RegInv recorded :=
  ⟨⟨by decide, by decide⟩, by decide, by decide, by decide, by decide, by decide, by decide, by decide, by decide⟩

theorem recorded_dims : DimsOk recorded := by
  intro w h e
  obtain ⟨rfl, rfl⟩ : 88 = w ∧ 88 = h := by simpa [recorded] using e
  decide

theorem witness_ResetPutsEveryRegisterAtItsValue : State.reset = State.resetWith ⟨[], .eos⟩ [] := rfl

/-- The ends of the operand ranges of R55. -/
theorem witness_LegalWordsAreThoseOfTheOpcodeMap :
    (1 ≤ (1 : BitVec 6).toNat ∧ (1 : BitVec 6).toNat ≤ 56) ∧ (1 ≤ (56 : BitVec 6).toNat ∧ (56 : BitVec 6).toNat ≤ 56) ∧
    (9 : BitVec 6).toNat ≤ 9 := by decide

theorem witness_OnlyResetStartsASession :
    (∃ (s : State) (src : Source) (rest : List HostEvent), s.fetch = .port ∧ s.host = .reset src :: rest) ∧
    ∃ s t, NoReset s ∧ step s = .next t ∧ s.fault ≠ 0 ∧ s.own = false ∧ s.host ≠ [] := by
  refine ⟨⟨{ from' [] with host := [.reset ⟨[], .eos⟩] }, _, _, rfl, rfl⟩,
    { from' [] with own := false, fault := 1, host := [.command 0x6000] }, ?_⟩
  obtain ⟨t, h, -⟩ := next_exists (o := step { from' [] with own := false, fault := 1, host := [.command 0x6000] })
    (fun _ => True) (by decide)
  exact ⟨t, by intro _ _ _; simp, h, by decide, rfl, by simp⟩

theorem witness_EveryStepKeepsTheInvariants : RegInv recorded ∧ ∃ t, step recorded = .next t ∧ t.fidx = 6 :=
  ⟨recorded_regInv, next_exists _ (by decide)⟩

theorem witness_EveryStepKeepsTheDimensionsInRange :
    DimsOk recorded ∧ ∃ t, step recorded = .next t ∧ t.hdr = .valid 375 300 :=
  ⟨recorded_dims, next_exists _ (by decide)⟩

theorem witness_EncodingADecodedObjectGivesTheObject :
    decode (.command 0x2038) = .ok (.read 56) ∧ decode (.codec 0x1440C203) = .ok (.psel 2 3 4 5) ∧
    decode (.field 0x841) = .ok (.field 1 ⟨true, 0, false, 1⟩ ⟨false, 0, false, 0⟩ 0) := by decide

theorem witness_StepRunsTheDecodedInstruction :
    (recorded.fetch = .port ∧ recorded.host = .command 0x6000 :: [] ∧ decode (.command 0x6000) = .ok .run) ∧
    (({ inside with fetch := .codec 0x5 } : State).fetch = .codec 0x5 ∧ decode (.codec 0x5) = .ok (.fixed 1)) ∧
    (({ inside with fetch := .field 0x46 } : State).fetch = .field 0x46 ∧
      decode (.field 0x46) = .ok (.field 6 ⟨true, 0, false, 0⟩ ⟨false, 0, false, 0⟩ 0)) ∧
    (inside.fetch = .port ∧ inside.host = []) := by decide

theorem witness_IllegalCommandsWriteNothingButFault :
    (legalWord tables 0x1000 = false ∧ legalWord tables 0x2048 = false ∧ legalWord tables 0x500A = false) ∧
    (let s : State := { inside with own := false, acc := 0, nbits := 0, host := [.command 0x2001] }
     s.fetch = .port ∧ s.host = .command 0x2001 :: [] ∧ s.fault = 0 ∧ s.own = false ∧ (0x2001 : Word16) ≠ 0x3000) :=
  ⟨⟨by decide, by decide, by decide⟩, rfl, rfl, rfl, rfl, by decide⟩

theorem witness_ALatchedFaultAnswersEveryCommand :
    let s : State := { inside with fault := 2, host := [.command 0x4000] }
    s.fetch = .port ∧ s.host = .command 0x4000 :: [] ∧ s.fault ≠ 0 ∧ (0x4000 : Word16) ≠ 0x3000 := by decide

theorem witness_EveryInstructionButBitsReadPassesTheGate :
    Instr.release ≠ .bitsRead ∧ ({ inside with fault := 2 } : State).fault ≠ 0 ∧
    (inside.fault = 0 ∧ ({ inside with own := false } : State).own = false) ∧
    (isDescriptor (.rdt 10) = false ∧ Instr.wf tables 0 (.rdt 10) = false) := by decide

theorem witness_EveryCommandAnswersWithTheFaultStatus :
    (isDescriptor .run = false ∧ ∃ t, exec .run (from' [0x58, 0x69]) = .next t ∧ t.fault = 0) ∧
    (isDescriptor (.read 9) = false ∧ ∃ t, exec (.read 9) (from' [0xAB]) = .next t ∧ t.fault = 2) ∧
    (isDescriptor .bitsRead = false ∧ ∃ t, exec .bitsRead inside = .next t ∧ t.resp = some (.count 0 5)) :=
  ⟨⟨rfl, next_exists _ (by decide)⟩, ⟨rfl, next_exists _ (by decide)⟩, ⟨rfl, next_exists _ (by decide)⟩⟩

theorem witness_PeekAnswersTheNextBits :
    isActive inside ∧ WindowOk inside ∧ 1 ≤ (19 : BitVec 6).toNat ∧ (19 : BitVec 6).toNat ≤ 56 ∧
    inside.offers (19 : BitVec 6).toNat ∧ ¬ inside.offers (20 : BitVec 6).toNat ∧ (20 : BitVec 6).toNat ≤ 56 :=
  ⟨inside_active, inside_window, by decide⟩

/-- A count about to overflow. -/
def nearLimit : State := { from' [0xFF] with bitsRead := 0xFFFFFFFFFFFFFFFF }

theorem witness_ReadAnswersAndConsumesTheNextBits :
    (isActive inside ∧ WindowOk inside ∧ 1 ≤ (19 : BitVec 6).toNat ∧ (19 : BitVec 6).toNat ≤ 56 ∧
      inside.offers (19 : BitVec 6).toNat ∧ inside.bitsRead.toNat + (19 : BitVec 6).toNat < 2 ^ 64) ∧
    (isActive nearLimit ∧ WindowOk nearLimit ∧ 1 ≤ (1 : BitVec 6).toNat ∧ nearLimit.offers (1 : BitVec 6).toNat ∧
      2 ^ 64 ≤ nearLimit.bitsRead.toNat + (1 : BitVec 6).toNat) ∧
    ¬ inside.offers (56 : BitVec 6).toNat :=
  ⟨⟨inside_active, inside_window, by decide⟩, ⟨⟨rfl, rfl⟩, ⟨by decide, by decide⟩, by decide⟩, by decide⟩

theorem witness_ReleaseDiscardsTheWindow : isActive inside := inside_active
theorem witness_ReleaseLosesTheBufferedBits : RegInv inside ∧ isActive inside := ⟨inside_regInv, inside_active⟩

theorem witness_PeekThenReadAgree :
    WindowOk inside ∧ isActive inside ∧
    (∃ t, exec (.peek 19) inside = .next t ∧ t.resp = some (.ok (BitVec.ofNat 64 (5 + 0x04AC * 8)))) ∧
    inside.bitsRead.toNat + (19 : BitVec 6).toNat < 2 ^ 64 :=
  ⟨inside_window, inside_active, next_exists _ (by decide), by decide⟩

theorem witness_NarrowerPeekPullsNothing :
    WindowOk inside ∧ isActive inside ∧
    (∃ t, exec (.peek 4) inside = .next t ∧ t.resp = some (.ok 5)) ∧
    1 ≤ (4 : BitVec 6).toNat ∧ (4 : BitVec 6).toNat ≤ (4 : BitVec 6).toNat :=
  ⟨inside_window, inside_active, next_exists _ (by decide), by decide⟩

theorem witness_AReadSplitsInTwo :
    WindowOk inside ∧ isActive inside ∧ 1 ≤ (12 : BitVec 6).toNat ∧ 1 ≤ (7 : BitVec 6).toNat ∧
    (19 : BitVec 6).toNat = (12 : BitVec 6).toNat + (7 : BitVec 6).toNat ∧
    (∃ t, exec (.read 19) inside = .next t ∧ t.resp = some (.ok (BitVec.ofNat 64 (5 + 0x04AC * 8)))) :=
  ⟨inside_window, inside_active, by decide, by decide, by decide, next_exists _ (by decide)⟩

theorem witness_TwoReadsJoinToAWiderValue :
    let s := from' [1, 2, 3, 4, 5, 6, 7, 8, 9, 10, 11, 12, 13, 14]
    WindowOk s ∧ isActive s ∧ 1 ≤ (56 : BitVec 6).toNat ∧ (56 : BitVec 6).toNat ≤ 56 ∧
    s.offers ((56 : BitVec 6).toNat + (56 : BitVec 6).toNat) ∧
    s.bitsRead.toNat + ((56 : BitVec 6).toNat + (56 : BitVec 6).toNat) < 2 ^ 64 :=
  ⟨window_from _, active_from _, by decide⟩

theorem witness_ReadBitsAreTheSourceBits :
    let s := from' [0xA5, 0x3C]
    isActive s ∧ s.acc = 0 ∧ s.nbits = 0 ∧ 1 ≤ (16 : BitVec 6).toNat ∧ (16 : BitVec 6).toNat ≤ 56 ∧
    s.offers (16 : BitVec 6).toNat ∧ s.bitsRead.toNat + (16 : BitVec 6).toNat < 2 ^ 64 :=
  ⟨active_from _, by decide⟩

theorem witness_PullsAreLazy :
    RegInv inside ∧ isActive inside ∧ (∃ t, exec (.peek 12) inside = .next t ∧ t.resp = some (.ok 0x565)) ∧
    (∃ t, exec (.read 3) inside = .next t ∧ t.resp = some (.ok 5)) :=
  ⟨inside_regInv, inside_active, next_exists _ (by decide), next_exists _ (by decide)⟩

theorem witness_TheWindowIsTightAfterAPull :
    RegInv inside ∧ isActive inside ∧
    ∃ t, exec (.peek 12) inside = .next t ∧ (t.resp = some (.ok 0x565) ∧ t.pulled ≠ inside.pulled) :=
  ⟨inside_regInv, inside_active, next_exists _ (by decide)⟩

theorem witness_ConstTakesNoBits : isActive inside := inside_active

theorem witness_FixedReturnsTheNextBits :
    (isActive inside ∧ WindowOk inside ∧ 1 ≤ (19 : BitVec 6).toNat ∧ (19 : BitVec 6).toNat ≤ 32 ∧
      inside.offers (19 : BitVec 6).toNat ∧ inside.bitsRead.toNat + (19 : BitVec 6).toNat < 2 ^ 64) ∧
    (¬ inside.offers (32 : BitVec 6).toNat ∧ (32 : BitVec 6).toNat ≤ 32) :=
  ⟨⟨inside_active, inside_window, by decide⟩, by decide⟩

theorem witness_OffsetAddsItsBias :
    (isActive inside ∧ WindowOk inside ∧ 1 ≤ (9 : BitVec 6).toNat ∧ (9 : BitVec 6).toNat ≤ 32 ∧
      (1 : Word32).toNat + 2 ^ (9 : BitVec 6).toNat - 1 < 2 ^ 32 ∧ inside.offers (9 : BitVec 6).toNat ∧
      inside.bitsRead.toNat + (9 : BitVec 6).toNat < 2 ^ 64) ∧
    (¬ inside.offers (32 : BitVec 6).toNat ∧ (0 : Word32).toNat + 2 ^ (32 : BitVec 6).toNat - 1 < 2 ^ 32) :=
  ⟨⟨inside_active, inside_window, by decide⟩, by decide⟩

/-- V27's 300; V30, failing in the payload; V31, failing in the selector. -/
theorem witness_PselReadsTheSelectorThenOneArm :
    (Instr.psel 2 3 4 5).wf tables 0 = true ∧
    (let s := from' [0xAC, 0x04]
     isActive s ∧ WindowOk s ∧ s.bits 0 2 = 0 ∧ s.wireCodec 2 2 = (300, 9) ∧ s.offers (2 + 9) ∧
       s.bitsRead.toNat + (2 + 9) < 2 ^ 64) ∧
    (let s := from' [0xAC]
     isActive s ∧ WindowOk s ∧ s.bits 0 2 = 0 ∧ s.offers 2 ∧ ¬ s.offers (2 + (s.wireCodec 2 2).2)) ∧
    (let s := from' []
     isActive s ∧ WindowOk s ∧ ¬ s.offers 2) :=
  ⟨by decide, ⟨active_from _, window_from _, by decide⟩, ⟨active_from _, window_from _, by decide⟩,
    ⟨active_from _, window_from _, by decide⟩⟩

/-- V27: the ends of the ranges of arms 0 and 3. -/
theorem witness_EveryArmDecodesItsRange :
    (let s := from' [0xFC, 0x07]
     isActive s ∧ WindowOk s ∧ 512 ≤ 2 ^ armBits 0 ∧ s.bits 0 (2 + armBits 0) = 0 + 4 * (512 - 1) ∧
       s.offers (2 + armBits 0) ∧ s.bitsRead.toNat + (2 + armBits 0) < 2 ^ 64) ∧
    (let s := from' [0x03, 0x00, 0x00, 0x00]
     isActive s ∧ WindowOk s ∧ s.bits 0 (2 + armBits 3) = 3 + 4 * (1 - 1) ∧ s.offers (2 + armBits 3)) :=
  ⟨⟨active_from _, window_from _, by decide⟩, ⟨active_from _, window_from _, by decide⟩⟩

theorem witness_RdtAnswersTheCodecValue :
    (let s := from' [0xAC, 0x04]
     isActive s ∧ WindowOk s ∧ (6 : BitVec 6).toNat < 10 ∧ s.wireCodec 0 6 = (300, 11) ∧ s.offers 11 ∧
       s.bitsRead.toNat + 11 < 2 ^ 64) ∧
    (let s := from' []
     isActive s ∧ WindowOk s ∧ (9 : BitVec 6).toNat < 10 ∧ s.offers (s.wireCodec 0 9).2) ∧
    (let s := from' [0xAC]
     isActive s ∧ WindowOk s ∧ ¬ s.offers (s.wireCodec 0 6).2) :=
  ⟨⟨active_from _, window_from _, by decide⟩, ⟨active_from _, window_from _, by decide⟩,
    ⟨active_from _, window_from _, by decide⟩⟩

theorem witness_IllFormedDescriptorsAreRefused :
    (decodeCdesc 0x0000000100000005 = .error .unusedField ∧
      ({ inside with fetch := .codec 0x0000000100000005 } : State).fetch = .codec 0x0000000100000005) ∧
    isActive inside ∧
    (isDescriptor (.fixed 33) = true ∧ (Instr.fixed 33).wf tables inside.fidx.toNat = false) ∧
    (inside.fidx.toNat < 6 ∧
      (Instr.field 1 ⟨true, 2, false, 0⟩ ⟨false, 0, false, 0⟩ 0).wf tables inside.fidx.toNat = false) ∧
    (isActive recorded ∧ isDescriptor (.field 0 ⟨false, 0, false, 0⟩ ⟨false, 0, false, 0⟩ 0) = true ∧
      6 ≤ recorded.fidx.toNat) :=
  ⟨by decide, inside_active, by decide, by decide, ⟨rfl, rfl⟩, by decide⟩

/-- `FT[2]` at `inside` is present with `SLOT[0] = 0`; with `NE` it is absent; a one-byte source is too short. -/
theorem witness_FieldStepBindsOneSlot :
    (isActive inside ∧ WindowOk inside ∧ inside.fidx.toNat < 6 ∧
      (Instr.field 6 ⟨true, 0, false, 0⟩ ⟨false, 0, false, 0⟩ 0).wf tables inside.fidx.toNat = true ∧
      termBound ⟨true, 0, false, 0⟩ inside = true ∧ termBound ⟨false, 0, false, 0⟩ inside = true ∧
      (termHolds ⟨true, 0, false, 0⟩ inside && termHolds ⟨false, 0, false, 0⟩ inside) = true ∧
      inside.offers (inside.wireCodec 0 6).2 ∧ inside.bitsRead.toNat + (inside.wireCodec 0 6).2 < 2 ^ 64) ∧
    (termHolds ⟨true, 0, true, 0⟩ inside && termHolds ⟨false, 0, false, 0⟩ inside) = false ∧
    (let s : State := { inside with src := ⟨[], .eos⟩ }
     WindowOk s ∧ (termHolds ⟨true, 0, false, 0⟩ s && termHolds ⟨false, 0, false, 0⟩ s) = true ∧
       ¬ s.offers (s.wireCodec 0 6).2) :=
  ⟨⟨inside_active, inside_window, by decide⟩, by decide, ⟨by decide, by decide⟩, by decide⟩

theorem witness_AConditionOnAnUnboundSlotStopsTheModel :
    let s : State := { inside with fidx := 4 }
    isActive s ∧ s.fidx.toNat < 6 ∧
    (Instr.field 1 ⟨true, 3, false, 0⟩ ⟨true, 0, false, 1⟩ 0).wf tables s.fidx.toNat = true ∧
    (termBound ⟨true, 3, false, 0⟩ s && termBound ⟨true, 0, false, 1⟩ s) = false :=
  ⟨⟨rfl, rfl⟩, by decide⟩

/-- S10, and the longest record of S7. -/
theorem witness_RunDecodesTheRecordOfTheStreamMap :
    (let s := from' [0x58, 0x69]
     isActive s ∧ WindowOk s ∧ s.wireHeader 0 = ⟨0, 0, 300, 6, 0, 0, 300, 375, 15⟩ ∧ s.offers 15) ∧
    (let s := from' [0x06, 0x00, 0x20, 0x00, 0xF0, 0xFF, 0xFF, 0xFF, 0x0F]
     isActive s ∧ WindowOk s ∧ (s.wireHeader 0).stop = 68 ∧ s.offers 68 ∧ s.bitsRead.toNat + 68 < 2 ^ 64) :=
  ⟨⟨active_from _, window_from _, by decide⟩, ⟨active_from _, window_from _, by decide⟩⟩

/-- S4. -/
theorem witness_RdHdrDecodesTheHeaderOfTheStreamMap :
    let s := from' [0xFF, 0x0A, 0x15, 0x3E]
    isActive s ∧ WindowOk s ∧ s.offers 16 ∧ s.bits 0 16 = 0x0AFF ∧
    s.wireHeader 16 = ⟨1, 10, 0, 0, 31, 0, 88, 256, 30⟩ ∧ s.offers 30 ∧ s.bitsRead.toNat + 30 < 2 ^ 64 :=
  ⟨active_from _, window_from _, by decide⟩

/-- F2 and F3. -/
theorem witness_RdHdrRejectsAnyOtherSignature :
    (let s := from' [0xFF, 0x0B, 0x58, 0x69]
     isActive s ∧ WindowOk s ∧ s.bitsRead.toNat + 16 < 2 ^ 64 ∧ s.offers 16 ∧ s.bits 0 16 ≠ 0x0AFF) ∧
    (let s := from' [0xFF]
     isActive s ∧ WindowOk s ∧ ¬ s.offers 16) :=
  ⟨⟨active_from _, window_from _, by decide⟩, ⟨active_from _, window_from _, by decide⟩⟩

/-- F6's record (it ends in `ratio`), F5 (in the payload of `h_large`, its selector consumed), F7 (in `w_large`), F8 (on a
source that reports an error), and a source that never answers. -/
theorem witness_AShortRecordLeavesNoHeader :
    (let s := from' [0x01]
     isActive s ∧ WindowOk s ∧ s.bitsRead.toNat + (s.wireHeader 0).stop < 2 ^ 64 ∧ ¬ s.offers (s.wireHeader 0).stop ∧
       3 = s.failingField 0 ∧ s.failingPosition 0 3 = 6) ∧
    (let s := from' [0xFF, 0x0A, 0x00]
     isActive s ∧ WindowOk s ∧ s.offers 16 ∧ s.bits 0 16 = 0x0AFF ∧ ¬ s.offers (s.wireHeader 16).stop ∧
       2 = s.failingField 16 ∧ s.failingPosition 16 2 = 19) ∧
    (let s := from' [0xFF, 0x0A, 0x58, 0x09, 0x44]
     isActive s ∧ WindowOk s ∧ s.offers 16 ∧ s.bits 0 16 = 0x0AFF ∧ ¬ s.offers (s.wireHeader 16).stop ∧
       5 = s.failingField 16 ∧ s.failingPosition 16 5 = 33 ∧
       (s.recordFails 16 5).slots.toList = slotList [0, 0, 300, 0, 0]) ∧
    (let s := State.resetWith ⟨[0xFF, 0x0A, 0x58], .err 5⟩ []
     isActive s ∧ WindowOk s ∧ s.offers 16 ∧ s.bits 0 16 = 0x0AFF ∧ ¬ s.offers (s.wireHeader 16).stop ∧
       2 = s.failingField 16) ∧
    (let s := State.resetWith ⟨[], .never⟩ []
     isActive s ∧ WindowOk s ∧ ¬ s.offers (s.wireHeader 0).stop ∧ 0 = s.failingField 0) :=
  ⟨⟨active_from _, window_from _, by decide⟩, ⟨active_from _, window_from _, by decide⟩,
    ⟨active_from _, window_from _, by decide⟩, ⟨⟨rfl, rfl⟩, ⟨by decide, by decide⟩, by decide⟩,
    ⟨⟨rfl, rfl⟩, ⟨by decide, by decide⟩, by decide⟩⟩

/-- The two regimes, each with and without a ratio: S10, S1 less its signature, S3 and S4 less theirs. -/
theorem witness_TheRecordIsAssembledFromTheSlots :
    (isActive (from' [0x58, 0x69]) ∧ ∃ t, exec .run (from' [0x58, 0x69]) = .next t ∧
      (t.fault = 0 ∧ t.slots[0] = .bound 0 ∧ t.slots[3] = .bound 6)) ∧
    (isActive (from' [0x58, 0x09, 0x44, 0x03]) ∧ ∃ t, exec .run (from' [0x58, 0x09, 0x44, 0x03]) = .next t ∧
      (t.fault = 0 ∧ t.slots[0] = .bound 0 ∧ t.slots[3] = .bound 0)) ∧
    (isActive (from' [0x55, 0x00]) ∧ ∃ t, exec .run (from' [0x55, 0x00]) = .next t ∧
      (t.fault = 0 ∧ t.slots[0] = .bound 1 ∧ t.slots[3] = .bound 1)) ∧
    (isActive (from' [0x15, 0x3E]) ∧ ∃ t, exec .run (from' [0x15, 0x3E]) = .next t ∧
      (t.fault = 0 ∧ t.slots[0] = .bound 1 ∧ t.slots[3] = .bound 0)) :=
  ⟨⟨active_from _, next_exists _ (by decide)⟩, ⟨active_from _, next_exists _ (by decide)⟩,
    ⟨active_from _, next_exists _ (by decide)⟩, ⟨active_from _, next_exists _ (by decide)⟩⟩

/-- RUN's four cases are those of `witness_TheRecordIsAssembledFromTheSlots`; RDHDR with nothing buffered, S3. -/
theorem witness_ARecordTakesTheBitsOfItsCase :
    let s := from' [0xFF, 0x0A, 0x55, 0x00]
    isActive s ∧ WindowOk s ∧ (∃ t, exec .rdHdr s = .next t ∧ t.fault = 0) ∧ s.nbits = 0 :=
  ⟨active_from _, window_from _, next_exists _ (by decide), rfl⟩

/-- S3 by RDHDR and by the three commands; F1's stream for the mismatch. -/
theorem witness_RdHdrIsReadRunRelease :
    (isActive (from' [0xFF, 0x0A, 0x55, 0x00]) ∧
      (∃ t, exec .rdHdr (from' [0xFF, 0x0A, 0x55, 0x00]) = .next t ∧ t.fault = 0)) ∧
    nextWith (exec (.read 16) (from' [0xFF, 0x0A, 0x55, 0x00])) (fun a => decide (a.resp = some (.ok 0x0AFF)) &&
      nextWith (exec .run a) (fun b => decide (b.fault = 0) && nextWith (exec .release b) fun _ => true)) = true ∧
    (isActive (from' [0x0A, 0xFF, 0x58]) ∧
      ∃ a, exec (.read 16) (from' [0x0A, 0xFF, 0x58]) = .next a ∧ a.resp = some (.ok 0xFF0A)) :=
  ⟨⟨active_from _, next_exists _ (by decide)⟩, by decide, ⟨active_from _, next_exists _ (by decide)⟩⟩

/-- S3's stream behind five other bits, already consumed: three signature bits are buffered. -/
def beforeHeader : State :=
  { from' [0x5F, 0xA1, 0x0A, 0x00] with acc := 7, nbits := 3, bitsRead := 5, pulled := 1 }

theorem beforeHeader_regInv : RegInv beforeHeader :=
  ⟨⟨by decide, by decide⟩, by decide, by decide, by decide, by decide, by decide, by decide, by decide, by decide⟩

theorem witness_RdHdrLeavesTheSourceAtTheNextByte :
    RegInv beforeHeader ∧ isActive beforeHeader ∧ beforeHeader.nbits.toNat ≤ 7 ∧
    ∃ t, exec .rdHdr beforeHeader = .next t ∧ t.fault = 0 :=
  ⟨beforeHeader_regInv, ⟨rfl, rfl⟩, by decide, next_exists _ (by decide)⟩

/-- After a success (F9), after BAD_SIGNATURE (F1) and after another failure (F4); and a step of a block that has given its
source up. -/
theorem witness_RdHdrIsOneShot :
    (∃ t, exec .rdHdr (from' [0xFF, 0x0A, 0x55, 0x00]) = .next t ∧ t.fault = 0) ∧
    (∃ t, exec .rdHdr (from' [0x0A, 0xFF, 0x58, 0x69]) = .next t ∧ t.fault = 1) ∧
    (∃ t, exec .rdHdr (from' [0xFF, 0x0A]) = .next t ∧ t.fault = 2) ∧
    (let s : State := { from' [0x12] with own := false, host := [.command 0x3000] }
     NoReset s ∧ s.own = false ∧ ∃ t, step s = .next t ∧ t.fault = 0) ∧
    isDescriptor .rdHdr = false ∧ Instr.rdHdr ≠ .bitsRead :=
  ⟨next_exists _ (by decide), next_exists _ (by decide), next_exists _ (by decide),
    ⟨by intro _ _ _; simp, rfl, next_exists _ (by decide)⟩, by decide, by decide⟩

theorem witness_WellFormedTablesReadNoUnboundSlot : tablesOk tables = true := by decide

theorem witness_ReaderCommandsFrame :
    (∃ t, exec (.peek 4) inside = .next t ∧ t.fault = 0) ∧ (∃ t, exec (.read 20) inside = .next t ∧ t.fault = 2) ∧
    (∃ t, exec (.rdt 6) inside = .next t ∧ t.fault = 0) :=
  ⟨next_exists _ (by decide), next_exists _ (by decide), next_exists _ (by decide)⟩

theorem witness_BitsReadAndReleaseFrame :
    (∃ t, exec .bitsRead inside = .next t ∧ t.fault = 0) ∧ (∃ t, exec .release inside = .next t ∧ t.fault = 0) :=
  ⟨next_exists _ (by decide), next_exists _ (by decide)⟩

theorem witness_CodecDescriptorsFrame :
    (∃ t, exec (.const 3) inside = .next t ∧ t.value = some 3) ∧
    (∃ t, exec (.fixed 3) inside = .next t ∧ t.value = some 5) ∧
    (∃ t, exec (.offset 20 1) inside = .next t ∧ t.fault = 2) ∧
    (∃ t, exec (.psel 9 0 2 7) inside = .next t ∧ t.value = some 1) :=
  ⟨next_exists _ (by decide), next_exists _ (by decide), next_exists _ (by decide), next_exists _ (by decide)⟩

theorem witness_FieldDescriptorFrame :
    (∃ t, exec (.field 0 ⟨false, 0, false, 0⟩ ⟨false, 0, false, 0⟩ 0) inside = .next t ∧ t.fidx = 3) ∧
    (∃ t, exec (.field 5 ⟨false, 0, false, 0⟩ ⟨false, 0, false, 0⟩ 0) inside = .next t ∧ t.fault = 2) :=
  ⟨next_exists _ (by decide), next_exists _ (by decide)⟩

theorem witness_RecordCommandsFrame :
    (∃ t, exec .run recorded = .next t ∧ t.fault = 0) ∧ (∃ t, exec .rdHdr recorded = .next t ∧ t.fault = 1) :=
  ⟨next_exists _ (by decide), next_exists _ (by decide)⟩

theorem witness_TheSourceOnlyMovesForward :
    (NoReset recorded ∧ ∃ t, step recorded = .next t ∧ t.pulled = 2) ∧
    (NoReset { recorded with own := false } ∧ ∃ t, step { recorded with own := false } = .next t ∧ t.fault = 4) :=
  ⟨⟨by intro _ _ _; simp [recorded], next_exists _ (by decide)⟩,
    ⟨by intro _ _ _; simp [recorded], next_exists _ (by decide)⟩⟩

theorem witness_NoBitIsInvented : WindowOk inside ∧ ∃ t, exec (.read 19) inside = .next t ∧ t.bitsRead = 24 :=
  ⟨inside_window, next_exists _ (by decide)⟩

/-- The bounds of R153 are met: READ 56 pulls seven bytes, the longest header eleven. -/
theorem witness_PullsOfAnInstructionAreBounded :
    (let s := from' [1, 2, 3, 4, 5, 6, 7, 8]
     WindowOk s ∧ ∃ t, exec (.read 56) s = .next t ∧ t.pulled = s.pulled + 7) ∧
    (let s := from' [0xFF, 0x0A, 0x06, 0x00, 0x20, 0x00, 0xF0, 0xFF, 0xFF, 0xFF, 0x0F]
     WindowOk s ∧ ∃ t, exec .rdHdr s = .next t ∧ t.pulled = s.pulled + 11) :=
  ⟨⟨window_from _, next_exists _ (by decide)⟩, ⟨window_from _, next_exists _ (by decide)⟩⟩

/-- The listed source of `inside` answers every pull: two bytes, then `Eos`. -/
theorem inside_answers : SourceAnswers inside := by
  intro k
  rcases k with _ | _ | k
  · decide
  · decide
  · rw [show Source.after (k + 2) inside.src = Source.after k ⟨[], .eos⟩ from rfl,
      after_stop (by intro b x h; simp [Source.pull] at h)]
    decide

theorem witness_EveryCommandEndsWhenTheSourceAnswers :
    isDescriptor .rdHdr = false ∧ WindowOk inside ∧ SourceAnswers inside ∧ inside.bitsRead.toNat + 84 < 2 ^ 64 :=
  ⟨rfl, inside_window, inside_answers, by decide⟩

theorem witness_OnlyReleaseAndRdHdrGiveTheSourceUp :
    (∃ t, exec .release inside = .next t ∧ t.own = false) ∧ inside.own = true ∧
    (∃ t, exec .rdHdr (from' [0x00, 0x00]) = .next t ∧ t.own = false) :=
  ⟨next_exists _ (by decide), rfl, next_exists _ (by decide)⟩

/-- One state for each cause. -/
theorem witness_EachCauseComesFromItsInstructions :
    (∃ t, exec .rdHdr (from' [0x00, 0x00]) = .next t ∧ t.fault = 1) ∧
    (∃ t, exec (.rdt 5) (from' [0x00, 0x00]) = .next t ∧ t.fault = 2) ∧
    (∃ t, exec .run (State.resetWith ⟨[0x58], .err 5⟩ []) = .next t ∧ t.fault = 3) ∧
    (∃ t, exec (.peek 57) (from' [0x00]) = .next t ∧ t.fault = 4) :=
  ⟨next_exists _ (by decide), next_exists _ (by decide), next_exists _ (by decide), next_exists _ (by decide)⟩

theorem witness_OnlyTheAnswersOfTheSourceMatter :
    inside.src.answersLike inside.src ∧ ∃ t, exec (.read 19) inside = .next t ∧ t.fault = 0 :=
  ⟨fun _ => ⟨rfl, rfl⟩, next_exists _ (by decide)⟩

/-- R37: whatever the parameter source in its state `σ` answers: where that is `Byte(b)`, a READ 8 at the start of a
session returns `b`, and the source stands in the state that the answer gives. -/
theorem test_outside_source (σ τ : Nat) (b : Byte) (h : Config.pull σ = some (.byte b, τ)) :
    ∃ t, exec (.read 8) (State.resetWith ⟨[], .outside σ⟩ []) = .next t ∧ t.resp = some (.ok (b.setWidth 64)) ∧
      t.src = ⟨[], .outside τ⟩ ∧ t.pulled = 1 := by
  have hp : Source.pull ⟨[], .outside σ⟩ = some (.byte b, ⟨[], .outside τ⟩) := by simp [Source.pull, h]
  have e : refill 8 (State.resetWith ⟨[], .outside σ⟩ []) =
      .done () (appendByte b (State.resetWith ⟨[], .outside τ⟩ [])) := by
    unfold refill refillLoop
    show (match Source.pull ⟨[], .outside σ⟩ with | some (.byte _, _) => _ | some (.eos, _) => _ | some (.err _, _) => _ | none => _) = _
    rw [hp]; rfl
  show ∃ t, answer ((peek 8 _).bind _) = .next t ∧ _
  rw [peek, e]
  have v : ∀ b : Byte, ((0 : Word64) ||| (b.setWidth 64 <<< (0 : Nat))) &&& mask 8 = b.setWidth 64 := by decide
  exact ⟨_, rfl, congrArg (fun x => some (Response.ok x)) (v b), rfl, rfl⟩

end Sys2Proof.Tests
end

section
/-! PROOFS. The bits that a READ answers, one by one, as bits of the bytes of the source (R8, R41, R42). -/

namespace Sys2Proof.Machine

/-- Bit `i` of the number that the bytes stand for is bit `i mod 8` of byte `i div 8` (R41). -/
theorem leNat_testBit (bs : List Byte) (i : Nat) :
    (leNat bs).testBit i = (bs.getD (i / 8) 0).getLsbD (i % 8) := by
  induction bs generalizing i with
  | nil => simp [leNat]
  | cons b bs ih =>
    have hsplit : leNat (b :: bs) = 2 ^ 8 * leNat bs + b.toNat := Nat.add_comm _ _
    rw [hsplit, Nat.testBit_two_pow_mul_add _ b.isLt]
    by_cases hi : i < 8
    · rw [if_pos hi, Nat.div_eq_of_lt hi, Nat.mod_eq_of_lt hi]; rfl
    · obtain ⟨j, rfl⟩ := Nat.exists_eq_add_of_le (Nat.le_of_not_lt hi)
      have hbyte : (8 + j) / 8 = j / 8 + 1 := by omega
      rw [if_neg hi, Nat.add_sub_cancel_left, ih j, hbyte, Nat.add_mod_left, List.getD_cons_succ]

/-- More pulls do not change a byte that fewer of them reach. -/
theorem ahead_getD_of_lt (src : Source) {a b j : Nat} (hab : a ≤ b) (hj : j < a) (d : Byte) :
    (src.ahead b).getD j d = (src.ahead a).getD j d := by
  rw [← ahead_take a b src hab, List.getD_eq_getElem?_getD, List.getD_eq_getElem?_getD, List.getElem?_take_of_lt hj]

/-- Bit `i` of the `n` stream bits from `pos` is stream bit `pos + i` (R42). -/
theorem bits_testBit (s : State) (pos n i : Nat) :
    (s.bits pos n).testBit i = (decide (i < n) && (s.window (s.pullsFor (pos + n))).testBit (pos + i)) := by
  rw [State.bits, Nat.testBit_mod_two_pow, Nat.testBit_div_two_pow, Nat.add_comm i pos]

/-- With nothing buffered the stream bits start with the next byte of the source (R41). -/
theorem window_of_empty (s : State) (hacc : s.acc = 0) (hnbits : s.nbits = 0) (k : Nat) :
    s.window k = leNat (s.src.ahead k) := by
  simp [State.window, hacc, hnbits]

/-- An empty window meets R16 and R18. -/
theorem windowOk_of_empty (s : State) (hacc : s.acc = 0) (hnbits : s.nbits = 0) : WindowOk s :=
  ⟨by simp [hnbits], by simp [hacc, hnbits]⟩

/-- With nothing buffered, bit `i` of the next `n` stream bits stands in the bytes that seven pulls deliver: for `n` up
to 56 no bit lies beyond them (R42, R73). -/
theorem bits_testBit_of_empty (s : State) (hacc : s.acc = 0) (hnbits : s.nbits = 0) {n : Nat} (hn : n ≤ 56) (i : Nat) :
    (s.bits 0 n).testBit i = (decide (i < n) && ((s.src.ahead 7).getD (i / 8) 0).getLsbD (i % 8)) := by
  rw [bits_testBit, Nat.zero_add, Nat.zero_add, window_of_empty s hacc hnbits, leNat_testBit]
  by_cases hi : i < n
  · have hreach : i / 8 < s.pullsFor n := by
      have hspec := pullsFor_spec s n
      simp only [hnbits, BitVec.ofNat_eq_ofNat, BitVec.toNat_ofNat, Nat.zero_mod] at hspec
      omega
    rw [ahead_getD_of_lt s.src (pullsFor_le_seven s n hn) hreach]
  · simp [hi]

/-- READ of a width in range, while the source is owned and no fault is latched, runs `read` (R77, R79). -/
theorem exec_read_active (n : BitVec 6) (s : State) (h : isActive s) (h1 : 1 ≤ n.toNat) (h56 : n.toNat ≤ 56) :
    exec (.read n) s = answer (read n.toNat s) :=
  have hlegal : commandLegal (.read n) = true := by
    simp [commandLegal, Instr.wf, countOk, Config.nMin, Config.nMax, h1, h56]
  gated_active (commandLegal (.read n)) (fun t => answer (read (countOf n) t)) s h hlegal

/-- Settles O24: READ answers `bits 0 n` of the stream, and with an empty window these are the bits of the bytes. -/
theorem readBitsAreTheSourceBits : Obligations.ReadBitsAreTheSourceBits := by
  intro n s hact hacc hnbits h1 h56 hoffers hcount
  have hread := read_ok n.toNat s (windowOk_of_empty s hacc hnbits) h56 hoffers hcount
  refine ⟨respond (.ok (BitVec.ofNat 64 (s.bits 0 n.toNat))) (s.consumed n.toNat), BitVec.ofNat 64 (s.bits 0 n.toNat),
    ?_, rfl, fun i => ?_⟩
  · rw [exec_read_active n s hact h1 h56, hread]; rfl
  · rw [BitVec.getLsbD_ofNat, bits_testBit_of_empty s hacc hnbits h56]
    by_cases hi : i < n.toNat
    · have h64 : i < 64 := by omega
      simp [h64]
    · simp [hi]

end Sys2Proof.Machine
end

section
/-! PROOFS. One rule for what a step leaves: a predicate holds of the next state when it holds of what the procedure of
the instruction ends in (R11, R77). Sequencing, the responses, the gate, `exec` and `step` are gone through once. -/

namespace Sys2Proof.Machine

/-- Every state that `p` ends in, by completing or by raising, has `P`. -/
def Res.All {α : Type} (P : State → Prop) : Res α → Prop
  | .done _ s => P s
  | .raised s => P s
  | .stuck _ => True
  | .refused _ => True

/-- A sequence ends in `Q` when its first part raises into `Q` and its second part ends in `Q`. -/
theorem Res.All.bind {α β : Type} {P Q : State → Prop} {p : Res α} {k : α → State → Res β} (hp : p.All P)
    (hPQ : ∀ t, P t → Q t) (hk : ∀ v t, p = .done v t → P t → (k v t).All Q) : (p.bind k).All Q := by
  cases p with
  | done v t => exact hk v t rfl hp
  | raised t => exact hPQ t hp
  | stuck f => trivial
  | refused r => trivial

theorem Res.All.mono {α : Type} {P Q : State → Prop} {p : Res α} (hp : p.All P) (hPQ : ∀ t, P t → Q t) : p.All Q := by
  cases p with
  | done v t => exact hPQ t hp
  | raised t => exact hPQ t hp
  | stuck f => trivial
  | refused r => trivial

/-- A sequence is done when both its parts are. -/
theorem bind_eq_done {α β : Type} {p : Res α} {k : α → State → Res β} {v : β} {t : State} :
    p.bind k = .done v t ↔ ∃ a u, p = .done a u ∧ k a u = .done v t := by
  cases p <;> simp [Res.bind]

/-- What only reads ends in `P` when reading keeps `P` and so does the raise at the end of the source. -/
theorem OnlyReads.all {α : Type} {P : State → Prop} {s : State} {p : Res α} (h : OnlyReads s p)
    (hdone : ∀ t, Reads s t → P t) (hraised : ∀ u t, Reads s u → RaisesEnd u t → P t) : p.All P := by
  cases p with
  | done v t => exact hdone t (h.1 v t rfl)
  | raised t => obtain ⟨u, hu, he⟩ := h.2 t rfl; exact hraised u t hu he
  | stuck f => trivial
  | refused r => trivial

/-- A condition changes no state and raises nothing (R96). -/
theorem present_all {P : State → Prop} {s : State} (h : P s) (t0 t1 : Term) : (present t0 t1 s).All P := by
  obtain ⟨hsame, hraised⟩ := present_same t0 t1 s
  cases e : present t0 t1 s with
  | done p t => rw [hsame p t e]; exact h
  | raised t => exact absurd e (hraised t)
  | stuck f => trivial
  | refused r => trivial

/-- `assemble()` changes no state and raises nothing (R111). -/
theorem assemble_all {P : State → Prop} {s : State} (h : P s) (T : Tables) : (assemble T s).All P := by
  obtain ⟨hsame, hraised⟩ := assemble_same T s
  cases e : assemble T s with
  | done p t => rw [hsame p t e]; exact h
  | raised t => exact absurd e (hraised t)
  | stuck f => trivial
  | refused r => trivial

/-- A field step reads, then binds; or it raises at the end of the source (R97). -/
theorem stepField_all {P : State → Prop} {T : Tables} {codec : BitVec 6} {t0 t1 : Term} {d : Word32} {s : State}
    (hbind : ∀ v u, Reads s u → P (bindField v u)) (hraised : ∀ u t, Reads s u → RaisesEnd u t → P t) :
    (stepField T codec t0 t1 d s).All P := by
  obtain ⟨hd, hr⟩ := stepField_cases T codec t0 t1 d s
  cases e : stepField T codec t0 t1 d s with
  | done x t => obtain ⟨-, v, u, hu, rfl, -⟩ := hd x t e; exact hbind v u hu
  | raised t => obtain ⟨-, u, hu, he⟩ := hr t e; exact hraised u t hu he
  | stuck f => trivial
  | refused r => trivial

/-- The loop over the fields binds slots, or raises at the end of the source (R99). -/
theorem runFields_all {P : State → Prop} {T : Tables} (hT : T.nf ≤ 8) {k : Nat} {s : State}
    (hdone : ∀ t, FieldsRun s t → P t) (hraised : ∀ u t, FieldsRun s u → RaisesEnd u t → P t) :
    (runFields T k s).All P := by
  obtain ⟨hd, hr⟩ := runFields_cases T hT k s
  cases e : runFields T k s with
  | done x t => exact hdone t (hd x t e).1
  | raised t => obtain ⟨u, hu, -, he⟩ := hr t e; exact hraised u t hu he
  | stuck f => trivial
  | refused r => trivial

theorem RaisesEnd.own {u t : State} (h : RaisesEnd u t) : t.own = u.own := by
  rcases h with ⟨x, -, rfl⟩ | ⟨e, x, -, rfl⟩ <;> rfl

theorem RaisesEnd.hdr {u t : State} (h : RaisesEnd u t) : t.hdr = u.hdr := by
  rcases h with ⟨x, -, rfl⟩ | ⟨e, x, -, rfl⟩ <;> rfl

/-- What the procedure that `i` runs in the ACTIVE phase ends in has `P` (R78 to R90, R97, R99, R115). -/
def EndsIn (P : State → Prop) (s : State) : Instr → Prop
  | .peek n => n.toNat ≤ 56 → (peek n.toNat s).All P
  | .read n => n.toNat ≤ 56 → (read n.toNat s).All P
  | .bitsRead => P s
  | .release => P (release s)
  | .rdt k => (decodeCodec tables k s).All P
  | .run => (runSchema tables s).All P
  | .rdHdr => (readHeader tables s).All P
  | .const _ => P s
  | .fixed w => (decodeFixed w s).All P
  | .offset w o => (decodeOffset w o s).All P
  | .psel a0 a1 a2 a3 => (decodePsel tables a0 a1 a2 a3 s).All P
  | .field codec t0 t1 dflt => (stepField tables codec t0 t1 dflt s).All P

/-- When reading, the raise at the end of the source, and binding a field give `P`, it is left to see to RELEASE, RUN
and RDHDR. -/
theorem endsIn_of_reads {P : State → Prop} {s : State} {i : Instr} (hdone : ∀ t, Reads s t → P t)
    (hraised : ∀ u t, Reads s u → RaisesEnd u t → P t) (hbind : ∀ v u, Reads s u → P (bindField v u))
    (hrelease : i = .release → P (release s))
    (hrun : i = .run → (runSchema tables s).All P) (hrdHdr : i = .rdHdr → (readHeader tables s).All P) :
    EndsIn P s i := by
  cases i with
  | peek n => exact fun _ => (peek_onlyReads _ s).all hdone hraised
  | read n => exact fun _ => (read_onlyReads _ s).all hdone hraised
  | bitsRead => exact hdone s (Reads.refl s)
  | release => exact hrelease rfl
  | rdt k => exact (decodeCodec_onlyReads tables k s).all hdone hraised
  | run => exact hrun rfl
  | rdHdr => exact hrdHdr rfl
  | const c => exact hdone s (Reads.refl s)
  | fixed w => exact (decodeFixed_onlyReads w s).all hdone hraised
  | offset w o => exact (decodeOffset_onlyReads w o s).all hdone hraised
  | psel a0 a1 a2 a3 => exact (decodePsel_onlyReads tables a0 a1 a2 a3 s).all hdone hraised
  | field codec t0 t1 dflt => exact stepField_all hbind hraised

/-- The command gate leaves the state but for the response, or raises ILLEGAL_COMMAND, or runs the rule (R77). -/
theorem gated_next {legal : Bool} {body : State → Out} {s t : State} (e : gated legal body s = .next t) :
    (∃ r, t = respond r s) ∨ t = raise .illegalCommand 0 s ∨ (isActive s ∧ legal = true ∧ body s = .next t) := by
  by_cases hf : s.fault = 0
  · by_cases hstop : legal = false ∨ s.own = false
    · rw [gated_stopped legal body s hf hstop] at e
      cases e; exact .inr (.inl rfl)
    · obtain ⟨hlegal, hown⟩ : legal = true ∧ s.own = true := by simpa using hstop
      rw [gated_active legal body s ⟨hf, hown⟩ hlegal] at e
      exact .inr (.inr ⟨⟨hf, hown⟩, hlegal, e⟩)
  · rw [gated_faulted legal body s hf] at e
    cases e; exact .inl ⟨.err s.fault s.errinfo, rfl⟩

/-- A word that decodes to nothing changes the response, or raises ILLEGAL_COMMAND (R59, R77). -/
theorem illegalWord_next {s t : State} (e : illegalWord s = .next t) :
    (∃ r, t = respond r s) ∨ t = raise .illegalCommand 0 s := by
  rcases gated_next e with h | h | ⟨-, h, -⟩
  · exact .inl h
  · exact .inr h
  · cases h

/-- `P` does not look at the ports and at the value of a stepped codec descriptor. -/
def PortFree (P : State → Prop) : Prop :=
  ∀ s host resp fetch value, P s → P { s with host := host, resp := resp, fetch := fetch, value := value }

theorem PortFree.respond {P : State → Prop} (hport : PortFree P) {s : State} (r : Response) (h : P s) :
    P (respond r s) := hport s s.host (some r) s.fetch s.value h

theorem PortFree.value {P : State → Prop} (hport : PortFree P) {s : State} (v : Option Word32) (h : P s) :
    P { s with value := v } := hport s s.host s.resp s.fetch v h

theorem PortFree.answer {P : State → Prop} (hport : PortFree P) {p : Res Word64} {t : State} (hp : p.All P)
    (e : answer p = .next t) : P t := by
  cases p with
  | done v u => cases e; exact hport.respond _ hp
  | raised u => cases e; exact hp
  | stuck f => cases e
  | refused r => cases e

theorem PortFree.yieldValue {P : State → Prop} (hport : PortFree P) {p : Res Word32} {t : State} (hp : p.All P)
    (e : yieldValue p = .next t) : P t := by
  cases p with
  | done v u => cases e; exact hport.value _ hp
  | raised u => cases e; exact hport.value _ hp
  | stuck f => cases e
  | refused r => cases e

theorem yieldUnit_all {P : State → Prop} {p : Res Unit} {t : State} (hp : p.All P) (e : yieldUnit p = .next t) :
    P t := by
  cases p with
  | done v u => cases e; exact hp
  | raised u => cases e; exact hp
  | stuck f => cases e
  | refused r => cases e

theorem PortFree.gated {P : State → Prop} (hport : PortFree P) {legal : Bool} {body : State → Out} {s t : State}
    (hs : P s) (hill : P (raise .illegalCommand 0 s))
    (hbody : isActive s → legal = true → body s = .next t → P t) (e : gated legal body s = .next t) : P t := by
  rcases gated_next e with ⟨r, rfl⟩ | rfl | ⟨hact, hlegal, h⟩
  · exact hport.respond r hs
  · exact hill
  · exact hbody hact hlegal h

/-- The gate lets PEEK and READ through up to 56 bits (R56). -/
theorem countOk_le {n : BitVec 6} (h : countOk n = true) : n.toNat ≤ 56 := by
  simp only [countOk, Bool.and_eq_true, decide_eq_true_eq] at h; exact h.2

/-- An instruction leaves `P` when the gate does and its procedure ends in `P`. -/
theorem exec_keeps {P : State → Prop} (hport : PortFree P) {i : Instr} {s t : State} (hs : P s)
    (hill : P (raise .illegalCommand 0 s)) (hi : isActive s → EndsIn P s i) (e : exec i s = .next t) : P t := by
  have hgate := fun legal body h => hport.gated (legal := legal) (body := body) (t := t) hs hill h
  cases i with
  | peek n => exact hgate _ (fun u => answer (peek n.toNat u)) (fun ha hl => hport.answer (hi ha (countOk_le hl))) e
  | read n => exact hgate _ (fun u => answer (read n.toNat u)) (fun ha hl => hport.answer (hi ha (countOk_le hl))) e
  | bitsRead => cases e; exact hport.respond _ hs
  | release => exact hgate _ (fun u => answer (.done 0 (release u))) (fun ha _ => hport.answer (hi ha)) e
  | rdt k =>
    refine hgate _ (fun u => answer ((decodeCodec tables k u).bind fun v w => .done (v.setWidth 64) w))
      (fun ha _ => hport.answer (Res.All.bind (hi ha) (fun _ h => h) fun _ _ _ h => h)) e
  | run => exact hgate _ (fun u => answer (runSchema tables u)) (fun ha _ => hport.answer (hi ha)) e
  | rdHdr => exact hgate _ (fun u => answer (readHeader tables u)) (fun ha _ => hport.answer (hi ha)) e
  | const c => exact hgate _ (fun u => yieldValue (.done c u)) (fun ha _ => hport.yieldValue (hi ha)) e
  | fixed w => exact hgate _ (fun u => yieldValue (decodeFixed w u)) (fun ha _ => hport.yieldValue (hi ha)) e
  | offset w o => exact hgate _ (fun u => yieldValue (decodeOffset w o u)) (fun ha _ => hport.yieldValue (hi ha)) e
  | psel a0 a1 a2 a3 =>
    exact hgate _ (fun u => yieldValue (decodePsel tables a0 a1 a2 a3 u)) (fun ha _ => hport.yieldValue (hi ha)) e
  | field codec t0 t1 dflt =>
    exact hgate _ (fun u => yieldUnit (stepField tables codec t0 t1 dflt u)) (fun ha _ => yieldUnit_all (hi ha)) e

/-- What a step does: it waits, or resets, or runs an instruction or an illegal word after taking its object off the
port or the latch (R138, R140, R59). -/
theorem step_next {s t : State} (e : step s = .next t) :
    t = s ∨ (∃ src host, t = State.resetWith src host) ∨
    ∃ u, (∃ host fetch, u = { s with host := host, fetch := fetch }) ∧
      ((∃ i, exec i u = .next t) ∨ illegalWord u = .next t) := by
  cases hfetch : s.fetch with
  | codec d =>
    cases hd : decode (.codec d) <;> simp only [step, fetchNext, hfetch, hd] at e
    · cases e
    · exact .inr (.inr ⟨_, ⟨_, _, rfl⟩, .inl ⟨_, e⟩⟩)
  | field d =>
    cases hd : decode (.field d) <;> simp only [step, fetchNext, hfetch, hd] at e
    · cases e
    · exact .inr (.inr ⟨_, ⟨_, _, rfl⟩, .inl ⟨_, e⟩⟩)
  | port =>
    rcases hhost : s.host with _ | ⟨w | src, rest⟩
    · simp only [step, fetchNext, hfetch, hhost] at e
      cases e; exact .inl rfl
    · cases hd : decode (.command w) <;> simp only [step, fetchNext, hfetch, hhost, hd] at e
      · exact .inr (.inr ⟨_, ⟨_, _, rfl⟩, .inr e⟩)
      · exact .inr (.inr ⟨_, ⟨_, _, rfl⟩, .inl ⟨_, e⟩⟩)
    · simp only [step, fetchNext, hfetch, hhost] at e
      cases e; exact .inr (.inl ⟨src, rest, rfl⟩)

/-- What holds after every reset, and is kept by every instruction and by ILLEGAL_COMMAND, is kept by every step. -/
theorem step_keeps {P : State → Prop} (hport : PortFree P) (hreset : ∀ src host, P (State.resetWith src host))
    (hill : ∀ s, P s → P (raise .illegalCommand 0 s)) (hexec : ∀ i s t, P s → exec i s = .next t → P t)
    {s t : State} (hs : P s) (e : step s = .next t) : P t := by
  rcases step_next e with rfl | ⟨src, host, rfl⟩ | ⟨u, ⟨host, fetch, rfl⟩, h⟩
  · exact hs
  · exact hreset src host
  · have hu := hport s host s.resp fetch s.value hs
    rcases h with ⟨i, h⟩ | h
    · exact hexec i _ t hu h
    · rcases illegalWord_next h with ⟨r, rfl⟩ | rfl
      · exact hport.respond r hu
      · exact hill _ hu

end Sys2Proof.Machine
end

section
/-! PROOFS. The register invariants (R16, R18, R19, R21, R22, R24, R25, R26, R83, R120): every update of the state keeps
them, hence every procedure that runs while the source is owned, hence every step. -/

namespace Sys2Proof.Machine

/-! ### The updates -/

theorem regInv_portFree : PortFree RegInv := fun _ _ _ _ _ h =>
  ⟨⟨h.window.bound, h.window.above⟩, h.account, h.released, h.cause, h.info, h.signature, h.index, h.slots, h.record⟩

/-- Reset and the start of a record bind no slot (R31, R99). -/
theorem boundBit_of_replicate {s : State} (h : s.slots = Vector.replicate 8 .unbound) (i : BitVec 3) :
    boundBit i s = false := by
  simp [boundBit, h]

theorem resetWith_regInv (src : Source) (host : List HostEvent) : RegInv (State.resetWith src host) where
  window := windowOk_of_empty _ rfl rfl
  account _ := rfl
  released h := Bool.noConfusion h
  cause := by simp
  info _ := rfl
  signature h := by simp at h
  index := Nat.zero_le _
  slots i := (boundBit_of_replicate rfl i).trans (by simp)
  record h := Bool.noConfusion h

/-- Another window, count and source position, as long as the bytes pulled are the bits consumed and buffered (R19). -/
theorem RegInv.rewindow {s : State} (h : RegInv s) (hown : s.own = true) {acc : Word64} {nbits : BitVec 7}
    {bitsRead : Word64} {src : Source} {pulled : Nat}
    (hwindow : WindowOk { s with acc := acc, nbits := nbits, bitsRead := bitsRead, src := src, pulled := pulled })
    (haccount : 8 * pulled = bitsRead.toNat + nbits.toNat) :
    RegInv { s with acc := acc, nbits := nbits, bitsRead := bitsRead, src := src, pulled := pulled } :=
  ⟨hwindow, fun _ => haccount, fun hrel => absurd (hown.symm.trans hrel) Bool.noConfusion, h.cause, h.info,
    h.signature, h.index, h.slots, h.record⟩

theorem consumed_regInv {s : State} (h : RegInv s) (hown : s.own = true) {n : Nat}
    (hcount : s.bitsRead.toNat + n < 2 ^ 64) : RegInv (s.consumed n) := by
  refine h.rewindow hown (consumed_window s n h.window) ?_
  have haccount := h.account hown
  have hbits : (s.bitsRead + BitVec.ofNat 64 n).toNat = s.bitsRead.toNat + n := consumed_bitsRead s n hcount
  have hnbits : (BitVec.ofNat 7 (s.nbits.toNat + 8 * s.pullsFor n - n)).toNat = _ := consumed_nbits s n h.window
  have hspec := pullsFor_spec s n
  rw [hbits, hnbits]
  omega

theorem delivered_regInv {s : State} (h : RegInv s) (hown : s.own = true) {k : Nat}
    (hfits : s.nbits.toNat + 8 * k ≤ 63) : RegInv (s.delivered k) := by
  refine h.rewindow hown (delivered_window s k h.window hfits) ?_
  have haccount := h.account hown
  have hnbits : (BitVec.ofNat 7 (s.nbits.toNat + 8 * k)).toNat = s.nbits.toNat + 8 * k := delivered_nbits s k hfits
  rw [hnbits]
  omega

theorem drained_regInv {s : State} (h : RegInv s) (hown : s.own = true) {n : Nat} (hn : n ≤ 56) :
    RegInv (s.drained n) := by
  have hfits := lookedAt_fits s n h.window hn
  have hlen := ahead_length_le (s.pullsFor n) s.src
  exact delivered_regInv h hown (by omega)

theorem causeCode_le (c : Cause) : (causeCode c).toNat ≤ 4 := by cases c <;> decide

/-- The code 1 is BAD_SIGNATURE's alone (R58). -/
theorem eq_badSignature_of_causeCode {c : Cause} (h : causeCode c = 1) : c = .badSignature := by
  cases c with
  | badSignature => rfl
  | endOfStream => exact absurd h (by decide)
  | sourceError => exact absurd h (by decide)
  | illegalCommand => exact absurd h (by decide)

/-- A raise latches one of the four causes; BAD_SIGNATURE comes after the release (R120, R124). -/
theorem RegInv.raise {s : State} (h : RegInv s) (c : Cause) (e : Byte)
    (hown : c = .badSignature → s.own = false) : RegInv (raise c e s) where
  window := ⟨h.window.bound, h.window.above⟩
  account := h.account
  released := h.released
  cause := causeCode_le c
  info hc := if_neg fun hs : c = .sourceError => hc (by rw [hs]; rfl)
  signature hc := hown (eq_badSignature_of_causeCode hc)
  index := h.index
  slots := h.slots
  record := h.record

theorem RegInv.release {s : State} (h : RegInv s) : RegInv (release s) :=
  ⟨windowOk_of_empty _ rfl rfl, fun hown => Bool.noConfusion hown, fun _ => ⟨rfl, rfl⟩, h.cause, h.info, fun _ => rfl,
    h.index, h.slots, h.record⟩

/-- Binding the field `FIDX` of a record that is not complete (R97). -/
theorem RegInv.bindField {s : State} (h : RegInv s) (v : Word32) (hlt : s.fidx.toNat < tables.nf) :
    RegInv (bindField v s) := by
  have hnf : tables.nf = 6 := rfl
  have hf : (s.fidx + 1).toNat = s.fidx.toNat + 1 := by
    simp [BitVec.toNat_add]; omega
  refine ⟨⟨h.window.bound, h.window.above⟩, h.account, h.released, h.cause, h.info, h.signature, ?_, fun i => ?_,
    fun hvalid => ?_⟩
  · rw [bindField_fidx_eq, hf]; exact hlt
  · rw [bindField_bound, h.slots, bindField_fidx_eq, hf, ← Bool.decide_or]
    exact decide_eq_decide.mpr (by omega)
  · exact absurd (h.record hvalid) (Nat.ne_of_lt hlt)

theorem RegInv.startRecord {s : State} (h : RegInv s) : RegInv (startRecord s) :=
  ⟨⟨h.window.bound, h.window.above⟩, h.account, h.released, h.cause, h.info, h.signature, Nat.zero_le _,
    fun i => (boundBit_of_replicate rfl i).trans (by simp), fun hvalid => Bool.noConfusion hvalid⟩

/-- The header record may become valid when every field is bound (R99). -/
theorem RegInv.validHeader {s : State} (h : RegInv s) (hdr : HdrRecord) (hf : s.fidx.toNat = tables.nf) :
    RegInv { s with hdr := hdr } :=
  ⟨⟨h.window.bound, h.window.above⟩, h.account, h.released, h.cause, h.info, h.signature, h.index, h.slots,
    fun _ => hf⟩

/-! ### The procedures, while the source is owned -/

/-- The invariants, with the source owned. -/
structure Owned (s : State) : Prop where
  inv : RegInv s
  own : s.own = true

theorem Owned.raise {s : State} (h : Owned s) {c : Cause} (e : Byte) (hc : c ≠ .badSignature) : Owned (raise c e s) :=
  ⟨h.inv.raise c e fun hs => absurd hs hc, h.own⟩

theorem Owned.setSrc {s : State} (h : Owned s) (src : Source) : Owned { s with src := src } :=
  ⟨h.inv.rewindow h.own ⟨h.inv.window.bound, h.inv.window.above⟩ (h.inv.account h.own), h.own⟩

theorem endRes_owned {α : Type} {s : State} (h : Owned s) : (endRes s : Res α).All Owned := by
  unfold endRes
  split
  · exact (h.setSrc _).raise _ (by decide)
  · exact (h.setSrc _).raise _ (by decide)
  · exact h
  · trivial

theorem peek_owned {s : State} (h : Owned s) {n : Nat} (hn : n ≤ 56) : (peek n s).All Owned := by
  by_cases ha : s.offers n
  · rw [peek_ok n s h.inv.window hn ha]
    exact ⟨delivered_regInv h.inv h.own (lookedAt_fits s n h.inv.window hn), h.own⟩
  · rw [peek_short n s h.inv.window hn ha]
    exact endRes_owned ⟨drained_regInv h.inv h.own hn, h.own⟩

theorem read_owned {s : State} (h : Owned s) {n : Nat} (hn : n ≤ 56) : (read n s).All Owned := by
  rcases read_cases n s h.inv.window hn with ⟨-, hcount, e⟩ | ⟨-, e⟩ | ⟨-, -, e⟩ <;> rw [e]
  · exact ⟨consumed_regInv h.inv h.own hcount, h.own⟩
  · exact endRes_owned ⟨drained_regInv h.inv h.own hn, h.own⟩
  · trivial

/-- Sequencing where both parts keep the invariants. -/
theorem Res.All.bindOwned {α β : Type} {p : Res α} {k : α → State → Res β} (hp : p.All Owned)
    (hk : ∀ v t, p = .done v t → Owned t → (k v t).All Owned) : (p.bind k).All Owned :=
  hp.bind (fun _ h => h) hk

theorem widthOk_le {w : BitVec 6} (h : widthOk w = true) : w.toNat ≤ 32 := by
  simp only [widthOk, Bool.and_eq_true, decide_eq_true_eq] at h; exact h.2

theorem decodeFixed_owned {s : State} (h : Owned s) (w : BitVec 6) : (decodeFixed w s).All Owned := by
  unfold decodeFixed
  split
  · rename_i hw
    exact (read_owned h ((widthOk_le hw).trans (by omega))).bindOwned fun _ _ _ ht => ht
  · trivial

theorem decodeOffset_owned {s : State} (h : Owned s) (w : BitVec 6) (o : Word32) : (decodeOffset w o s).All Owned := by
  unfold decodeOffset
  split
  · rename_i hw
    rw [Bool.and_eq_true] at hw
    exact (read_owned h ((widthOk_le hw.1).trans (by omega))).bindOwned fun _ _ _ ht => ht
  · trivial

theorem decodeArm_owned {s : State} (h : Owned s) (T : Tables) (a : BitVec 6) : (decodeArm T a s).All Owned := by
  unfold decodeArm
  split
  · exact h
  · exact decodeFixed_owned h _
  · exact decodeOffset_owned h _ _
  · trivial

theorem decodePsel_owned {s : State} (h : Owned s) (T : Tables) (a0 a1 a2 a3 : BitVec 6) :
    (decodePsel T a0 a1 a2 a3 s).All Owned := by
  unfold decodePsel
  split
  · exact (read_owned h (by decide)).bindOwned fun _ _ _ ht => decodeArm_owned ht T _
  · trivial

theorem decodeCodec_owned {s : State} (h : Owned s) (T : Tables) (k : BitVec 6) : (decodeCodec T k s).All Owned := by
  unfold decodeCodec
  split
  · exact h
  · exact decodeFixed_owned h _
  · exact decodeOffset_owned h _ _
  · exact decodePsel_owned h T _ _ _ _
  · trivial

theorem stepField_owned {s : State} (h : Owned s) (codec : BitVec 6) (t0 t1 : Term) (d : Word32) :
    (stepField tables codec t0 t1 d s).All Owned := by
  unfold stepField
  split
  · rename_i hlt
    split
    · refine (present_all h t0 t1).bindOwned fun p t e ht => ?_
      obtain rfl := (present_same t0 t1 s).1 p t e
      cases p with
      | true =>
        refine (decodeCodec_owned ht tables codec).bindOwned fun v u e hu => ⟨hu.inv.bindField v ?_, hu.own⟩
        rw [((decodeCodec_onlyReads tables codec t).1 v u e).fidx]; exact hlt
      | false => exact ⟨ht.inv.bindField d hlt, ht.own⟩
    · trivial
  · trivial

theorem fieldStep_owned {s : State} (h : Owned s) : (fieldStep tables s).All Owned := by
  rcases fieldStep_eq tables s with e | ⟨codec, t0, t1, d, -, e⟩ <;> rw [e]
  · trivial
  · exact stepField_owned h codec t0 t1 d

theorem runFields_owned {s : State} (h : Owned s) (k : Nat) : (runFields tables k s).All Owned := by
  induction k generalizing s with
  | zero => exact h
  | succ k ih =>
    unfold runFields
    split
    · exact (fieldStep_owned h).bindOwned fun _ _ _ ht => ih ht
    · exact h

/-- The loop over all fields ends with every field bound (R99). -/
theorem runFields_complete {T : Tables} (hT : T.nf ≤ 8) {s t : State} {x : Unit}
    (e : runFields T T.nf (startRecord s) = .done x t) : t.fidx.toNat = T.nf := by
  obtain ⟨-, hindex⟩ := (runFields_cases T hT T.nf (startRecord s)).1 x t e
  exact (hindex (Nat.zero_le _)).2 (Nat.le_add_left _ _)

theorem runSchema_owned {s : State} (h : Owned s) : (runSchema tables s).All Owned := by
  unfold runSchema
  split
  · refine (runFields_owned ⟨h.inv.startRecord, h.own⟩ tables.nf).bindOwned fun x t e ht => ?_
    refine (assemble_all ht tables).bindOwned fun wh u e' hu => ⟨hu.inv.validHeader _ ?_, hu.own⟩
    rw [(assemble_same tables t).1 wh u e']
    exact runFields_complete (by decide) e
  · trivial

/-- RDHDR gives the source up after a record, and before BAD_SIGNATURE (R115, R120). -/
theorem readHeader_regInv {s : State} (h : Owned s) : (readHeader tables s).All RegInv := by
  unfold readHeader
  refine (read_owned h (by decide)).bind (fun _ ht => ht.inv) fun v t _ ht => ?_
  split
  · exact (runSchema_owned ht).bind (fun _ hu => hu.inv) fun _ _ _ hu => hu.inv.release
  · exact ht.inv.release.raise .badSignature 0 fun _ => rfl

/-! ### The instructions and the step -/

theorem Res.All.regInv {α : Type} {p : Res α} (h : p.All Owned) : p.All RegInv := h.mono fun _ ht => ht.inv

theorem endsIn_regInv {s : State} (h : Owned s) (i : Instr) : EndsIn RegInv s i := by
  cases i with
  | peek n => exact fun hn => (peek_owned h hn).regInv
  | read n => exact fun hn => (read_owned h hn).regInv
  | bitsRead => exact h.inv
  | release => exact h.inv.release
  | rdt k => exact (decodeCodec_owned h tables k).regInv
  | run => exact (runSchema_owned h).regInv
  | rdHdr => exact readHeader_regInv h
  | const c => exact h.inv
  | fixed w => exact (decodeFixed_owned h w).regInv
  | offset w o => exact (decodeOffset_owned h w o).regInv
  | psel a0 a1 a2 a3 => exact (decodePsel_owned h tables a0 a1 a2 a3).regInv
  | field codec t0 t1 dflt => exact (stepField_owned h codec t0 t1 dflt).regInv

theorem illegalCommand_regInv {s : State} (h : RegInv s) : RegInv (raise .illegalCommand 0 s) :=
  h.raise .illegalCommand 0 fun hc => absurd hc (by decide)

theorem exec_regInv (i : Instr) (s t : State) (h : RegInv s) (e : exec i s = .next t) : RegInv t :=
  exec_keeps regInv_portFree h (illegalCommand_regInv h) (fun hact => endsIn_regInv ⟨h, hact.2⟩ i) e

/-- Settles O4: the reset state has the invariants, and every instruction keeps them. -/
theorem everyStepKeepsTheInvariants : Obligations.EveryStepKeepsTheInvariants :=
  fun _ _ h e => step_keeps regInv_portFree resetWith_regInv (fun _ h => illegalCommand_regInv h) exec_regInv h e

end Sys2Proof.Machine
end

section
/-! PROOFS. Conditions on any slots: a term that names an unbound slot stops the model (R24, R96), and what a field step
that is done has bound (R97). -/

namespace Sys2Proof.Machine

/-- A term that names an unbound slot stops the model (R24, R96). -/
theorem term_of_unbound {x : Term} {s : State} (h : termBound x s = false) : term x s = .stuck .unboundSlotRead := by
  obtain ⟨hen, hslot⟩ : x.en = true ∧ boundBit x.slot s = false := by simpa [termBound] using h
  unfold boundBit at hslot
  rw [term, if_pos hen, getSlot]
  cases hs : s.slots[x.slot.toNat] with
  | bound v => rw [hs] at hslot; cases hslot
  | unbound => rfl

/-- So does a condition one of whose terms does: both are evaluated (R96). -/
theorem present_of_unbound {t0 t1 : Term} {s : State} (h : (termBound t0 s && termBound t1 s) = false) :
    present t0 t1 s = .stuck .unboundSlotRead := by
  cases h0 : termBound t0 s with
  | false => rw [present, term_of_unbound h0]; rfl
  | true =>
    have h1 : termBound t1 s = false := by rw [h0] at h; exact h
    rw [present, term_of_bound t0 s h0]
    simp only [Res.bind]
    rw [term_of_unbound h1]

/-- A field step is done with its codec's value where the condition holds, else with the default (R97). -/
theorem stepField_done {T : Tables} {codec : BitVec 6} {t0 t1 : Term} {d : Word32} {s t : State} {x : Unit}
    (h : stepField T codec t0 t1 d s = .done x t) :
    ((termHolds t0 s && termHolds t1 s) = true ∧ ∃ v u, decodeCodec T codec s = .done v u ∧ t = bindField v u) ∨
    ((termHolds t0 s && termHolds t1 s) = false ∧ t = bindField d s) := by
  by_cases hf : s.fidx.toNat < T.nf
  · by_cases hw : (Instr.field codec t0 t1 d).wf T s.fidx.toNat = true
    · cases hb : termBound t0 s && termBound t1 s with
      | false => rw [stepField, if_pos hf, if_pos hw, present_of_unbound hb] at h; cases h
      | true =>
        rw [Bool.and_eq_true] at hb
        rw [stepField_eq T codec t0 t1 d s hf hw hb.1 hb.2] at h
        split at h
        · rename_i hc
          obtain ⟨v, u, hv, e⟩ := bind_eq_done.mp h
          cases e; exact .inl ⟨hc, v, u, hv, rfl⟩
        · rename_i hc
          cases h; exact .inr ⟨Bool.eq_false_iff.mpr hc, rfl⟩
    · rw [stepField, if_pos hf, if_neg hw] at h; cases h
  · rw [stepField, if_neg hf] at h; cases h

/-- Settles O35: the gate lets the descriptor through, and its condition reads the unbound slot. -/
theorem aConditionOnAnUnboundSlotStopsTheModel : Obligations.AConditionOnAnUnboundSlotStopsTheModel := by
  intro codec t0 t1 dflt s hact hf hw hunbound
  have hstep : stepField tables codec t0 t1 dflt s = .stuck .unboundSlotRead := by
    rw [stepField, if_pos (show s.fidx.toNat < tables.nf from hf), if_pos hw, present_of_unbound hunbound]; rfl
  have hgate := gated_active true (fun u => yieldUnit (stepField tables codec t0 t1 dflt u)) s hact rfl
  exact hgate.trans (by rw [hstep]; rfl)

end Sys2Proof.Machine
end

section
/-! PROOFS. The dimensions of a record (R26, R111 to R113): a read of `n` bits is below `2^n` whatever the window holds, so
every field of `FT` is bound to a value in its range, and `assemble()` makes dimensions in theirs. -/

namespace Sys2Proof.Machine

/-! ### The values of the codecs of `CT` -/

/-- What `read(n)` returns is masked to `n` bits (R74). -/
theorem read_lt {n : Nat} {s t : State} {v : Word64} (hn : n ≤ 64) (h : read n s = .done v t) : v.toNat < 2 ^ n := by
  obtain ⟨a, u, hpeek, h⟩ := bind_eq_done.mp h
  obtain ⟨x, w, -, hmask⟩ := bind_eq_done.mp hpeek
  obtain ⟨y, z, -, h⟩ := bind_eq_done.mp h
  cases h; cases hmask
  rw [mask_and _ _ hn]
  exact Nat.mod_lt _ (by positivity)

theorem decodeFixed_lt {w : BitVec 6} {s t : State} {v : Word32} (h : decodeFixed w s = .done v t) :
    v.toNat < 2 ^ w.toNat := by
  unfold decodeFixed at h
  split at h
  · obtain ⟨a, u, hread, e⟩ := bind_eq_done.mp h
    cases e
    have hlt := read_lt (Nat.le_of_lt w.isLt) hread
    exact lt_of_le_of_lt (by rw [valueOf, BitVec.toNat_setWidth]; exact Nat.mod_le _ _) hlt
  · cases h

theorem decodeOffset_range {w : BitVec 6} {o : Word32} {s t : State} {v : Word32}
    (h : decodeOffset w o s = .done v t) : o.toNat ≤ v.toNat ∧ v.toNat < o.toNat + 2 ^ w.toNat := by
  unfold decodeOffset at h
  split at h
  · rename_i hw
    have ho : o.toNat + 2 ^ w.toNat - 1 < 2 ^ 32 := by
      simp only [offsetOk, Bool.and_eq_true, decide_eq_true_eq] at hw; exact hw.2
    obtain ⟨a, u, hread, e⟩ := bind_eq_done.mp h
    cases e
    have hlt : a.toNat < 2 ^ w.toNat := read_lt (Nat.le_of_lt w.isLt) hread
    have hsum : (valueOf a + o).toNat = a.toNat + o.toNat := by
      rw [valueOf, BitVec.toNat_add, BitVec.toNat_setWidth, Nat.mod_eq_of_lt (show a.toNat < 2 ^ 32 by omega),
        Nat.mod_eq_of_lt (by omega)]
    omega
  · cases h

/-- The codec of a field of `FT` whose entry is a FIXED. -/
theorem decodeCodec_lt {k w : BitVec 6} (hk : codecAt tables k.toNat = some (.fixed w)) {s t : State} {v : Word32}
    (h : decodeCodec tables k s = .done v t) : v.toNat < 2 ^ w.toNat := by
  unfold decodeCodec at h
  rw [hk] at h
  exact decodeFixed_lt h

/-- The arms of entry 6 of `CT` add 1 to at most 30 bits (R108). -/
theorem pickArm_tables (sel : Word64) :
    ∃ w : BitVec 6, codecAt tables (pickArm 2 3 4 5 sel).toNat = some (.offset w 1) ∧ w.toNat ≤ 30 := by
  unfold pickArm
  split
  · exact ⟨9, by decide, by decide⟩
  · exact ⟨13, by decide, by decide⟩
  · exact ⟨18, by decide, by decide⟩
  · exact ⟨30, by decide, by decide⟩

/-- The codec of the two large fields, entry 6 of `CT`, returns a positive value (R113). -/
theorem decodeCodec_large {s t : State} {v : Word32} (h : decodeCodec tables 6 s = .done v t) :
    1 ≤ v.toNat ∧ v.toNat ≤ 2 ^ 30 := by
  have h6 : codecAt tables (6 : BitVec 6).toNat = some (.psel 2 3 4 5) := by decide
  unfold decodeCodec at h
  rw [h6] at h
  simp only [decodePsel] at h
  rw [if_pos (by decide)] at h
  obtain ⟨sel, u, -, harm⟩ := bind_eq_done.mp h
  obtain ⟨w, hw, h30⟩ := pickArm_tables sel
  unfold decodeArm at harm
  rw [hw] at harm
  have hrange := decodeOffset_range harm
  have hpow : 2 ^ w.toNat ≤ 2 ^ 30 := Nat.pow_le_pow_right (by omega) h30
  have hone : (1 : Word32).toNat = 1 := rfl
  omega

/-! ### The slots of a record -/

/-- The range of the value `v` of field `i` of `FT` over the slots `sl` before it (R106, R109): a large dimension is
positive where its condition holds. -/
def fieldRange (sl : Vector SlotCell 8) (i v : Nat) : Prop :=
  match i with
  | 0 => v < 2
  | 1 => v < 32
  | 2 => sl[0] = .bound 0 → 1 ≤ v ∧ v ≤ 2 ^ 30
  | 3 => v < 8
  | 4 => v < 32
  | 5 => sl[0] = .bound 0 → sl[3] = .bound 0 → 1 ≤ v ∧ v ≤ 2 ^ 30
  | _ => True

/-- The fields bound so far have values in their ranges. -/
def SlotsInRange (s : State) : Prop :=
  ∀ j : BitVec 3, j.toNat < s.fidx.toNat → ∀ v, s.slots[j.toNat] = .bound v → fieldRange s.slots j.toNat v.toNat

/-- The range of a field does not look at the slots from its own on. -/
theorem fieldRange_setIfInBounds {sl : Vector SlotCell 8} {i f v : Nat} (c : SlotCell) (hif : i ≤ f) :
    fieldRange (sl.setIfInBounds f c) i v ↔ fieldRange sl i v := by
  have h0 : 0 < i → (sl.setIfInBounds f c)[0] = sl[0] := fun h => Vector.getElem_setIfInBounds_ne _ (by omega)
  have h3 : 3 < i → (sl.setIfInBounds f c)[3] = sl[3] := fun h => Vector.getElem_setIfInBounds_ne _ (by omega)
  unfold fieldRange
  split
  · rfl
  · rfl
  · rw [h0 (by omega)]
  · rfl
  · rfl
  · rw [h0 (by omega), h3 (by omega)]
  · rfl

/-- The value of a field of `FT`, from its codec where its condition holds, else its default (R97, R109). -/
def FieldValue (s : State) (codec : BitVec 6) (t0 t1 : Term) (d v : Word32) : Prop :=
  ((termHolds t0 s && termHolds t1 s) = true ∧ ∃ u, decodeCodec tables codec s = .done v u) ∨
  ((termHolds t0 s && termHolds t1 s) = false ∧ v = d)

/-- A field with a FIXED codec and the default 0 holds a value of the codec's width. -/
theorem FieldValue.lt {s : State} {codec w : BitVec 6} {t0 t1 : Term} {v : Word32} (h : FieldValue s codec t0 t1 0 v)
    (hcodec : codecAt tables codec.toNat = some (.fixed w)) : v.toNat < 2 ^ w.toNat := by
  rcases h with ⟨-, u, hv⟩ | ⟨-, rfl⟩
  · exact decodeCodec_lt hcodec hv
  · simp

/-- A large field is positive where its condition holds. -/
theorem FieldValue.large {s : State} {t0 t1 : Term} {d v : Word32} (h : FieldValue s 6 t0 t1 d v)
    (h0 : termHolds t0 s = true) (h1 : termHolds t1 s = true) : 1 ≤ v.toNat ∧ v.toNat ≤ 2 ^ 30 := by
  rcases h with ⟨-, u, hv⟩ | ⟨hc, -⟩
  · exact decodeCodec_large hv
  · rw [h0, h1] at hc; cases hc

/-- A term `SLOT[j] = 0` holds on a slot bound to 0 (R64). -/
theorem termHolds_zero {s : State} {j : BitVec 3} (h : s.slots[j.toNat] = .bound 0) :
    termHolds ⟨true, j, false, 0⟩ s = true := by
  simp [termHolds, h]

/-- Every field of `FT` has a value in its range (R108, R109). -/
theorem FieldValue.inRange {s : State} {i : Nat} {codec : BitVec 6} {t0 t1 : Term} {d v : Word32}
    (h : FieldValue s codec t0 t1 d v) (hi : i < 6) (hd : fieldAt tables i = some (.field codec t0 t1 d)) :
    fieldRange s.slots i v.toNat := by
  obtain ⟨f0, f1, f2, f3, f4, f5⟩ := fieldAt_tables
  obtain ⟨c0, c1, -, -, -, -, -, c7, -, -⟩ := codecAt_tables
  interval_cases i
  · cases f0.symm.trans hd; exact h.lt c0
  · cases f1.symm.trans hd; exact h.lt c1
  · cases f2.symm.trans hd; exact fun small => h.large (termHolds_zero small) rfl
  · cases f3.symm.trans hd; exact h.lt c7
  · cases f4.symm.trans hd; exact h.lt c1
  · cases f5.symm.trans hd; exact fun small ratio => h.large (termHolds_zero ratio) (termHolds_zero small)

/-- One field step gives the slot `FIDX` a value in the range of its field. -/
theorem fieldStep_inRange {s t : State} {x : Unit} (h : fieldStep tables s = .done x t) :
    ∃ v u, Reads s u ∧ t = bindField v u ∧ fieldRange s.slots s.fidx.toNat v.toNat := by
  have hlt : s.fidx.toNat < 6 := ((fieldStep_cases tables s).1 x t h).1
  rcases fieldStep_eq tables s with e | ⟨codec, t0, t1, d, hd, e⟩ <;> rw [e] at h
  · cases h
  · rcases stepField_done h with ⟨hc, v, u, hv, rfl⟩ | ⟨hc, rfl⟩
    · exact ⟨v, u, (decodeCodec_onlyReads tables codec s).1 v u hv, rfl, FieldValue.inRange (.inl ⟨hc, u, hv⟩) hlt hd⟩
    · exact ⟨d, s, Reads.refl s, rfl, FieldValue.inRange (.inr ⟨hc, rfl⟩) hlt hd⟩

/-- Binding one more field with a value in its range. -/
theorem SlotsInRange.step {s u : State} {v : Word32} (h : SlotsInRange s) (hu : Reads s u) (hlt : s.fidx.toNat < 8)
    (hv : fieldRange s.slots s.fidx.toNat v.toNat) : SlotsInRange (bindField v u) := by
  intro j hj w hw
  have hf : (bindField v u).fidx.toNat = s.fidx.toNat + 1 := by
    simp [BitVec.toNat_add, hu.fidx]; omega
  rw [hf] at hj
  simp only [bindField_slots_eq, hu.slots, hu.fidx] at hw ⊢
  rw [fieldRange_setIfInBounds _ (by omega)]
  by_cases hjf : s.fidx.toNat = j.toNat
  · rw [← hjf]
    simp only [hjf, Vector.getElem_setIfInBounds_self] at hw
    cases hw; exact hv
  · rw [Vector.getElem_setIfInBounds_ne _ hjf] at hw
    exact h j (by omega) w hw

theorem startRecord_inRange (s : State) : SlotsInRange (startRecord s) := fun _ h => absurd h (Nat.not_lt_zero _)

theorem runFields_inRange {k : Nat} {s t : State} {x : Unit} (hs : SlotsInRange s)
    (h : runFields tables k s = .done x t) : SlotsInRange t := by
  induction k generalizing s with
  | zero => cases h; exact hs
  | succ k ih =>
    unfold runFields at h
    split at h
    · rename_i hlt
      obtain ⟨y, w, hstep, hrest⟩ := bind_eq_done.mp h
      obtain ⟨v, u, hu, rfl, hv⟩ := fieldStep_inRange hstep
      exact ih (hs.step hu (hlt.trans (by decide)) hv) hrest
    · cases h; exact hs

/-! ### The dimensions -/

/-- A dimension of the small regime (R111). -/
theorem smallDim_range {v : Word32} (h : v.toNat < 32) : 1 ≤ smallDim v ∧ smallDim v ≤ 2 ^ 8 := by
  unfold smallDim; omega

/-- The fields of a complete record that `assemble()` reads. -/
theorem SlotsInRange.getSlot {s t : State} {i : BitVec 3} {v : Word32} (hs : SlotsInRange s)
    (hf : s.fidx.toNat = tables.nf) (hi : i.toNat < tables.nf) (h : getSlot i s = .done v t) :
    fieldRange s.slots i.toNat v.toNat :=
  hs i (hf ▸ hi) v (getSlot_same i s v t h).2

/-- The regime bit is 0 where it is not 1. -/
theorem eq_zero_of_lt_two {x : Word32} (h : x.toNat < 2) (h1 : x ≠ 1) : x = 0 := by
  have hne : x.toNat ≠ 1 := fun e => h1 (BitVec.eq_of_toNat_eq e)
  exact BitVec.eq_of_toNat_eq (show x.toNat = 0 by omega)

section
variable {s : State} (hs : SlotsInRange s) (hf : s.fidx.toNat = tables.nf) {small : Word32}
  (hsmall : getSlot 0 s = .done small s)
include hs hf hsmall

theorem small_slot (h1 : small ≠ 1) : s.slots[0] = .bound 0 := by
  have h0 : small = 0 := eq_zero_of_lt_two (hs.getSlot hf (by decide) hsmall) h1
  rw [← h0]; exact (getSlot_same 0 s small s hsmall).2

/-- The height of a complete record (R111). -/
theorem assembleHeight_range {h : Nat} {t : State} (e : assembleHeight small s = .done h t) :
    1 ≤ h ∧ h ≤ 2 ^ 30 := by
  unfold assembleHeight at e
  split at e
  · obtain ⟨v, u, hv, e⟩ := bind_eq_done.mp e
    cases e
    have := smallDim_range (hs.getSlot hf (by decide) hv)
    omega
  · rename_i h1
    obtain ⟨v, u, hv, e⟩ := bind_eq_done.mp e
    cases e
    exact hs.getSlot hf (by decide) hv (small_slot hs hf hsmall h1)

/-- The width of a complete record: at least the height and at most twice it where a ratio gives it (R111, R112). -/
theorem assembleWidth_range {ratio : Word32} (hratio : getSlot 3 s = .done ratio s) {h w : Nat} {t : State}
    (h1 : 1 ≤ h) (h30 : h ≤ 2 ^ 30) (e : assembleWidth tables small ratio h s = .done w t) :
    1 ≤ w ∧ w ≤ 2 ^ 31 := by
  have hr : ratio.toNat < 8 := hs.getSlot hf (by decide) hratio
  unfold assembleWidth at e
  split at e
  · rename_i hpos
    have hrow : w = ratioWidth ratio.toNat h := by
      generalize ratio.toNat = r at *
      interval_cases r <;> cases e <;> rfl
    have := ratioWidth_bounds ratio.toNat h hpos hr
    omega
  · rename_i hzero
    split at e
    · obtain ⟨v, u, hv, e⟩ := bind_eq_done.mp e
      cases e
      have := smallDim_range (hs.getSlot hf (by decide) hv)
      omega
    · rename_i hlarge
      obtain ⟨v, u, hv, e⟩ := bind_eq_done.mp e
      cases e
      have hratio0 : s.slots[3] = .bound 0 := by
        have h0 : ratio = 0 := BitVec.eq_of_toNat_eq (show ratio.toNat = 0 by omega)
        rw [← h0]; exact (getSlot_same 3 s ratio s hratio).2
      obtain ⟨hlo, hhi⟩ := hs.getSlot hf (by decide) hv (small_slot hs hf hsmall hlarge) hratio0
      exact ⟨hlo, hhi.trans (by omega)⟩

end

/-- `assembleHeight` changes no state. -/
theorem assembleHeight_same {small : Word32} {s t : State} {h : Nat} (e : assembleHeight small s = .done h t) :
    t = s := by
  unfold assembleHeight at e
  split at e
  all_goals
    obtain ⟨v, u, hv, e⟩ := bind_eq_done.mp e
    cases e
    exact (getSlot_same _ _ _ _ hv).1

/-- A complete record with its fields in their ranges assembles to dimensions in theirs (R111 to R113). -/
theorem assemble_range {s t : State} {wh : Word32 × Word32} (hs : SlotsInRange s) (hf : s.fidx.toNat = tables.nf)
    (e : assemble tables s = .done wh t) :
    1 ≤ wh.1.toNat ∧ wh.1.toNat ≤ 2 ^ 31 ∧ 1 ≤ wh.2.toNat ∧ wh.2.toNat ≤ 2 ^ 30 := by
  obtain ⟨small, t0, hsmall, e3⟩ := bind_eq_done.mp e
  obtain rfl := (getSlot_same _ _ _ _ hsmall).1
  obtain ⟨ratio, t3, hratio, eh⟩ := bind_eq_done.mp e3
  obtain rfl := (getSlot_same _ _ _ _ hratio).1
  obtain ⟨h, th, hheight, ew⟩ := bind_eq_done.mp eh
  obtain rfl := assembleHeight_same hheight
  obtain ⟨w, tw, hwidth, edone⟩ := bind_eq_done.mp ew
  obtain ⟨h1, h30⟩ := assembleHeight_range hs hf hsmall hheight
  obtain ⟨w1, w31⟩ := assembleWidth_range hs hf hsmall hratio h1 h30 hwidth
  rw [if_pos (by omega)] at edone
  cases edone
  simp only [BitVec.toNat_ofNat]
  rw [Nat.mod_eq_of_lt (show w < 2 ^ 32 by omega), Nat.mod_eq_of_lt (show h < 2 ^ 32 by omega)]
  exact ⟨w1, w31, h1, h30⟩

/-- `DimsOk` looks at the header record only. -/
theorem DimsOk.congr {s t : State} (h : DimsOk s) (hhdr : t.hdr = s.hdr) : DimsOk t :=
  fun w h' hv => h w h' (hhdr ▸ hv)

theorem dimsOk_portFree : PortFree DimsOk := fun _ _ _ _ _ h => h

theorem runSchema_dimsOk (s : State) : (runSchema tables s).All DimsOk := by
  unfold runSchema
  split
  · refine Res.All.bind (P := fun t => t.hdr = .invalid) ?_ ?_ fun x t e ht => ?_
    · exact runFields_all (by decide) (fun _ r => r.hdr) (fun _ _ r e => e.hdr.trans r.hdr)
    · exact fun _ ht _ _ hv => by rw [ht] at hv; cases hv
    · refine Res.All.bind (P := fun t => t.hdr = .invalid) (assemble_all ht tables) ?_ fun wh u e' _ => ?_
      · exact fun _ ht _ _ hv => by rw [ht] at hv; cases hv
      · intro w h hv
        cases hv
        exact assemble_range (runFields_inRange (startRecord_inRange s) e) (runFields_complete (by decide) e) e'
  · trivial

/-- RDHDR leaves the header record to its RUN (R115). -/
theorem readHeader_dimsOk {s : State} (h : DimsOk s) : (readHeader tables s).All DimsOk := by
  unfold readHeader
  refine Res.All.bind (P := DimsOk) ?_ (fun _ ht => ht) fun v t _ ht => ?_
  · exact (read_onlyReads Config.sigW s).all (fun _ r => h.congr r.hdr) fun _ _ r e => h.congr (e.hdr.trans r.hdr)
  · split
    · exact (runSchema_dimsOk t).bind (fun _ hu => hu) fun _ _ _ hu => hu
    · exact ht

theorem exec_dimsOk (i : Instr) (s t : State) (h : DimsOk s) (e : exec i s = .next t) : DimsOk t :=
  exec_keeps dimsOk_portFree h h
    (fun _ => endsIn_of_reads (fun _ r => h.congr r.hdr) (fun _ _ r e => h.congr (e.hdr.trans r.hdr))
      (fun _ _ r => h.congr r.hdr) (fun _ => h) (fun _ => runSchema_dimsOk s) (fun _ => readHeader_dimsOk h)) e

theorem resetWith_dimsOk (src : Source) (host : List HostEvent) : DimsOk (State.resetWith src host) :=
  fun _ _ hv => by cases hv

/-- Settles O5: only a record that completes sets the header, to dimensions assembled from fields in their ranges. -/
theorem everyStepKeepsTheDimensionsInRange : Obligations.EveryStepKeepsTheDimensionsInRange :=
  fun _ _ h e => step_keeps dimsOk_portFree resetWith_dimsOk (fun _ h => h) exec_dimsOk h e

end Sys2Proof.Machine
end

section
/-! PROOFS. Well-formed tables (R24, R66, R103): no procedure over them reads an unbound slot or meets an ill-formed
descriptor, whatever they are. -/

namespace Sys2Proof.Machine

/-- A stop that a well-formed table may still meet: not an unbound slot, not an ill-formed descriptor, not a field step
after the last field. -/
def Res.Sound {α : Type} : Res α → Prop
  | .done _ _ => True
  | .raised _ => True
  | .stuck f => f ≠ .unboundSlotRead
  | .refused r => r ≠ .illFormedDescriptor ∧ r ≠ .noFieldSelected

theorem Res.Sound.bind {α β : Type} {p : Res α} {k : α → State → Res β} (hp : p.Sound)
    (hk : ∀ v t, p = .done v t → (k v t).Sound) : (p.bind k).Sound := by
  cases p with
  | done v t => exact hk v t rfl
  | raised t => trivial
  | stuck f => exact hp
  | refused r => exact hp

theorem illFormedTable_sound {α : Type} : (.refused .illFormedTable : Res α).Sound := by
  constructor <;> decide

/-! ### Reading -/

theorem refillLoop_sound (k n : Nat) (s : State) : (refillLoop k n s).Sound := by
  induction k generalizing s with
  | zero => trivial
  | succ k ih =>
    unfold refillLoop
    split
    · split
      · exact ih _
      · trivial
      · trivial
      · exact fun h => by cases h
    · trivial

theorem consume_sound (n : Nat) (s : State) : (consume n s).Sound := by
  unfold consume
  split
  · trivial
  · constructor <;> decide

theorem peek_sound (n : Nat) (s : State) : (peek n s).Sound :=
  (refillLoop_sound 8 n s).bind fun _ _ _ => trivial

theorem read_sound (n : Nat) (s : State) : (read n s).Sound :=
  (peek_sound n s).bind fun _ t _ => (consume_sound n t).bind fun _ _ _ => trivial

/-! ### The codecs of a well-formed table -/

theorem decodeFixed_sound {w : BitVec 6} (hw : widthOk w = true) (s : State) : (decodeFixed w s).Sound := by
  rw [decodeFixed, if_pos hw]
  exact (read_sound _ s).bind fun _ _ _ => trivial

theorem decodeOffset_sound {w : BitVec 6} {o : Word32} (hw : (widthOk w && offsetOk w o) = true) (s : State) :
    (decodeOffset w o s).Sound := by
  rw [decodeOffset, if_pos hw]
  exact (read_sound _ s).bind fun _ _ _ => trivial

/-- Every entry of a well-formed codec table is well-formed (R66). -/
theorem codecAt_wf {T : Tables} (hT : codecTableOk T = true) {k : Nat} {i : Instr} (h : codecAt T k = some i) :
    i.wf T 0 = true := by
  have hk : k < T.nc := by
    by_contra hge
    have hnone : T.ct[k]? = none := List.getElem?_eq_none (Nat.le_of_not_lt hge)
    rw [codecAt, hnone] at h
    cases h
  have := List.all_eq_true.mp hT k (List.mem_range.mpr hk)
  rw [h] at this
  exact this

theorem decodeArm_sound {T : Tables} (hT : codecTableOk T = true) (a : BitVec 6) (s : State) :
    (decodeArm T a s).Sound := by
  unfold decodeArm
  split
  · trivial
  · rename_i h; exact decodeFixed_sound (codecAt_wf hT h) s
  · rename_i h; exact decodeOffset_sound (codecAt_wf hT h) s
  · exact illFormedTable_sound

theorem decodePsel_sound {T : Tables} (hT : codecTableOk T = true) {a0 a1 a2 a3 : BitVec 6}
    (hw : (armOk T a0 && armOk T a1 && armOk T a2 && armOk T a3) = true) (s : State) :
    (decodePsel T a0 a1 a2 a3 s).Sound := by
  rw [decodePsel, if_pos hw]
  exact (read_sound _ s).bind fun _ t _ => decodeArm_sound hT _ t

theorem decodeCodec_sound {T : Tables} (hT : codecTableOk T = true) (k : BitVec 6) (s : State) :
    (decodeCodec T k s).Sound := by
  unfold decodeCodec
  split
  · trivial
  · rename_i h; exact decodeFixed_sound (codecAt_wf hT h) s
  · rename_i h; exact decodeOffset_sound (codecAt_wf hT h) s
  · rename_i h; exact decodePsel_sound hT (codecAt_wf hT h) s
  · exact illFormedTable_sound

/-! ### The record -/

/-- The slots below `FIDX` are bound (R24, R102). -/
def BoundBelow (s : State) : Prop := ∀ j : BitVec 3, j.toNat < s.fidx.toNat → boundBit j s = true

/-- A well-formed term of the field `FIDX` names a bound slot (R103 (c)). -/
theorem BoundBelow.termBound {s : State} (h : BoundBelow s) {x : Term} (hx : termOk s.fidx.toNat x = true) :
    termBound x s = true := by
  unfold Machine.termBound
  cases hen : x.en with
  | false => rfl
  | true =>
    rw [termOk, if_pos hen, decide_eq_true_eq] at hx
    exact h x.slot hx

theorem stepField_sound {T : Tables} (hT : codecTableOk T = true) {codec : BitVec 6} {t0 t1 : Term} {d : Word32}
    {s : State} (hs : BoundBelow s) (hf : s.fidx.toNat < T.nf)
    (hw : (Instr.field codec t0 t1 d).wf T s.fidx.toNat = true) : (stepField T codec t0 t1 d s).Sound := by
  obtain ⟨⟨-, h0⟩, h1⟩ : (indexOk T codec = true ∧ termOk s.fidx.toNat t0 = true) ∧ termOk s.fidx.toNat t1 = true := by
    simpa only [Instr.wf, Bool.and_eq_true] using hw
  rw [stepField_eq T codec t0 t1 d s hf hw (hs.termBound h0) (hs.termBound h1)]
  split
  · exact (decodeCodec_sound hT codec s).bind fun _ _ _ => trivial
  · trivial

/-- Every field of a well-formed field table is well-formed at its own index (R103). -/
theorem fieldAt_wf {T : Tables} (hT : fieldTableOk T = true) {i : Nat} (hi : i < T.nf) :
    ∃ codec t0 t1 d, fieldAt T i = some (.field codec t0 t1 d) ∧ (Instr.field codec t0 t1 d).wf T i = true := by
  have hwf := List.all_eq_true.mp hT i (List.mem_range.mpr hi)
  cases hat : fieldAt T i with
  | none => rw [hat] at hwf; cases hwf
  | some f =>
    obtain ⟨codec, t0, t1, d, rfl⟩ := fieldAt_field T i f hat
    rw [hat] at hwf
    exact ⟨codec, t0, t1, d, rfl, hwf⟩

theorem fieldStep_sound {T : Tables} (hc : codecTableOk T = true) (hF : fieldTableOk T = true) {s : State}
    (hs : BoundBelow s) (hf : s.fidx.toNat < T.nf) : (fieldStep T s).Sound := by
  obtain ⟨codec, t0, t1, d, hat, hw⟩ := fieldAt_wf hF hf
  rw [fieldStep, hat]
  exact stepField_sound hc hs hf hw

/-- Binding the field `FIDX` keeps the slots below it bound, its own among them. -/
theorem BoundBelow.step {s u : State} (h : BoundBelow s) (hu : Reads s u) (hf : s.fidx.toNat < 8) (v : Word32) :
    BoundBelow (bindField v u) := by
  have hrun := FieldsRun.step v hu hf
  have hindex := hrun.index
  intro j hj
  rw [hrun.bound j]
  by_cases hjf : j.toNat < s.fidx.toNat
  · rw [h j hjf, Bool.or_true]
  · rw [decide_eq_true ⟨Nat.le_of_not_lt hjf, hj⟩, Bool.true_or]

theorem runFields_sound {T : Tables} (hc : codecTableOk T = true) (hF : fieldTableOk T = true) (h8 : T.nf ≤ 8)
    {s : State} (hs : BoundBelow s) (k : Nat) : (runFields T k s).Sound := by
  induction k generalizing s with
  | zero => trivial
  | succ k ih =>
    unfold runFields
    split
    · rename_i hf
      refine (fieldStep_sound hc hF hs hf).bind fun x t e => ih ?_
      obtain ⟨-, v, u, hu, rfl⟩ := (fieldStep_cases T s).1 x t e
      exact hs.step hu (by omega) v
    · trivial

theorem getSlot_sound {i : BitVec 3} {s : State} (h : boundBit i s = true) : (getSlot i s).Sound := by
  unfold boundBit at h
  unfold getSlot
  cases hs : s.slots[i.toNat] with
  | bound v => trivial
  | unbound => rw [hs] at h; cases h

section
variable {s : State} (hs : ∀ j : BitVec 3, j.toNat < 6 → boundBit j s = true)
include hs

theorem assembleHeight_sound (small : Word32) : (assembleHeight small s).Sound := by
  unfold assembleHeight
  split
  · exact (getSlot_sound (hs 1 (by decide))).bind fun _ _ _ => trivial
  · exact (getSlot_sound (hs 2 (by decide))).bind fun _ _ _ => trivial

theorem assembleWidth_sound (T : Tables) (small ratio : Word32) (h : Nat) :
    (assembleWidth T small ratio h s).Sound := by
  unfold assembleWidth
  split
  · split
    · split
      · exact illFormedTable_sound
      · trivial
    · exact illFormedTable_sound
  · split
    · exact (getSlot_sound (hs 4 (by decide))).bind fun _ _ _ => trivial
    · exact (getSlot_sound (hs 5 (by decide))).bind fun _ _ _ => trivial

/-- A record with its first six fields bound is assembled without reading an unbound slot (R103 (e), R111). -/
theorem assemble_sound (T : Tables) : (assemble T s).Sound := by
  refine (getSlot_sound (hs 0 (by decide))).bind fun small t0 h0 => ?_
  obtain rfl := (getSlot_same _ _ _ _ h0).1
  refine (getSlot_sound (hs 3 (by decide))).bind fun ratio t3 h3 => ?_
  obtain rfl := (getSlot_same _ _ _ _ h3).1
  refine (assembleHeight_sound hs small).bind fun h th hh => ?_
  obtain rfl := assembleHeight_same hh
  refine (assembleWidth_sound hs T small ratio h).bind fun w tw _ => ?_
  split
  · trivial
  · exact illFormedTable_sound

end

theorem runSchema_sound {T : Tables} (hT : tablesOk T = true) (s : State) : (runSchema T s).Sound := by
  simp only [tablesOk, Bool.and_eq_true, decide_eq_true_eq] at hT
  obtain ⟨⟨⟨⟨hc, hF⟩, hcount⟩, h6⟩, -⟩ := hT
  have h8 : T.nf ≤ 8 := by
    simp only [fieldCountOk, Bool.and_eq_true, decide_eq_true_eq] at hcount; exact hcount.2
  rw [runSchema, if_pos hcount]
  refine (runFields_sound hc hF h8 (fun j hj => absurd hj (Nat.not_lt_zero _)) T.nf).bind fun x t e => ?_
  have hf := runFields_complete h8 e
  refine (assemble_sound (fun j hj => ?_) T).bind fun _ _ _ => trivial
  rw [((runFields_cases T h8 T.nf (startRecord s)).1 x t e).1.bound j,
    decide_eq_true ⟨Nat.zero_le _, by omega⟩, Bool.true_or]

/-- Settles O45: by induction over the fields, each condition names slots below its own index, which are bound. -/
theorem wellFormedTablesReadNoUnboundSlot : Obligations.WellFormedTablesReadNoUnboundSlot := by
  intro T s hT
  have h := runSchema_sound hT s
  refine ⟨fun e => ?_, fun e => ?_, fun e => ?_⟩ <;> rw [e] at h
  · exact h rfl
  · exact h.1 rfl
  · exact h.2 rfl

end Sys2Proof.Machine
end

section
/-! PROOFS. Giving the source up (R20, R52, R83), and what a reset puts in place (R31). -/

namespace Sys2Proof.Machine

/-- After a release nothing is buffered (R83). -/
def EmptyWhenReleased (s : State) : Prop := s.own = false → s.acc = 0 ∧ s.nbits = 0

theorem emptyWhenReleased_of_own {s : State} (h : s.own = true) : EmptyWhenReleased s :=
  fun hrel => absurd (h.symm.trans hrel) Bool.noConfusion

/-- A record does not give the source up (R100). -/
theorem runSchema_own {s : State} (h : s.own = true) (T : Tables) :
    (runSchema T s).All fun t => t.own = true := by
  obtain ⟨hdone, hraised⟩ := runSchema_cases T s
  cases e : runSchema T s with
  | done v t =>
    obtain ⟨w, h', u, hu, -, rfl, -⟩ := hdone v t e
    exact hu.record.own.trans h
  | raised t =>
    obtain ⟨u, hu, -, he⟩ := hraised t e
    exact he.own.trans (hu.record.own.trans h)
  | stuck f => trivial
  | refused r => trivial

/-- RDHDR ends with the source owned, or released with nothing buffered (R115, R120). -/
theorem readHeader_empty {s : State} (h : s.own = true) (T : Tables) : (readHeader T s).All EmptyWhenReleased := by
  unfold readHeader
  refine Res.All.bind (P := fun t => t.own = true) ?_ (fun _ => emptyWhenReleased_of_own) fun v t _ ht => ?_
  · exact (read_onlyReads Config.sigW s).all (fun _ r => r.own.trans h) fun _ _ r e => e.own.trans (r.own.trans h)
  · split
    · exact (runSchema_own ht T).bind (fun _ => emptyWhenReleased_of_own) fun _ _ _ _ _ => ⟨rfl, rfl⟩
    · exact fun _ => ⟨rfl, rfl⟩

/-- The source is owned, or `i` is one of the two that give it up and nothing is buffered. -/
def GivenUpBy (i : Instr) (s : State) : Prop :=
  s.own = false → (i = .release ∨ i = .rdHdr) ∧ s.acc = 0 ∧ s.nbits = 0

theorem givenUpBy_of_own {i : Instr} {s : State} (h : s.own = true) : GivenUpBy i s :=
  fun hrel => absurd (h.symm.trans hrel) Bool.noConfusion

/-- Settles O55: every instruction but RELEASE and RDHDR keeps `OWN`, and these two empty the window. -/
theorem onlyReleaseAndRdHdrGiveTheSourceUp : Obligations.OnlyReleaseAndRdHdrGiveTheSourceUp := by
  intro i s t e hown
  refine exec_keeps (P := GivenUpBy i) (fun _ _ _ _ _ h => h) (givenUpBy_of_own hown) (givenUpBy_of_own hown)
    (fun _ => endsIn_of_reads ?reads ?raised ?bind ?release ?run ?rdHdr) e
  case reads => exact fun _ r => givenUpBy_of_own (r.own.trans hown)
  case raised => exact fun _ _ r e => givenUpBy_of_own (e.own.trans (r.own.trans hown))
  case bind => exact fun _ _ r => givenUpBy_of_own (r.own.trans hown)
  case release => exact fun hi _ => ⟨.inl hi, rfl, rfl⟩
  case run => exact fun _ => (runSchema_own hown tables).mono fun _ => givenUpBy_of_own
  case rdHdr => exact fun hi => (readHeader_empty hown tables).mono fun _ h hrel => ⟨.inr hi, h hrel⟩

/-- Settles O1: the registers of `State.resetWith`, one by one. -/
theorem resetPutsEveryRegisterAtItsValue : Obligations.ResetPutsEveryRegisterAtItsValue := by
  refine ⟨?_, ⟨[], .eos⟩, [], rfl⟩
  rintro src host s rfl
  refine ⟨rfl, rfl, rfl, rfl, rfl, rfl, fun i => ⟨?_, boundBit_of_replicate rfl i⟩, rfl, rfl, rfl, rfl, rfl⟩
  simp

/-- Settles O3: nothing is buffered, nothing bound, and there is no header. -/
theorem resetSatisfiesTheInvariants : Obligations.ResetSatisfiesTheInvariants :=
  fun src host => ⟨resetWith_regInv src host, resetWith_dimsOk src host⟩

end Sys2Proof.Machine
end

section
/-! PROOFS. The answers of the source (R37): two sources that answer alike give every instruction the same outcome. -/

namespace Sys2Proof.Machine

/-- Every instruction does the same on two sources that answer alike (R37). -/
theorem exec_same (i : Instr) (s : State) (y : Source) (h : s.src.answersLike y) :
    SameOut (exec i s) (exec i { s with src := y }) := by
  have ha : Alike s { s with src := y } := ⟨y, rfl, h⟩
  have hgate := fun legal body => gated_same legal body s y h
  cases i with
  | peek n => exact hgate _ (fun t => answer (peek (countOf n) t)) (answer_same _ _ (peek_same _ _ _ ha))
  | read n => exact hgate _ (fun t => answer (read (countOf n) t)) (answer_same _ _ (read_same _ _ _ ha))
  | bitsRead => exact sameOut_next (respond (.count s.fault s.bitsRead) s) y fun _ => h
  | release => exact hgate _ (fun t => answer (.done 0 (release t))) (answer_same _ _ ⟨rfl, y, rfl, h⟩)
  | rdt k =>
    exact hgate _ (fun t => answer ((decodeCodec tables k t).bind fun v u => .done (v.setWidth 64) u))
      (answer_same _ _ ((decodeCodec_same tables k _ _ ha).bind fun _ _ _ e => ⟨rfl, e⟩))
  | run => exact hgate _ (fun t => answer (runSchema tables t)) (answer_same _ _ (runSchema_same tables _ _ ha))
  | rdHdr => exact hgate _ (fun t => answer (readHeader tables t)) (answer_same _ _ (readHeader_same tables _ _ ha))
  | const c => exact hgate _ (fun t => yieldValue (decodeConst c t)) (yieldValue_same _ _ ⟨rfl, ha⟩)
  | fixed w => exact hgate _ (fun t => yieldValue (decodeFixed w t)) (yieldValue_same _ _ (decodeFixed_same w _ _ ha))
  | offset w o =>
    exact hgate _ (fun t => yieldValue (decodeOffset w o t)) (yieldValue_same _ _ (decodeOffset_same w o _ _ ha))
  | psel a0 a1 a2 a3 =>
    exact hgate _ (fun t => yieldValue (decodePsel tables a0 a1 a2 a3 t))
      (yieldValue_same _ _ (decodePsel_same tables a0 a1 a2 a3 _ _ ha))
  | field codec t0 t1 dflt =>
    exact hgate _ (fun t => yieldUnit (stepField tables codec t0 t1 dflt t))
      (yieldUnit_same _ _ (stepField_same tables codec t0 t1 dflt _ _ ha))

/-- Settles O57: `SameOut` of the two outcomes is the statement. -/
theorem onlyTheAnswersOfTheSourceMatter : Obligations.OnlyTheAnswersOfTheSourceMatter := exec_same

end Sys2Proof.Machine
end

section
/-! PROOFS. The source only moves forward (R39, R48, R52, R126): what an instruction runs only pulls, and the gate stops it
while the source is not owned or a fault is latched. -/

namespace Sys2Proof.Machine

/-- What follows pulls that all delivered moves the source forward from before them. -/
theorem PulledBytes.trans_sourceMoved {s t u : State} {k : Nat} (h : PulledBytes s t k) (hm : SourceMoved t u) :
    SourceMoved s u := by
  obtain ⟨m, hfull, hpulled, hsrc⟩ := hm
  obtain ⟨hdel, hts, htp⟩ := h
  obtain ⟨hahead, hafter⟩ := ahead_add k m s.src hdel
  rw [hts] at hfull hsrc
  refine ⟨k + m, ?_, ?_, ?_⟩
  · rw [hahead, List.length_append, hdel, hfull]
  · rw [hpulled, htp, Nat.add_assoc]
  · rw [hafter]; exact hsrc

/-- What changes neither the source nor `PULLED` moves the source forward, by no pull. -/
theorem sourceMoved_of_eq {s t : State} (hsrc : t.src = s.src) (hpulled : t.pulled = s.pulled) : SourceMoved s t :=
  ⟨0, rfl, hpulled, .inl hsrc⟩

theorem Reads.sourceMoved {s t : State} (h : Reads s t) : SourceMoved s t := h.moved.elim fun _ hk => hk.sourceMoved

theorem Reads.raises_sourceMoved {s u t : State} (h : Reads s u) (e : RaisesEnd u t) : SourceMoved s t :=
  h.moved.elim fun _ hk => e.sourceMoved hk

/-- A record only pulls (R99). -/
theorem runSchema_sourceMoved (T : Tables) (s : State) : (runSchema T s).All (SourceMoved s) := by
  obtain ⟨hdone, hraised⟩ := runSchema_cases T s
  cases e : runSchema T s with
  | done v t =>
    obtain ⟨w, h, u, hu, -, rfl, -⟩ := hdone v t e
    obtain ⟨k, hk⟩ := hu.record.moved
    exact ⟨k, hk.delivered, hk.pulled, .inl hk.src⟩
  | raised t =>
    obtain ⟨u, hu, -, he⟩ := hraised t e
    obtain ⟨k, hk⟩ := hu.record.moved
    exact he.sourceMoved (s := s) ⟨hk.delivered, hk.src, hk.pulled⟩
  | stuck f => trivial
  | refused r => trivial

/-- So does a header: giving the source up pulls nothing (R115). -/
theorem readHeader_sourceMoved (T : Tables) (s : State) : (readHeader T s).All (SourceMoved s) := by
  have hread := read_onlyReads Config.sigW s
  refine (hread.all (fun _ => Reads.sourceMoved) fun _ _ => Reads.raises_sourceMoved).bind (fun _ h => h)
    fun v t e ht => ?_
  obtain ⟨k, hk⟩ := (hread.1 v t e).moved
  split
  · exact ((runSchema_sourceMoved T t).mono fun _ => hk.trans_sourceMoved).bind (fun _ h => h) fun _ _ _ h => h
  · exact hk.trans_sourceMoved (sourceMoved_of_eq rfl rfl)

theorem sourceMoved_portFree (s : State) : PortFree (SourceMoved s) := fun _ _ _ _ _ h => h

/-- An instruction only pulls from the source (R39, R48). -/
theorem exec_sourceMoved {i : Instr} {s t : State} (e : exec i s = .next t) : SourceMoved s t := by
  refine exec_keeps (sourceMoved_portFree s) (sourceMoved_of_eq rfl rfl) (sourceMoved_of_eq rfl rfl)
    (fun _ => endsIn_of_reads ?reads ?raised ?bind ?release ?run ?rdHdr) e
  case reads => exact fun _ => Reads.sourceMoved
  case raised => exact fun _ _ => Reads.raises_sourceMoved
  case bind => exact fun v u r => r.moved.elim fun _ hk => hk.trans_sourceMoved (sourceMoved_of_eq rfl rfl)
  case release => exact fun _ => sourceMoved_of_eq rfl rfl
  case run => exact fun _ => runSchema_sourceMoved tables s
  case rdHdr => exact fun _ => readHeader_sourceMoved tables s

/-- `t` stands where `s` stood in the stream: same source, same window, same count. -/
def SamePosition (s t : State) : Prop :=
  t.src = s.src ∧ t.pulled = s.pulled ∧ t.acc = s.acc ∧ t.nbits = s.nbits ∧ t.bitsRead = s.bitsRead

theorem SamePosition.sourceMoved {s t : State} (h : SamePosition s t) : SourceMoved s t := by
  obtain ⟨hsrc, hpulled, -⟩ := h
  exact sourceMoved_of_eq hsrc hpulled

/-- While the source is not owned or a fault is latched, an instruction does not get past the gate (R52, R126). -/
theorem exec_samePosition {i : Instr} {s t : State} (h : s.own = false ∨ s.fault ≠ 0) (e : exec i s = .next t) :
    SamePosition s t := by
  have hinactive : ¬ isActive s := fun ⟨hfault, hown⟩ =>
    h.elim (fun hrel => absurd (hown.symm.trans hrel) Bool.noConfusion) (fun hf => hf hfault)
  exact exec_keeps (P := SamePosition s) (fun _ _ _ _ _ h => h) ⟨rfl, rfl, rfl, rfl, rfl⟩ ⟨rfl, rfl, rfl, rfl, rfl⟩
    (fun hact => absurd hact hinactive) e

/-- What a fetch leaves of `s`: the object is taken off the port or the latch and nothing else changes; only a reset
event resets (R138). -/
def FetchedFrom (s : State) : Fetched → Prop
  | .instr _ u => ∃ host fetch, u = { s with host := host, fetch := fetch }
  | .illegal u => ∃ host fetch, u = { s with host := host, fetch := fetch }
  | .restart _ => ¬ NoReset s
  | .waiting => True
  | .illFormed => True

theorem fetchNext_fetchedFrom (s : State) : FetchedFrom s (fetchNext s) := by
  unfold fetchNext
  split
  · split
    · exact ⟨_, _, rfl⟩
    · trivial
  · split
    · exact ⟨_, _, rfl⟩
    · trivial
  · rename_i hfetch
    split
    · trivial
    · rename_i hhost
      exact fun hno => hno hfetch _ _ hhost
    · split
      · exact ⟨_, _, rfl⟩
      · exact ⟨_, _, rfl⟩

/-- A step that is no reset waits, or runs an instruction or an illegal word after taking its object off. -/
theorem step_next_of_noReset {s t : State} (hno : NoReset s) (e : step s = .next t) :
    t = s ∨ ∃ u, (∃ host fetch, u = { s with host := host, fetch := fetch }) ∧
      ((∃ i, exec i u = .next t) ∨ illegalWord u = .next t) := by
  have hfrom := fetchNext_fetchedFrom s
  unfold step at e
  cases hf : fetchNext s with
  | waiting => rw [hf] at e; cases e; exact .inl rfl
  | restart u => rw [hf] at hfrom; exact absurd hno hfrom
  | instr i u => rw [hf] at e hfrom; exact .inr ⟨u, hfrom, .inl ⟨i, e⟩⟩
  | illegal u => rw [hf] at e hfrom; exact .inr ⟨u, hfrom, .inr e⟩
  | illFormed => rw [hf] at e; cases e

/-- Settles O51: what a step runs only pulls, and the gate stops it while the block is not active. -/
theorem theSourceOnlyMovesForward : Obligations.TheSourceOnlyMovesForward := by
  intro s t hno e
  have hstill : ∀ t, SamePosition s t → SourceMoved s t ∧ (s.own = false ∨ s.fault ≠ 0 → SamePosition s t) :=
    fun t h => ⟨h.sourceMoved, fun _ => h⟩
  rcases step_next_of_noReset hno e with rfl | ⟨u, ⟨host, fetch, rfl⟩, ⟨i, h⟩ | h⟩
  · exact hstill _ ⟨rfl, rfl, rfl, rfl, rfl⟩
  · have hmoved := exec_sourceMoved h
    exact ⟨hmoved, fun hstop => exec_samePosition (s := { s with host := host, fetch := fetch }) hstop h⟩
  · rcases illegalWord_next h with ⟨r, rfl⟩ | rfl
    · exact hstill _ ⟨rfl, rfl, rfl, rfl, rfl⟩
    · exact hstill _ ⟨rfl, rfl, rfl, rfl, rfl⟩

end Sys2Proof.Machine
end

section
/-! PROOFS. Pulls are lazy (R19, R49): a PEEK or READ answered with `Ok` made the pulls that its bits need. -/

namespace Sys2Proof.Machine

/-- While the block is active, a command answered with `Ok` passed the gate (R77). -/
theorem gated_ok {legal : Bool} {body : State → Out} {s t : State} {v : Word64} (hact : isActive s)
    (e : gated legal body s = .next t) (hok : t.resp = some (.ok v)) : legal = true ∧ body s = .next t := by
  cases legal with
  | true => exact ⟨rfl, by rwa [gated_active true body s hact rfl] at e⟩
  | false => rw [gated_stopped false body s hact.1 (.inl rfl)] at e; cases e; cases hok

/-- A reading command answered with `Ok` was done: the end of the source answers with an error (R121, R122). -/
theorem answer_ok {s t : State} {p : Res Word64} {v : Word64} (hp : OnlyReads s p) (e : answer p = .next t)
    (hok : t.resp = some (.ok v)) : ∃ w u, p = .done w u ∧ t = respond (.ok w) u := by
  cases p with
  | done w u => cases e; exact ⟨w, u, rfl, rfl⟩
  | raised u =>
    cases e
    obtain ⟨_, -, ⟨x, -, rfl⟩ | ⟨y, x, -, rfl⟩⟩ := hp.2 t rfl <;> cases hok
  | stuck f => cases e
  | refused r => cases e

theorem endRes_ne_done {α : Type} (s : State) (v : α) (t : State) : endRes s ≠ .done v t := by
  unfold endRes; split <;> exact fun e => by cases e

/-- A `peek(n)` that is done made the pulls that bring `NBITS` to `n`, and no other (R49, R74). -/
theorem peek_done_pulled {n : Nat} {s u : State} {v : Word64} (w : WindowOk s) (hn : n ≤ 56)
    (e : peek n s = .done v u) : u.pulled = s.pulled + s.pullsFor n := by
  by_cases ha : s.offers n
  · rw [peek_ok n s w hn ha] at e; cases e; rfl
  · rw [peek_short n s w hn ha] at e; exact absurd e (endRes_ne_done _ _ _)

/-- A `read(n)` that is done, no other either (R76). -/
theorem read_done_pulled {n : Nat} {s u : State} {v : Word64} (w : WindowOk s) (hn : n ≤ 56)
    (e : read n s = .done v u) : u.pulled = s.pulled + s.pullsFor n := by
  rcases read_cases n s w hn with ⟨-, -, h⟩ | ⟨-, h⟩ | ⟨-, -, h⟩ <;> rw [h] at e
  · cases e; rfl
  · exact absurd e (endRes_ne_done _ _ _)
  · cases e

/-- The pulls for `n` bits bring `PULLED` to the byte that holds bit `BITS_READ + n - 1`, or leave it (R19, R49). -/
theorem pulled_add_pullsFor {s : State} (h : RegInv s) (hown : s.own = true) (n : Nat) :
    s.pulled + s.pullsFor n = max s.pulled ((s.bitsRead.toNat + n + 7) / 8) := by
  have haccount := h.account hown
  simp only [State.pullsFor]
  omega

/-- Settles O25: a command answered with `Ok` ran its procedure to the end, which pulls for `n` bits. -/
theorem pullsAreLazy : Obligations.PullsAreLazy := by
  intro n s t v hinv hact e hok
  rw [← pulled_add_pullsFor hinv hact.2]
  rcases e with e | e
  · obtain ⟨hlegal, hbody⟩ := gated_ok (body := fun u => answer (peek n.toNat u)) hact e hok
    obtain ⟨w, u, hpeek, rfl⟩ := answer_ok (peek_onlyReads n.toNat s) hbody hok
    rw [respond_pulled_eq]
    exact peek_done_pulled hinv.window (countOk_le hlegal) hpeek
  · obtain ⟨hlegal, hbody⟩ := gated_ok (body := fun u => answer (read n.toNat u)) hact e hok
    obtain ⟨w, u, hread, rfl⟩ := answer_ok (read_onlyReads n.toNat s) hbody hok
    rw [respond_pulled_eq]
    exact read_done_pulled hinv.window (countOk_le hlegal) hread

end Sys2Proof.Machine
end

section
/-! PROOFS. RUN decodes the record of the stream map (R45, R99, R100). -/

namespace Sys2Proof.Machine

/-- While the block is active RUN answers what `run_schema()` ends in (R77, R100). -/
theorem exec_run_active (s : State) (h : isActive s) : exec .run s = answer (runSchema tables s) :=
  gated_active (commandLegal .run) (fun t => answer (runSchema tables t)) s h rfl

/-- Settles O36: with the record's bits offered and the count in range, `run_schema()` is done with the record of the
stream map. -/
theorem runDecodesTheRecordOfTheStreamMap : Obligations.RunDecodesTheRecordOfTheStreamMap := by
  intro s h hact hwindow hh hoffers hcount
  rw [exec_run_active s hact]
  rcases runSchema_wireHeader s hwindow h hh with ⟨-, -, e⟩ | ⟨hshort, -⟩ | ⟨hover, -⟩
  · rw [e]; rfl
  · exact absurd hoffers hshort
  · omega

end Sys2Proof.Machine
end

section
/-! PROOFS. The encoding (R53 to R65): the decoder and the encoder are inverse to each other, and the legal command words
are the rows of R55. -/

namespace Sys2Proof.Machine

/-- The arms of a packed codec descriptor, together (R60). -/
@[simp] theorem cdArms_packCdesc (k : BitVec 2) (w a0 a1 a2 a3 : BitVec 6) (m : Word32) :
    cdArms (packCdesc k w a0 a1 a2 a3 m) = a3 ++ a2 ++ a1 ++ a0 := by
  simp [cdArms_eq]

/-- Settles O6: the decoder of each row finds the fields that the encoder packed (`packCommand_fields`,
`packCdesc_fields`, `packFdesc_fields`), and 0 in those that the row does not use. -/
theorem decodingAnEncodingGivesTheInstruction : Obligations.DecodingAnEncodingGivesTheInstruction := by
  intro i
  cases i with
  | peek n => simp [encode, decode, decodeCommand]
  | read n => simp [encode, decode, decodeCommand]
  | bitsRead => simp [encode, decode, decodeCommand, withoutArg]
  | release => simp [encode, decode, decodeCommand, withoutArg]
  | rdt k => simp [encode, decode, decodeCommand]
  | run => simp [encode, decode, decodeCommand, withoutArg]
  | rdHdr => simp [encode, decode, decodeCommand, withoutArg]
  | const c => simp [encode, decode, decodeCdesc, whenUnusedZero]
  | fixed w => simp [encode, decode, decodeCdesc, whenUnusedZero]
  | offset w o => simp [encode, decode, decodeCdesc, whenUnusedZero]
  | psel a0 a1 a2 a3 => simp [encode, decode, decodeCdesc, whenUnusedZero]
  | field codec t0 t1 dflt => simp [encode, decode, decodeFdesc]

theorem withoutArg_ok_iff {w : Word16} {i j : Instr} : withoutArg w i = .ok j ↔ cmdArg w = 0 ∧ i = j := by
  unfold withoutArg
  split
  · next harg => simp [harg]
  · next harg => simpa using fun h => absurd h harg

theorem whenUnusedZero_ok_iff {zero : Bool} {i j : Instr} : whenUnusedZero zero i = .ok j ↔ zero = true ∧ i = j := by
  cases zero <;> simp [whenUnusedZero]

/-- A command word with `rsv = 0` is its `op` and `arg` packed (R54). -/
theorem packCommand_of_fields {w : Word16} {op : BitVec 4} {arg : BitVec 6} (hrsv : cmdRsv w = 0)
    (hop : (cmdOp w).toNat = op.toNat) (harg : cmdArg w = arg) : packCommand op arg = w := by
  rw [← BitVec.eq_of_toNat_eq hop, ← harg, packCommand]
  have hw := command_eq_fields w
  rwa [hrsv] at hw

/-- When the arms are 0 together, each of them is (R61). -/
theorem cdArms_eq_zero {d : Word64} (h : cdArms d = 0) : cdA0 d = 0 ∧ cdA1 d = 0 ∧ cdA2 d = 0 ∧ cdA3 d = 0 := by
  have harm : ∀ p, p + 6 ≤ 24 → d.extractLsb' (8 + p) 6 = 0 := by
    intro p hp
    ext i hi
    have hbit := congrArg (fun x : BitVec 24 => x.getLsbD (p + i)) h
    have hlt : p + i < 24 := by omega
    simpa [cdArms, hlt, hi, Nat.add_assoc] using hbit
  exact ⟨harm 0 (by omega), harm 6 (by omega), harm 12 (by omega), harm 18 (by omega)⟩

/-- A codec descriptor of a known kind is that kind and the other fields packed (R60). -/
theorem packCdesc_of_kind {d : Word64} {kind : BitVec 2} (hkind : (cdKind d).toNat = kind.toNat) :
    packCdesc kind (cdW d) (cdA0 d) (cdA1 d) (cdA2 d) (cdA3 d) (cdImm d) = d := by
  rw [← BitVec.eq_of_toNat_eq hkind, packCdesc_of_fields]

/-- Each row of R55 keeps all bits of a command word. -/
theorem encode_of_decodeCommand {w : Word16} {i : Instr} (h : decodeCommand w = .ok i) : encode i = .command w := by
  unfold decodeCommand at h
  split at h
  · cases h
  · next hrsv =>
    have hpack := fun op arg => packCommand_of_fields (op := op) (arg := arg) (not_not.mp hrsv)
    split at h
    · next hop => cases h; exact congrArg _ (hpack 1 _ hop rfl)
    · next hop => cases h; exact congrArg _ (hpack 2 _ hop rfl)
    · next hop => obtain ⟨harg, rfl⟩ := withoutArg_ok_iff.mp h; exact congrArg _ (hpack 3 0 hop harg)
    · next hop => obtain ⟨harg, rfl⟩ := withoutArg_ok_iff.mp h; exact congrArg _ (hpack 4 0 hop harg)
    · next hop => cases h; exact congrArg _ (hpack 5 _ hop rfl)
    · next hop => obtain ⟨harg, rfl⟩ := withoutArg_ok_iff.mp h; exact congrArg _ (hpack 6 0 hop harg)
    · next hop => obtain ⟨harg, rfl⟩ := withoutArg_ok_iff.mp h; exact congrArg _ (hpack 7 0 hop harg)
    · cases h

/-- Each kind of R60 keeps all bits of a codec descriptor: the fields it does not use are 0 (R61). -/
theorem encode_of_decodeCdesc {d : Word64} {i : Instr} (h : decodeCdesc d = .ok i) : encode i = .codec d := by
  unfold decodeCdesc at h
  split at h
  all_goals obtain ⟨hzero, rfl⟩ := whenUnusedZero_ok_iff.mp h
  all_goals simp only [Bool.and_eq_true, beq_iff_eq] at hzero
  · next hkind =>
    obtain ⟨hw, harms⟩ := hzero
    obtain ⟨h0, h1, h2, h3⟩ := cdArms_eq_zero harms
    simpa [encode, hw, h0, h1, h2, h3] using packCdesc_of_kind (kind := 0) hkind
  · next hkind =>
    obtain ⟨harms, himm⟩ := hzero
    obtain ⟨h0, h1, h2, h3⟩ := cdArms_eq_zero harms
    simpa [encode, himm, h0, h1, h2, h3] using packCdesc_of_kind (kind := 1) hkind
  · next hkind =>
    obtain ⟨h0, h1, h2, h3⟩ := cdArms_eq_zero hzero
    simpa [encode, h0, h1, h2, h3] using packCdesc_of_kind (kind := 2) hkind
  · next hne0 hne1 hne2 =>
    obtain ⟨hw, himm⟩ := hzero
    have hkind : (cdKind d).toNat = (3 : BitVec 2).toNat := by
      have hlt := (cdKind d).isLt
      simp at hne0 hne1 hne2 ⊢
      omega
    simpa [encode, hw, himm] using packCdesc_of_kind hkind

/-- Settles O7: what decodes was packed from its fields, and those that the instruction does not hold are 0. -/
theorem encodingADecodedObjectGivesTheObject : Obligations.EncodingADecodedObjectGivesTheObject := by
  intro o i h
  cases o with
  | command w => exact encode_of_decodeCommand h
  | codec d => exact encode_of_decodeCdesc h
  | field d => cases h; exact congrArg Encoded.field (packFdesc_of_fields d)

/-- Decoding and encoding are the same correspondence, read in two directions. -/
theorem decode_ok_iff {o : Encoded} {i : Instr} : decode o = .ok i ↔ encode i = o :=
  ⟨encodingADecodedObjectGivesTheObject o i, fun h => h ▸ decodingAnEncodingGivesTheInstruction i⟩

/-- A legal word is the word of a well-formed command (R55). -/
theorem legalWord_iff {T : Tables} {w : Word16} :
    legalWord T w = true ↔ ∃ i, encode i = .command w ∧ i.wf T 0 = true := by
  simp only [← decode_ok_iff, decode, legalWord]
  cases decodeCommand w <;> simp

/-- A command word as a number: `op` weighs 4096, `arg` lies below bit 6 (R54). -/
theorem packCommand_toNat (op : BitVec 4) (a : BitVec 6) : (packCommand op a).toNat = 4096 * op.toNat + a.toNat := by
  rw [packCommand, BitVec.toNat_append, BitVec.toNat_append, ← Nat.shiftLeft_add_eq_or_of_lt a.isLt]
  simp only [BitVec.toNat_ofNat, Nat.zero_mod, Nat.or_zero, Nat.shiftLeft_eq]
  omega

/-- A number in the 64 from `base` on is `base` plus a 6-bit operand. -/
theorem exists_operand {base m : Nat} (hlo : base ≤ m) (hhi : m < base + 64) : ∃ a : BitVec 6, m = base + a.toNat :=
  ⟨BitVec.ofNat 6 (m - base), by rw [BitVec.toNat_ofNat, Nat.mod_eq_of_lt (by omega)]; omega⟩

/-- A word is the encoding of `i` when it is so as a number (R55). -/
theorem encode_of_toNat {w : Word16} {i : Instr} {op : BitVec 4} {a : BitVec 6}
    (hrow : encode i = .command (packCommand op a)) (hw : w.toNat = 4096 * op.toNat + a.toNat) :
    encode i = .command w := by
  rw [hrow, BitVec.eq_of_toNat_eq (hw.trans (packCommand_toNat op a).symm)]

theorem countOk_iff {n : BitVec 6} : countOk n = true ↔ 1 ≤ n.toNat ∧ n.toNat ≤ 56 := by
  simp only [countOk, Bool.and_eq_true, decide_eq_true_eq]
  exact Iff.rfl

theorem indexOk_tables_iff {k : BitVec 6} : indexOk tables k = true ↔ k.toNat ≤ 9 := by
  simp [indexOk, tables, Config.tables, Tables.nc, Config.ct]
  omega

/-- The words of the opcode map as numbers (R55). -/
theorem legalWord_tables_iff (w : Word16) : legalWord tables w = true ↔
    (0x1001 ≤ w.toNat ∧ w.toNat ≤ 0x1038) ∨ (0x2001 ≤ w.toNat ∧ w.toNat ≤ 0x2038) ∨ w.toNat = 0x3000 ∨
    w.toNat = 0x4000 ∨ (0x5000 ≤ w.toNat ∧ w.toNat ≤ 0x5009) ∨ w.toNat = 0x6000 ∨ w.toNat = 0x7000 := by
  rw [legalWord_iff]
  constructor
  · rintro ⟨i, hi, hwf⟩
    cases i with
    | peek n =>
      cases hi
      have hw : (packCommand 1 n).toNat = 0x1000 + n.toNat := packCommand_toNat 1 n
      have hn := countOk_iff.mp hwf
      omega
    | read n =>
      cases hi
      have hw : (packCommand 2 n).toNat = 0x2000 + n.toNat := packCommand_toNat 2 n
      have hn := countOk_iff.mp hwf
      omega
    | rdt k =>
      cases hi
      have hw : (packCommand 5 k).toNat = 0x5000 + k.toNat := packCommand_toNat 5 k
      have hk := indexOk_tables_iff.mp hwf
      omega
    | bitsRead => cases hi; decide
    | release => cases hi; decide
    | run => cases hi; decide
    | rdHdr => cases hi; decide
    | const c => cases hi
    | fixed W => cases hi
    | offset W o => cases hi
    | psel a0 a1 a2 a3 => cases hi
    | field codec t0 t1 dflt => cases hi
  · rintro (⟨hlo, hhi⟩ | ⟨hlo, hhi⟩ | h | h | ⟨hlo, hhi⟩ | h | h)
    · obtain ⟨n, hn⟩ := exists_operand (base := 0x1000) (m := w.toNat) (by omega) (by omega)
      exact ⟨.peek n, encode_of_toNat rfl hn, countOk_iff.mpr (by omega)⟩
    · obtain ⟨n, hn⟩ := exists_operand (base := 0x2000) (m := w.toNat) (by omega) (by omega)
      exact ⟨.read n, encode_of_toNat rfl hn, countOk_iff.mpr (by omega)⟩
    · exact ⟨.bitsRead, encode_of_toNat rfl h, rfl⟩
    · exact ⟨.release, encode_of_toNat rfl h, rfl⟩
    · obtain ⟨k, hk⟩ := exists_operand (base := 0x5000) (m := w.toNat) hlo (by omega)
      exact ⟨.rdt k, encode_of_toNat rfl hk, indexOk_tables_iff.mpr (by omega)⟩
    · exact ⟨.run, encode_of_toNat rfl h, rfl⟩
    · exact ⟨.rdHdr, encode_of_toNat rfl h, rfl⟩

/-- The word of a row with its operand decodes to the row's instruction (R55). -/
theorem decodeCommand_ofNat {i : Instr} {op : BitVec 4} {a : BitVec 6} {m : Nat}
    (hrow : encode i = .command (packCommand op a)) (hm : m = 4096 * op.toNat + a.toNat) :
    decodeCommand (BitVec.ofNat 16 m) = .ok i :=
  decode_ok_iff.mpr (encode_of_toNat hrow (by rw [BitVec.toNat_ofNat]; omega))

/-- Settles O8: the legal words as numbers, then the word of each row, which decodes as it was encoded. -/
theorem legalWordsAreThoseOfTheOpcodeMap : Obligations.LegalWordsAreThoseOfTheOpcodeMap := by
  refine ⟨legalWord_tables_iff, fun n _ _ => ⟨?_, ?_⟩, fun k _ => ?_, ?_, ?_, ?_, ?_⟩
  · exact decodeCommand_ofNat (i := .peek n) rfl rfl
  · exact decodeCommand_ofNat (i := .read n) rfl rfl
  · exact decodeCommand_ofNat (i := .rdt k) rfl rfl
  · exact decodingAnEncodingGivesTheInstruction .bitsRead
  · exact decodingAnEncodingGivesTheInstruction .release
  · exact decodingAnEncodingGivesTheInstruction .run
  · exact decodingAnEncodingGivesTheInstruction .rdHdr

end Sys2Proof.Machine
end

section
/-! PROOFS. What a step fetches (R53, R140), and the descriptors that the model refuses (R65, R66, R97, R103). -/

namespace Sys2Proof.Machine

/-- A step runs what was fetched for it (R53). -/
theorem step_of_fetchNext {s t : State} {i : Instr} (h : fetchNext s = .instr i t) : step s = exec i t := by
  rw [step, h]

theorem fetchNext_command {s : State} {w : Word16} {rest : List HostEvent} {i : Instr} (hfetch : s.fetch = .port)
    (hhost : s.host = .command w :: rest) (h : decode (.command w) = .ok i) :
    fetchNext s = .instr i { s with host := rest } := by
  simp only [fetchNext, hfetch, hhost, h]

theorem fetchNext_codec {s : State} {d : Word64} {i : Instr} (hfetch : s.fetch = .codec d)
    (h : decode (.codec d) = .ok i) : fetchNext s = .instr i { s with fetch := .port } := by
  simp only [fetchNext, hfetch, h]

theorem fetchNext_codec_error {s : State} {d : Word64} {e : DecodeError} (hfetch : s.fetch = .codec d)
    (h : decode (.codec d) = .error e) : fetchNext s = .illFormed := by
  simp only [fetchNext, hfetch, h]

theorem fetchNext_field {s : State} {d : Word64} {i : Instr} (hfetch : s.fetch = .field d)
    (h : decode (.field d) = .ok i) : fetchNext s = .instr i { s with fetch := .port } := by
  simp only [fetchNext, hfetch, h]

theorem fetchNext_waiting {s : State} (hfetch : s.fetch = .port) (hhost : s.host = []) : fetchNext s = .waiting := by
  simp only [fetchNext, hfetch, hhost]

/-- Settles O10: the fetch finds the object on the port or the latch, and the step runs what it decodes to. -/
theorem stepRunsTheDecodedInstruction : Obligations.StepRunsTheDecodedInstruction := by
  refine ⟨fun s w rest i hfetch hhost h => ?_, fun s d i hfetch h => ?_, fun s d i hfetch h => ?_,
    fun s hfetch hhost => ?_⟩
  · exact step_of_fetchNext (fetchNext_command hfetch hhost h)
  · exact step_of_fetchNext (fetchNext_codec hfetch h)
  · exact step_of_fetchNext (fetchNext_field hfetch h)
  · rw [step, fetchNext_waiting hfetch hhost]

/-- While the block is active FIXED runs `decode_fixed` (R77, R87). -/
theorem exec_fixed_active (w : BitVec 6) (s : State) (h : isActive s) :
    exec (.fixed w) s = yieldValue (decodeFixed w s) :=
  gated_active true (fun t => yieldValue (decodeFixed w t)) s h rfl

/-- While the block is active OFFSET runs `decode_offset` (R77, R88). -/
theorem exec_offset_active (w : BitVec 6) (o : Word32) (s : State) (h : isActive s) :
    exec (.offset w o) s = yieldValue (decodeOffset w o s) :=
  gated_active true (fun t => yieldValue (decodeOffset w o t)) s h rfl

/-- While the block is active PSEL runs `decode_psel` (R77, R89). -/
theorem exec_psel_active (a0 a1 a2 a3 : BitVec 6) (s : State) (h : isActive s) :
    exec (.psel a0 a1 a2 a3) s = yieldValue (decodePsel tables a0 a1 a2 a3 s) :=
  gated_active true (fun t => yieldValue (decodePsel tables a0 a1 a2 a3 t)) s h rfl

/-- While the block is active a field descriptor runs the field step of its place (R77, R97). -/
theorem exec_field_active (codec : BitVec 6) (t0 t1 : Term) (dflt : Word32) (s : State) (h : isActive s) :
    exec (.field codec t0 t1 dflt) s = yieldUnit (stepField tables codec t0 t1 dflt s) :=
  gated_active true (fun t => yieldUnit (stepField tables codec t0 t1 dflt t)) s h rfl

theorem decodeFixed_illFormed {w : BitVec 6} {s : State} (h : widthOk w = false) :
    decodeFixed w s = .refused .illFormedDescriptor := if_neg (Bool.eq_false_iff.mp h)

theorem decodeOffset_illFormed {w : BitVec 6} {o : Word32} {s : State} (h : (widthOk w && offsetOk w o) = false) :
    decodeOffset w o s = .refused .illFormedDescriptor := if_neg (Bool.eq_false_iff.mp h)

theorem decodePsel_illFormed {T : Tables} {a0 a1 a2 a3 : BitVec 6} {s : State}
    (h : (armOk T a0 && armOk T a1 && armOk T a2 && armOk T a3) = false) :
    decodePsel T a0 a1 a2 a3 s = .refused .illFormedDescriptor := if_neg (Bool.eq_false_iff.mp h)

theorem stepField_illFormed {T : Tables} {codec : BitVec 6} {t0 t1 : Term} {dflt : Word32} {s : State}
    (hlt : s.fidx.toNat < T.nf) (hwf : (Instr.field codec t0 t1 dflt).wf T s.fidx.toNat = false) :
    stepField T codec t0 t1 dflt s = .refused .illFormedDescriptor := by
  rw [stepField, if_pos hlt, if_neg (Bool.eq_false_iff.mp hwf)]

theorem stepField_noField {T : Tables} {codec : BitVec 6} {t0 t1 : Term} {dflt : Word32} {s : State}
    (hge : T.nf ≤ s.fidx.toNat) : stepField T codec t0 t1 dflt s = .refused .noFieldSelected :=
  if_neg (Nat.not_lt.mpr hge)

/-- A descriptor ill-formed for its place is refused by its procedure (R65, R66, R103; log 9). -/
theorem exec_illFormed {i : Instr} {s : State} (h : isActive s) (hdesc : isDescriptor i = true)
    (hplace : ∀ codec t0 t1 dflt, i = .field codec t0 t1 dflt → s.fidx.toNat < tables.nf)
    (hwf : i.wf tables s.fidx.toNat = false) : exec i s = .refused .illFormedDescriptor := by
  cases i with
  | const c => cases hwf
  | fixed w => rw [exec_fixed_active w s h, decodeFixed_illFormed hwf]; rfl
  | offset w o => rw [exec_offset_active w o s h, decodeOffset_illFormed hwf]; rfl
  | psel a0 a1 a2 a3 => rw [exec_psel_active a0 a1 a2 a3 s h, decodePsel_illFormed hwf]; rfl
  | field codec t0 t1 dflt =>
    rw [exec_field_active codec t0 t1 dflt s h, stepField_illFormed (hplace _ _ _ _ rfl) hwf]; rfl
  | peek n => cases hdesc
  | read n => cases hdesc
  | bitsRead => cases hdesc
  | release => cases hdesc
  | rdt k => cases hdesc
  | run => cases hdesc
  | rdHdr => cases hdesc

/-- Settles O33: an undecodable word is refused by the step, an ill-formed descriptor by its procedure, and a field
descriptor by the field step when `FIDX` selects no field of `FT`. -/
theorem illFormedDescriptorsAreRefused : Obligations.IllFormedDescriptorsAreRefused := by
  refine ⟨fun s d e hfetch h => ?_, fun i s hact hdesc => ⟨?_, ?_⟩⟩
  · rw [step, fetchNext_codec_error hfetch h]
  · exact fun ⟨hplace, hwf⟩ => exec_illFormed hact hdesc hplace hwf
  · rintro ⟨codec, t0, t1, dflt, rfl⟩ hge
    rw [exec_field_active codec t0 t1 dflt s hact, stepField_noField (T := tables) hge]; rfl

end Sys2Proof.Machine
end

section
/-! PROOFS. The response of a command (R57, R58): it has the status of `FAULT`, and an error carries `ERRINFO`. -/

namespace Sys2Proof.Machine

/-- The response of `t` is `Ok` when no fault is latched, else `Err` with the latched fault and `ERRINFO` (R57). -/
def AnswersFault (t : State) : Prop :=
  (t.fault = 0 ∧ ∃ v, t.resp = some (.ok v)) ∨ (t.fault ≠ 0 ∧ t.resp = some (.err t.fault t.errinfo))

theorem causeCode_ne_zero (c : Cause) : causeCode c ≠ 0 := by cases c <;> decide

/-- Raising a fault answers with it (R124). -/
theorem raise_answersFault (c : Cause) (e : Byte) (s : State) : AnswersFault (raise c e s) :=
  .inr ⟨causeCode_ne_zero c, rfl⟩

theorem RaisesEnd.answersFault {u t : State} (h : RaisesEnd u t) : AnswersFault t := by
  rcases h with ⟨x, -, rfl⟩ | ⟨e, x, -, rfl⟩
  · exact raise_answersFault _ _ _
  · exact raise_answersFault _ _ _

/-- A procedure that is done with no fault latched, or has raised one and answered with it. -/
def Res.Answers {α : Type} : Res α → Prop
  | .done _ t => t.fault = 0
  | .raised t => AnswersFault t
  | .stuck _ => True
  | .refused _ => True

theorem OnlyReads.answers {α : Type} {s : State} {p : Res α} (h : OnlyReads s p) (hs : s.fault = 0) : p.Answers := by
  cases p with
  | done v t => exact (h.1 v t rfl).fault.trans hs
  | raised t => obtain ⟨u, -, he⟩ := h.2 t rfl; exact he.answersFault
  | stuck f => trivial
  | refused r => trivial

theorem runSchema_answers (T : Tables) {s : State} (hs : s.fault = 0) : (runSchema T s).Answers := by
  obtain ⟨hdone, hraised⟩ := runSchema_cases T s
  cases e : runSchema T s with
  | done v t => obtain ⟨w, h, u, hu, -, rfl, -⟩ := hdone v t e; exact hu.record.fault.trans hs
  | raised t => obtain ⟨u, -, -, he⟩ := hraised t e; exact he.answersFault
  | stuck f => trivial
  | refused r => trivial

theorem Res.Answers.bind {α β : Type} {p : Res α} {k : α → State → Res β} (hp : p.Answers)
    (hk : ∀ v t, t.fault = 0 → (k v t).Answers) : (p.bind k).Answers := by
  cases p with
  | done v t => exact hk v t hp
  | raised t => exact hp
  | stuck f => trivial
  | refused r => trivial

theorem readHeader_answers (T : Tables) {s : State} (hs : s.fault = 0) : (readHeader T s).Answers := by
  refine ((read_onlyReads Config.sigW s).answers hs).bind fun v t ht => ?_
  split
  · exact (runSchema_answers T ht).bind fun _ _ hu => hu
  · exact raise_answersFault _ _ _

theorem answer_answersFault {p : Res Word64} {t : State} (hp : p.Answers) (e : answer p = .next t) :
    AnswersFault t := by
  cases p with
  | done v u => cases e; exact .inl ⟨hp, v, rfl⟩
  | raised u => cases e; exact hp
  | stuck f => cases e
  | refused r => cases e

/-- A gated command answers when its procedure does: the gate itself answers with the latched fault, or raises
ILLEGAL_COMMAND (R77). -/
theorem gated_answersFault {legal : Bool} {p : State → Res Word64} {s t : State} (hp : s.fault = 0 → (p s).Answers)
    (e : gated legal (fun u => answer (p u)) s = .next t) : AnswersFault t := by
  by_cases hf : s.fault = 0
  · by_cases hstop : legal = false ∨ s.own = false
    · rw [gated_stopped legal _ s hf hstop] at e
      cases e; exact raise_answersFault .illegalCommand 0 s
    · obtain ⟨hlegal, hown⟩ : legal = true ∧ s.own = true := by simpa using hstop
      rw [gated_active legal _ s ⟨hf, hown⟩ hlegal] at e
      exact answer_answersFault (hp hf) e
  · rw [gated_faulted legal _ s hf] at e
    cases e; exact .inr ⟨hf, rfl⟩

/-- Every command but BITSREAD answers with `Ok`, or with the latched fault (R57). -/
theorem exec_answersFault {i : Instr} {s t : State} (hcmd : isDescriptor i = false) (hi : i ≠ .bitsRead)
    (e : exec i s = .next t) : AnswersFault t := by
  cases i with
  | peek n => exact gated_answersFault (p := peek n.toNat) (peek_onlyReads _ s).answers e
  | read n => exact gated_answersFault (p := read n.toNat) (read_onlyReads _ s).answers e
  | bitsRead => exact absurd rfl hi
  | release => exact gated_answersFault (p := fun u => .done 0 (release u)) (fun h => h) e
  | rdt k =>
    exact gated_answersFault (p := fun u => (decodeCodec tables k u).bind fun v w => .done (v.setWidth 64) w)
      (fun h => ((decodeCodec_onlyReads tables k s).answers h).bind fun _ _ ht => ht) e
  | run => exact gated_answersFault (p := runSchema tables) (runSchema_answers tables) e
  | rdHdr => exact gated_answersFault (p := readHeader tables) (readHeader_answers tables) e
  | const c => cases hcmd
  | fixed w => cases hcmd
  | offset w o => cases hcmd
  | psel a0 a1 a2 a3 => cases hcmd
  | field codec t0 t1 dflt => cases hcmd

/-- Settles O14: BITSREAD answers with the count, every other command as `exec_answersFault` says. -/
theorem everyCommandAnswersWithTheFaultStatus : Obligations.EveryCommandAnswersWithTheFaultStatus := by
  intro i s t hcmd e
  by_cases hi : i = .bitsRead
  · subst hi
    cases e
    exact ⟨_, rfl, rfl, nofun, fun _ => ⟨_, _, rfl⟩, fun _ => rfl⟩
  · rcases exec_answersFault hcmd hi e with ⟨hf, v, hresp⟩ | ⟨hf, hresp⟩
    · exact ⟨_, hresp, hf.symm, nofun, fun h => absurd h hi, nofun⟩
    · refine ⟨_, hresp, rfl, ?_, fun h => absurd h hi, nofun⟩
      rintro _ _ ⟨⟩
      exact ⟨hf, rfl⟩

end Sys2Proof.Machine
end

section
/-! PROOFS. The gate, instruction by instruction (R77), and the two commands that read nothing: BITSREAD (R80) and RELEASE
(R81, R83). -/

namespace Sys2Proof.Machine

/-- Every instruction but BITSREAD runs behind the gate, a command with its legality, a descriptor always legal (R77;
log 5). -/
theorem exec_eq_gated {i : Instr} (hi : i ≠ .bitsRead) :
    ∃ body, ∀ s, exec i s = gated (isDescriptor i || commandLegal i) body s := by
  cases i with
  | bitsRead => exact absurd rfl hi
  | peek n => exact ⟨_, fun _ => rfl⟩
  | read n => exact ⟨_, fun _ => rfl⟩
  | release => exact ⟨_, fun _ => rfl⟩
  | rdt k => exact ⟨_, fun _ => rfl⟩
  | run => exact ⟨_, fun _ => rfl⟩
  | rdHdr => exact ⟨_, fun _ => rfl⟩
  | const c => exact ⟨_, fun _ => rfl⟩
  | fixed w => exact ⟨_, fun _ => rfl⟩
  | offset w o => exact ⟨_, fun _ => rfl⟩
  | psel a0 a1 a2 a3 => exact ⟨_, fun _ => rfl⟩
  | field codec t0 t1 dflt => exact ⟨_, fun _ => rfl⟩

/-- Settles O13: the phases of the gate that every instruction but BITSREAD runs behind. -/
theorem everyInstructionButBitsReadPassesTheGate : Obligations.EveryInstructionButBitsReadPassesTheGate := by
  intro i s hi
  obtain ⟨body, hgate⟩ := exec_eq_gated hi
  rw [hgate s]
  refine ⟨gated_faulted _ body s, fun hf hown => gated_stopped _ body s hf (.inr hown), fun hf hcmd hwf => ?_⟩
  exact gated_stopped _ body s hf (.inl (by rw [hcmd]; exact hwf))

/-- Settles O15: BITSREAD has no gate, and only responds. -/
theorem bitsReadAnswersInEveryPhase : Obligations.BitsReadAnswersInEveryPhase := fun _ => rfl

/-- While the block is active RELEASE runs `release()` (R77, R81). -/
theorem exec_release_active (s : State) (h : isActive s) : exec .release s = .next (respond (.ok 0) (release s)) :=
  gated_active (commandLegal .release) (fun t => answer (.done 0 (release t))) s h rfl

/-- Settles O18: the gate lets RELEASE through, and `release()` is the state named. -/
theorem releaseDiscardsTheWindow : Obligations.ReleaseDiscardsTheWindow := exec_release_active

/-- Settles O19: RELEASE leaves `PULLED` and `BITS_READ`, and these differ by the buffered bits before it (R19). -/
theorem releaseLosesTheBufferedBits : Obligations.ReleaseLosesTheBufferedBits := by
  intro s hinv hact
  refine ⟨_, exec_release_active s hact, rfl, rfl, ?_⟩
  have haccount := hinv.account hact.2
  simp only [respond_pulled_eq, release_pulled_eq, respond_bitsRead_eq, release_bitsRead_eq]
  omega

/-- What the gate ends in, by phase (R77): the latched fault again, ILLEGAL_COMMAND, or what the rule ends in. -/
theorem gated_cases (legal : Bool) (body : State → Out) (s : State) :
    gated legal body s = .next (respond (.err s.fault s.errinfo) s) ∨
    (s.fault = 0 ∧ gated legal body s = .next (raise .illegalCommand 0 s)) ∨
    (isActive s ∧ legal = true ∧ gated legal body s = body s) := by
  by_cases hf : s.fault = 0
  · by_cases hstop : legal = false ∨ s.own = false
    · exact .inr (.inl ⟨hf, gated_stopped legal body s hf hstop⟩)
    · obtain ⟨hlegal, hown⟩ : legal = true ∧ s.own = true := by simpa using hstop
      exact .inr (.inr ⟨⟨hf, hown⟩, hlegal, gated_active legal body s ⟨hf, hown⟩ hlegal⟩)
  · exact .inl (gated_faulted legal body s hf)

/-- Settles O47: BITSREAD responds and RELEASE empties the window; the gate responds or latches ILLEGAL_COMMAND. -/
theorem bitsReadAndReleaseFrame : Obligations.BitsReadAndReleaseFrame := by
  rintro i s t (rfl | rfl) e
  · cases e; simp
  · rcases gated_cases _ (fun u => answer (.done 0 (release u))) s with h | ⟨hf, h⟩ | ⟨-, -, h⟩ <;>
      cases h.symm.trans e
    · simp
    · simp [hf, causeCode]
    · simp

end Sys2Proof.Machine
end

section
/-! PROOFS. PEEK and READ (R73 to R79): the stream bits they answer, what a READ after a PEEK meets, and how READs compose
(R82, R84). -/

namespace Sys2Proof.Machine

/-! ### The stream bits -/

/-- Bytes that are not needed for the next `m` bits do not change them (R42). -/
theorem window_mod (s : State) {m k : Nat} (ha : s.offers m) (hk : s.pullsFor m ≤ k) :
    s.window k % 2 ^ m = s.bits 0 m := by
  obtain ⟨d, rfl⟩ := Nat.exists_eq_add_of_le hk
  obtain ⟨j, hj⟩ := Nat.exists_eq_add_of_le (pullsFor_spec s m)
  rw [window_add s _ d ha, hj, Nat.pow_add, Nat.mul_left_comm, Nat.add_mul_mod_self_left, State.bits, Nat.zero_add,
    Nat.pow_zero, Nat.div_one]

/-- The next `a + b` stream bits are the next `a` with the `b` behind them above (R42). -/
theorem bits_add (s : State) (a b : Nat) (ha : s.offers a) :
    s.bits 0 (a + b) = s.bits 0 a + s.bits a b * 2 ^ a := by
  rw [← window_mod s ha (pullsFor_mono s (Nat.le_add_right a b)), State.bits, State.bits, Nat.zero_add, Nat.pow_zero,
    Nat.div_one, Nat.pow_add, Nat.mod_mul, Nat.mul_comm (2 ^ a)]

/-- The low bits of the next `n` stream bits. -/
theorem bits_mod (s : State) {m n : Nat} (hmn : m ≤ n) (hm : s.offers m) : s.bits 0 n % 2 ^ m = s.bits 0 m := by
  obtain ⟨d, rfl⟩ := Nat.exists_eq_add_of_le hmn
  rw [bits_add s m d hm, Nat.add_mul_mod_self_right, Nat.mod_eq_of_lt (bits_lt s 0 m)]

/-- A value of up to 64 stream bits fits the response (R57). -/
theorem toNat_ofNat_bits (s : State) (p : Nat) {n : Nat} (hn : n ≤ 64) :
    (BitVec.ofNat 64 (s.bits p n)).toNat = s.bits p n := by
  rw [BitVec.toNat_ofNat]
  exact Nat.mod_eq_of_lt ((bits_lt s p n).trans_le (Nat.pow_le_pow_right (by omega) hn))

/-! ### The response is beside the stream -/

theorem WindowOk.respond {s : State} (w : WindowOk s) (r : Response) : WindowOk (respond r s) := ⟨w.bound, w.above⟩

@[simp] theorem respond_bits (r : Response) (s : State) (p n : Nat) : (respond r s).bits p n = s.bits p n := rfl

@[simp] theorem respond_lookedAt (r : Response) (s : State) (n : Nat) :
    (respond r s).lookedAt n = respond r (s.lookedAt n) := rfl

@[simp] theorem respond_consumed (r : Response) (s : State) (n : Nat) :
    (respond r s).consumed n = respond r (s.consumed n) := rfl

@[simp] theorem respond_respond (q r : Response) (s : State) : respond q (respond r s) = respond q s := rfl

/-! ### After a PEEK -/

theorem lookedAt_window (s : State) (n : Nat) (w : WindowOk s) (hn : n ≤ 56) : WindowOk (s.lookedAt n) :=
  delivered_window s _ w (lookedAt_fits s n w hn)

theorem lookedAt_nbits (s : State) (n : Nat) (w : WindowOk s) (hn : n ≤ 56) :
    (s.lookedAt n).nbits.toNat = s.nbits.toNat + 8 * s.pullsFor n :=
  delivered_nbits s _ (lookedAt_fits s n w hn)

/-- After a PEEK of `n` bits these are buffered. -/
theorem le_lookedAt_nbits (s : State) (n : Nat) (w : WindowOk s) (hn : n ≤ 56) : n ≤ (s.lookedAt n).nbits.toNat := by
  rw [lookedAt_nbits s n w hn]; exact pullsFor_spec s n

/-- Looking at the next bits does not change them (R74). -/
theorem lookedAt_bits (s : State) {m n : Nat} (w : WindowOk s) (hn : n ≤ 56) (hmn : m ≤ n) (ha : s.offers n) :
    (s.lookedAt n).bits 0 m = s.bits 0 m := by
  have hbuffered : m ≤ (s.lookedAt n).nbits.toNat := hmn.trans (le_lookedAt_nbits s n w hn)
  rw [State.bits, Nat.zero_add, pullsFor_of_le _ m hbuffered, window_zero, Nat.pow_zero, Nat.div_one, State.lookedAt,
    delivered_acc s _ w (lookedAt_fits s n w hn), window_mod s (offers_mono ha hmn) (pullsFor_mono s hmn)]

/-- Looking at buffered bits changes nothing. -/
theorem lookedAt_of_le (s : State) (m : Nat) (h : m ≤ s.nbits.toNat) : s.lookedAt m = s := by
  rw [State.lookedAt, pullsFor_of_le s m h, delivered_zero]

/-- Consuming buffered bits pulls nothing. -/
theorem consumed_of_le (s : State) (n : Nat) (h : n ≤ s.nbits.toNat) :
    (s.consumed n).src = s.src ∧ (s.consumed n).pulled = s.pulled := by
  simp [State.consumed, pullsFor_of_le s n h, Source.after]

/-! ### The two commands in the ACTIVE phase -/

/-- PEEK of a width in range, while the block is active, runs `peek` (R77, R78). -/
theorem exec_peek_active (n : BitVec 6) (s : State) (h : isActive s) (h1 : 1 ≤ n.toNat) (h56 : n.toNat ≤ 56) :
    exec (.peek n) s = answer (peek n.toNat s) :=
  gated_active (commandLegal (.peek n)) (fun t => answer (peek n.toNat t)) s h (countOk_iff.mpr ⟨h1, h56⟩)

section
variable {n : BitVec 6} {s : State} (w : WindowOk s) (hact : isActive s)
include w hact

theorem exec_peek_offers (h1 : 1 ≤ n.toNat) (h56 : n.toNat ≤ 56) (ha : s.offers n.toNat) :
    exec (.peek n) s = .next (respond (.ok (BitVec.ofNat 64 (s.bits 0 n.toNat))) (s.lookedAt n.toNat)) := by
  rw [exec_peek_active n s hact h1 h56, peek_ok _ s w h56 ha]; rfl

theorem exec_read_offers (h1 : 1 ≤ n.toNat) (h56 : n.toNat ≤ 56) (ha : s.offers n.toNat)
    (hcount : s.bitsRead.toNat + n.toNat < 2 ^ 64) :
    exec (.read n) s = .next (respond (.ok (BitVec.ofNat 64 (s.bits 0 n.toNat))) (s.consumed n.toNat)) := by
  rw [exec_read_active n s hact h1 h56, read_ok _ s w h56 ha hcount]; rfl

/-- A PEEK answered with `Ok` had a width in range, on a stream that has its bits (R78). -/
theorem exec_peek_ok {t : State} {v : Word64} (e : exec (.peek n) s = .next t) (hok : t.resp = some (.ok v)) :
    1 ≤ n.toNat ∧ n.toNat ≤ 56 ∧ s.offers n.toNat ∧ v = BitVec.ofNat 64 (s.bits 0 n.toNat) ∧
      t = respond (.ok v) (s.lookedAt n.toNat) := by
  obtain ⟨hlegal, hbody⟩ := gated_ok (body := fun u => answer (peek n.toNat u)) hact e hok
  obtain ⟨h1, h56⟩ := countOk_iff.mp hlegal
  obtain ⟨x, u, hpeek, rfl⟩ := answer_ok (peek_onlyReads n.toNat s) hbody hok
  cases hok
  by_cases ha : s.offers n.toNat
  · rw [peek_ok _ s w h56 ha] at hpeek
    cases hpeek; exact ⟨h1, h56, ha, rfl, rfl⟩
  · rw [peek_short _ s w h56 ha] at hpeek
    exact absurd hpeek (endRes_ne_done _ _ _)

/-- A READ answered with `Ok` likewise, with a count in range (R79, R17). -/
theorem exec_read_ok {t : State} {v : Word64} (e : exec (.read n) s = .next t) (hok : t.resp = some (.ok v)) :
    1 ≤ n.toNat ∧ n.toNat ≤ 56 ∧ s.offers n.toNat ∧ s.bitsRead.toNat + n.toNat < 2 ^ 64 ∧
      v = BitVec.ofNat 64 (s.bits 0 n.toNat) ∧ t = respond (.ok v) (s.consumed n.toNat) := by
  obtain ⟨hlegal, hbody⟩ := gated_ok (body := fun u => answer (read n.toNat u)) hact e hok
  obtain ⟨h1, h56⟩ := countOk_iff.mp hlegal
  obtain ⟨x, u, hread, rfl⟩ := answer_ok (read_onlyReads n.toNat s) hbody hok
  cases hok
  rcases read_cases _ s w h56 with ⟨ha, hcount, h⟩ | ⟨-, h⟩ | ⟨-, -, h⟩ <;> rw [h] at hread
  · cases hread; exact ⟨h1, h56, ha, hcount, rfl, rfl⟩
  · exact absurd hread (endRes_ne_done _ _ _)
  · cases hread

/-- Two READs that the stream has the bits for: the second starts where the first ended, and their values join to the
next `a + b` bits, also where these pass 56 (R82). -/
theorem exec_read_read {a b : BitVec 6} (ha1 : 1 ≤ a.toNat) (ha56 : a.toNat ≤ 56) (hb1 : 1 ≤ b.toNat)
    (hb56 : b.toNat ≤ 56) (hoff : s.offers (a.toNat + b.toNat))
    (hcount : s.bitsRead.toNat + (a.toNat + b.toNat) < 2 ^ 64) :
    ∃ t x y, exec (.read a) s = .next t ∧ t.resp = some (.ok x) ∧
      exec (.read b) t = .next (respond (.ok y) (s.consumed (a.toNat + b.toNat))) ∧
      x.toNat + y.toNat * 2 ^ a.toNat = s.bits 0 (a.toNat + b.toNat) := by
  have hoffa : s.offers a.toNat := offers_mono hoff (Nat.le_add_right _ _)
  have hcounta : s.bitsRead.toNat + a.toNat < 2 ^ 64 := by omega
  have hwa := consumed_window s a.toNat w
  have hcountb : (s.consumed a.toNat).bitsRead.toNat + b.toNat < 2 ^ 64 := by
    rw [consumed_bitsRead s _ hcounta]; omega
  refine ⟨_, _, BitVec.ofNat 64 (s.bits a.toNat b.toNat), exec_read_offers w hact ha1 ha56 hoffa hcounta, rfl, ?_, ?_⟩
  · rw [exec_read_offers (hwa.respond _) hact hb1 hb56 ((consumed_offers s _ _ w hoffa).mpr hoff) hcountb, respond_bits,
      respond_consumed, respond_respond, consumed_bits s _ 0 _ w hoffa, consumed_consumed s _ _ w hoffa, Nat.add_zero]
  · rw [toNat_ofNat_bits s _ (by omega), toNat_ofNat_bits s _ (by omega), bits_add s _ _ hoffa]

end

/-! ### The obligations -/

/-- Settles O16: the two ends of `peek`. -/
theorem peekAnswersTheNextBits : Obligations.PeekAnswersTheNextBits := by
  intro n s hact w h1 h56
  refine ⟨exec_peek_offers w hact h1 h56, fun hshort => ?_⟩
  rw [exec_peek_active n s hact h1 h56, peek_short _ s w h56 hshort]
  exact answer_endRes _

/-- Settles O17: the three ends of `read`. -/
theorem readAnswersAndConsumesTheNextBits : Obligations.ReadAnswersAndConsumesTheNextBits := by
  intro n s hact w h1 h56
  refine ⟨exec_read_offers w hact h1 h56, fun ha hover => ?_, fun hshort => ?_⟩
  · rw [exec_read_active n s hact h1 h56, read_overflow _ s w h56 ha hover]; rfl
  · rw [exec_read_active n s hact h1 h56, read_short _ s w h56 hshort]
    exact answer_endRes _

/-- Settles O20: after the PEEK the bits are buffered, and the READ consumes them. -/
theorem peekThenReadAgree : Obligations.PeekThenReadAgree := by
  intro n s t v w hact e hok hcount
  obtain ⟨h1, h56, ha, rfl, rfl⟩ := exec_peek_ok w hact e hok
  have hw := lookedAt_window s n.toNat w h56
  have hbuffered := le_lookedAt_nbits s n.toNat w h56
  obtain ⟨hsrc, hpulled⟩ := consumed_of_le (s.lookedAt n.toNat) n.toNat hbuffered
  refine ⟨respond (.ok (BitVec.ofNat 64 (s.bits 0 n.toNat))) ((s.lookedAt n.toNat).consumed n.toNat), ?_, rfl, hsrc,
    hpulled, consumed_bitsRead (s.lookedAt n.toNat) n.toNat hcount⟩
  rw [exec_read_offers (hw.respond _) hact h1 h56 (offers_of_le _ _ hbuffered) hcount, respond_bits, respond_consumed,
    respond_respond, lookedAt_bits s w h56 (le_refl _) ha]

/-- Settles O21: after the PEEK the narrower one finds its bits buffered. -/
theorem narrowerPeekPullsNothing : Obligations.NarrowerPeekPullsNothing := by
  intro n m s t v w hact e hok hm1 hmn
  obtain ⟨-, h56, ha, rfl, rfl⟩ := exec_peek_ok w hact e hok
  have hw := lookedAt_window s n.toNat w h56
  have hbuffered : m.toNat ≤ (s.lookedAt n.toNat).nbits.toNat := hmn.trans (le_lookedAt_nbits s n.toNat w h56)
  rw [exec_peek_offers (hw.respond _) hact hm1 (hmn.trans h56) (offers_of_le _ _ hbuffered), respond_bits,
    respond_lookedAt, lookedAt_of_le _ _ hbuffered, lookedAt_bits s w h56 hmn ha, toNat_ofNat_bits s 0 (by omega),
    bits_mod s hmn (offers_mono ha hmn)]
  rfl

/-- Settles O22: two READs of the stream bits of one. -/
theorem aReadSplitsInTwo : Obligations.AReadSplitsInTwo := by
  intro a b c s u z w hact ha1 hb1 hc e hok
  obtain ⟨-, h56, hoff, hcount, rfl, rfl⟩ := exec_read_ok w hact e hok
  rw [toNat_ofNat_bits s 0 (by omega)]
  rw [hc] at h56 hoff hcount ⊢
  obtain ⟨t, x, y, hreada, hx, hreadb, hjoin⟩ :=
    exec_read_read w hact ha1 (by omega) hb1 (by omega) hoff hcount
  exact ⟨t, _, x, y, hreada, hx, hreadb, rfl, hjoin.symm, rfl⟩

/-- Settles O23: the two READs of `exec_read_read`, whose widths need not fit one. -/
theorem twoReadsJoinToAWiderValue : Obligations.TwoReadsJoinToAWiderValue := by
  intro a b s w hact ha1 ha56 hb1 hb56 hoff hcount
  obtain ⟨t, x, y, hreada, hx, hreadb, hjoin⟩ := exec_read_read w hact ha1 ha56 hb1 hb56 hoff hcount
  exact ⟨t, _, x, y, hreada, hx, hreadb, rfl, hjoin⟩

/-- Settles O26: the invariants hold after the PEEK, and its last pull found fewer than `n` bits buffered. -/
theorem theWindowIsTightAfterAPull : Obligations.TheWindowIsTightAfterAPull := by
  intro n s t v hinv hact e hok
  have ht := exec_regInv _ s t hinv e
  obtain ⟨-, h56, -, -, rfl⟩ := exec_peek_ok hinv.window hact e hok
  refine ⟨ht.window.bound, ht.account hact.2, fun hpulled => ?_⟩
  have hpulls : s.pullsFor n.toNat ≠ 0 := fun h => hpulled (congrArg (s.pulled + ·) h)
  have hnbits := lookedAt_nbits s n.toNat hinv.window h56
  rw [respond_nbits_eq, hnbits]
  simp only [State.pullsFor] at hpulls ⊢
  omega

end Sys2Proof.Machine
end

section
/-! PROOFS. What PEEK, READ and RDT leave alone (R78, R79, R90). -/

namespace Sys2Proof.Machine

/-- What a reading command does not touch, and that a fault it latches is its own (R125, R126). -/
def ReaderFrame (s t : State) : Prop :=
  t.own = s.own ∧ t.slots = s.slots ∧ t.fidx = s.fidx ∧ t.hdr = s.hdr ∧ t.host = s.host ∧ t.fetch = s.fetch ∧
    t.value = s.value ∧ ((t.fault = s.fault ∧ t.errinfo = s.errinfo) ∨ (s.fault = 0 ∧ t.fault ≠ 0))

theorem ReaderFrame.respond {s t : State} (h : ReaderFrame s t) (r : Response) : ReaderFrame s (respond r t) := h

theorem Reads.readerFrame {s t : State} (h : Reads s t) : ReaderFrame s t :=
  ⟨h.own, h.slots, h.fidx, h.hdr, h.host, h.fetch, h.value, .inl ⟨h.fault, h.errinfo⟩⟩

/-- A raise from a state without a fault latches one, and changes no other register but `ERRINFO` (R124). -/
theorem Reads.raise_readerFrame {s u : State} (h : Reads s u) (hf : s.fault = 0) (c : Cause) (e : Byte) (src : Source) :
    ReaderFrame s (raise c e { u with src := src }) :=
  ⟨h.own, h.slots, h.fidx, h.hdr, h.host, h.fetch, h.value, .inr ⟨hf, causeCode_ne_zero c⟩⟩

theorem OnlyReads.readerFrame {α : Type} {s : State} {p : Res α} (hp : OnlyReads s p) (hf : s.fault = 0) :
    p.All (ReaderFrame s) := by
  refine hp.all (fun _ => Reads.readerFrame) fun u t hu he => ?_
  rcases he with ⟨x, -, rfl⟩ | ⟨e, x, -, rfl⟩
  · exact hu.raise_readerFrame hf _ _ x
  · exact hu.raise_readerFrame hf _ _ x

/-- A command that only reads has the frame: while it is stopped at the gate too. -/
theorem gated_readerFrame {legal : Bool} {p : State → Res Word64} {s t : State} (hp : OnlyReads s (p s))
    (e : gated legal (fun u => answer (p u)) s = .next t) : ReaderFrame s t := by
  rcases gated_cases legal (fun u => answer (p u)) s with h | ⟨hf, h⟩ | ⟨⟨hf, -⟩, -, h⟩ <;> rw [h] at e
  · cases e; exact (Reads.refl s).readerFrame.respond _
  · cases e; exact (Reads.refl s).raise_readerFrame hf .illegalCommand 0 s.src
  · have hframe := hp.readerFrame hf
    cases hps : p s with
    | done v u => rw [hps] at e hframe; cases e; exact hframe.respond _
    | raised u => rw [hps] at e hframe; cases e; exact hframe
    | stuck f => rw [hps] at e; cases e
    | refused r => rw [hps] at e; cases e

/-- Filling the window consumes nothing (R73). -/
theorem refillLoop_bitsRead (k n : Nat) (s : State) : (refillLoop k n s).All fun t => t.bitsRead = s.bitsRead := by
  induction k generalizing s with
  | zero => rfl
  | succ k ih =>
    unfold refillLoop
    split
    · split
      · exact ih _
      · rfl
      · rfl
      · trivial
    · rfl

/-- Nor does looking at it (R74). -/
theorem peek_bitsRead (n : Nat) (s : State) : (peek n s).All fun t => t.bitsRead = s.bitsRead :=
  (refillLoop_bitsRead 8 n s).bind (fun _ h => h) fun _ _ _ h => h

theorem exec_peek_bitsRead {n : BitVec 6} {s t : State} (e : exec (.peek n) s = .next t) : t.bitsRead = s.bitsRead :=
  exec_keeps (P := fun t => t.bitsRead = s.bitsRead) (i := .peek n) (fun _ _ _ _ _ h => h) rfl rfl
    (fun _ _ => peek_bitsRead n.toNat s) e

/-- Settles O46: the three commands only read. -/
theorem readerCommandsFrame : Obligations.ReaderCommandsFrame := by
  intro i s t hi e
  have hframe : ReaderFrame s t := by
    rcases hi with ⟨n, rfl⟩ | ⟨n, rfl⟩ | ⟨k, rfl⟩
    · exact gated_readerFrame (p := peek n.toNat) (peek_onlyReads n.toNat s) e
    · exact gated_readerFrame (p := read n.toNat) (read_onlyReads n.toNat s) e
    · exact gated_readerFrame (p := fun u => (decodeCodec tables k u).bind fun v w => .done (v.setWidth 64) w)
        ((decodeCodec_onlyReads tables k s).bind fun _ u _ => OnlyReads.done _ (Reads.refl u)) e
  obtain ⟨hown, hslots, hfidx, hhdr, hhost, hfetch, hvalue, hfault⟩ := hframe
  refine ⟨hown, hslots, hfidx, hhdr, hhost, hfetch, hvalue, exec_sourceMoved e, ?_, hfault⟩
  rintro ⟨n, rfl⟩
  exact exec_peek_bitsRead e

end Sys2Proof.Machine
end

section
/-! PROOFS. No bit is consumed that was neither buffered nor delivered (R19, R84, R121). What the window and the count
together hold is followed through every procedure: `read` and `peek` keep it, and the rest only calls these and writes
slots. -/

namespace Sys2Proof.Machine

/-! ### What `read` and `peek` keep, every procedure keeps -/

section
variable {P : State → Prop} (hread : ∀ {n : Nat} {s : State}, n ≤ 56 → P s → (read n s).All P)
include hread

theorem decodeFixed_keeps {s : State} (h : P s) (w : BitVec 6) : (decodeFixed w s).All P := by
  unfold decodeFixed
  split
  · rename_i hw
    exact (hread ((widthOk_le hw).trans (by omega)) h).bind (fun _ ht => ht) fun _ _ _ ht => ht
  · trivial

theorem decodeOffset_keeps {s : State} (h : P s) (w : BitVec 6) (o : Word32) : (decodeOffset w o s).All P := by
  unfold decodeOffset
  split
  · rename_i hw
    rw [Bool.and_eq_true] at hw
    exact (hread ((widthOk_le hw.1).trans (by omega)) h).bind (fun _ ht => ht) fun _ _ _ ht => ht
  · trivial

theorem decodeArm_keeps {s : State} (h : P s) (T : Tables) (a : BitVec 6) : (decodeArm T a s).All P := by
  unfold decodeArm
  split
  · exact h
  · exact decodeFixed_keeps hread h _
  · exact decodeOffset_keeps hread h _ _
  · trivial

theorem decodePsel_keeps {s : State} (h : P s) (T : Tables) (a0 a1 a2 a3 : BitVec 6) :
    (decodePsel T a0 a1 a2 a3 s).All P := by
  unfold decodePsel
  split
  · exact (hread (by decide) h).bind (fun _ ht => ht) fun _ _ _ ht => decodeArm_keeps hread ht T _
  · trivial

theorem decodeCodec_keeps {s : State} (h : P s) (T : Tables) (k : BitVec 6) : (decodeCodec T k s).All P := by
  unfold decodeCodec
  split
  · exact h
  · exact decodeFixed_keeps hread h _
  · exact decodeOffset_keeps hread h _ _
  · exact decodePsel_keeps hread h T _ _ _ _
  · trivial

variable (hrecord : ∀ {s : State} (slots : Vector SlotCell 8) (fidx : BitVec 4) (hdr : HdrRecord), P s →
  P { s with slots := slots, fidx := fidx, hdr := hdr })
include hrecord

theorem stepField_keeps {s : State} (h : P s) (T : Tables) (codec : BitVec 6) (t0 t1 : Term) (d : Word32) :
    (stepField T codec t0 t1 d s).All P := by
  unfold stepField
  split
  · split
    · refine (present_all h t0 t1).bind (fun _ ht => ht) fun p t _ ht => ?_
      cases p with
      | true => exact (decodeCodec_keeps hread ht T codec).bind (fun _ hu => hu) fun _ u _ hu => hrecord _ _ u.hdr hu
      | false => exact hrecord _ _ t.hdr ht
    · trivial
  · trivial

theorem runFields_keeps {s : State} (h : P s) (T : Tables) (k : Nat) : (runFields T k s).All P := by
  induction k generalizing s with
  | zero => exact h
  | succ k ih =>
    unfold runFields
    split
    · refine Res.All.bind (P := P) ?_ (fun _ ht => ht) fun _ _ _ ht => ih ht
      rcases fieldStep_eq T s with e | ⟨codec, t0, t1, d, -, e⟩ <;> rw [e]
      · trivial
      · exact stepField_keeps hread hrecord h T codec t0 t1 d
    · exact h

theorem runSchema_keeps {s : State} (h : P s) (T : Tables) : (runSchema T s).All P := by
  unfold runSchema
  split
  · refine (runFields_keeps hread hrecord (hrecord _ _ _ h) T T.nf).bind (fun _ ht => ht) fun _ t _ ht => ?_
    exact (assemble_all ht T).bind (fun _ hu => hu) fun _ u _ hu => hrecord u.slots u.fidx _ hu
  · trivial

end

/-! ### The account of the bits -/

/-- From `s` to `t`, the bits of the bytes pulled are those consumed and those added to the window (R19). -/
structure BitsAccounted (s t : State) : Prop where
  window : WindowOk t
  count : s.bitsRead.toNat ≤ t.bitsRead.toNat
  account : 8 * t.pulled + (s.bitsRead.toNat + s.nbits.toNat) = 8 * s.pulled + (t.bitsRead.toNat + t.nbits.toNat)

section
variable {s t : State} (h : BitsAccounted s t)
include h

theorem BitsAccounted.delivered {k : Nat} (hfits : t.nbits.toNat + 8 * k ≤ 63) : BitsAccounted s (t.delivered k) := by
  refine ⟨delivered_window t k h.window hfits, h.count, ?_⟩
  have haccount := h.account
  rw [delivered_nbits t k hfits, delivered_pulled_eq, delivered_bitsRead_eq]
  omega

theorem BitsAccounted.drained {n : Nat} (hn : n ≤ 56) : BitsAccounted s (t.drained n) := by
  have hfits := lookedAt_fits t n h.window hn
  have hlen := ahead_length_le (t.pullsFor n) t.src
  exact h.delivered (by omega)

theorem BitsAccounted.consumed {n : Nat} (hcount : t.bitsRead.toNat + n < 2 ^ 64) :
    BitsAccounted s (t.consumed n) := by
  have hbits := consumed_bitsRead t n hcount
  have hnbits := consumed_nbits t n h.window
  have hspec := pullsFor_spec t n
  have hbefore := h.count
  have haccount := h.account
  refine ⟨consumed_window t n h.window, by omega, ?_⟩
  rw [hbits, hnbits, consumed_pulled_eq]
  omega

/-- The end of the source consumes nothing (R121, R122). -/
theorem BitsAccounted.endRes {α : Type} : (endRes t : Res α).All (BitsAccounted s) := by
  unfold Machine.endRes
  split
  · exact ⟨⟨h.window.bound, h.window.above⟩, h.count, h.account⟩
  · exact ⟨⟨h.window.bound, h.window.above⟩, h.count, h.account⟩
  · exact h
  · trivial

theorem peek_accounted {n : Nat} (hn : n ≤ 56) : (peek n t).All (BitsAccounted s) := by
  by_cases ha : t.offers n
  · rw [peek_ok n t h.window hn ha]; exact h.delivered (lookedAt_fits t n h.window hn)
  · rw [peek_short n t h.window hn ha]; exact (h.drained hn).endRes

end

theorem read_accounted {s t : State} {n : Nat} (hn : n ≤ 56) (h : BitsAccounted s t) :
    (read n t).All (BitsAccounted s) := by
  rcases read_cases n t h.window hn with ⟨-, hcount, e⟩ | ⟨-, e⟩ | ⟨-, -, e⟩ <;> rw [e]
  · exact h.consumed hcount
  · exact (h.drained hn).endRes
  · trivial

/-- What binds slots or sets the header record consumes nothing. -/
theorem record_accounted {s t : State} (slots : Vector SlotCell 8) (fidx : BitVec 4) (hdr : HdrRecord)
    (h : BitsAccounted s t) : BitsAccounted s { t with slots := slots, fidx := fidx, hdr := hdr } :=
  ⟨⟨h.window.bound, h.window.above⟩, h.count, h.account⟩

/-! ### What an instruction consumes -/

/-- The bits consumed from `s` to `t` were buffered in `s` or pulled since (R84 law 4). -/
def BitsSupplied (s t : State) : Prop :=
  s.bitsRead.toNat ≤ t.bitsRead.toNat ∧
    8 * s.pulled + t.bitsRead.toNat ≤ 8 * t.pulled + (s.bitsRead.toNat + s.nbits.toNat)

theorem BitsAccounted.supplied {s t : State} (h : BitsAccounted s t) : BitsSupplied s t :=
  ⟨h.count, by have := h.account; omega⟩

theorem bitsSupplied_refl (s : State) : BitsSupplied s s := ⟨le_refl _, by omega⟩

/-- RDHDR discards the window at its end, and consumes no bit of it by that (R83, R115). -/
theorem readHeader_supplied {s : State} (h : BitsAccounted s s) (T : Tables) :
    (readHeader T s).All (BitsSupplied s) := by
  unfold readHeader
  refine (read_accounted (by decide) h).bind (fun _ ht => ht.supplied) fun v t _ ht => ?_
  split
  · exact (runSchema_keeps read_accounted record_accounted ht T).bind (fun _ hu => hu.supplied)
      fun _ _ _ hu => hu.supplied
  · exact ht.supplied

theorem endsIn_supplied {s : State} (w : WindowOk s) (i : Instr) : EndsIn (BitsSupplied s) s i := by
  have h : BitsAccounted s s := ⟨w, le_refl _, rfl⟩
  have hmono {α : Type} {p : Res α} (hp : p.All (BitsAccounted s)) : p.All (BitsSupplied s) :=
    hp.mono fun _ => BitsAccounted.supplied
  cases i with
  | peek n => exact fun hn => hmono (peek_accounted h hn)
  | read n => exact fun hn => hmono (read_accounted hn h)
  | bitsRead => exact bitsSupplied_refl s
  | release => exact bitsSupplied_refl s
  | rdt k => exact hmono (decodeCodec_keeps read_accounted h tables k)
  | run => exact hmono (runSchema_keeps read_accounted record_accounted h tables)
  | rdHdr => exact readHeader_supplied h tables
  | const c => exact bitsSupplied_refl s
  | fixed w => exact hmono (decodeFixed_keeps read_accounted h w)
  | offset w o => exact hmono (decodeOffset_keeps read_accounted h w o)
  | psel a0 a1 a2 a3 => exact hmono (decodePsel_keeps read_accounted h tables a0 a1 a2 a3)
  | field codec t0 t1 dflt => exact hmono (stepField_keeps read_accounted record_accounted h tables codec t0 t1 dflt)

theorem exec_supplied {i : Instr} {s t : State} (w : WindowOk s) (e : exec i s = .next t) : BitsSupplied s t :=
  exec_keeps (P := BitsSupplied s) (fun _ _ _ _ _ h => h) (bitsSupplied_refl s) (bitsSupplied_refl s)
    (fun _ => endsIn_supplied w i) e

/-- Settles O52: the bits consumed are within the buffered ones and the bytes that the pulls delivered. -/
theorem noBitIsInvented : Obligations.NoBitIsInvented := by
  intro i s t w e
  obtain ⟨hcount, hsupply⟩ := exec_supplied w e
  obtain ⟨k, hdelivered, hpulled, -⟩ := exec_sourceMoved e
  refine ⟨t.bitsRead.toNat - s.bitsRead.toNat, by omega, ahead_full_mono _ k s.src hdelivered ?_⟩
  simp only [State.pullsFor]
  omega

end Sys2Proof.Machine
end

section
/-! PROOFS. The codec descriptors stepped on their own (R86 to R89; log 4): the ends of each on the stream, and what they
leave alone. -/

namespace Sys2Proof.Machine

/-! ### The ends on the stream -/

/-- A descriptor that meets the end of the source in a read of `n` bits yields no value (R34, R121, R122). -/
theorem yieldValue_short (s : State) (n : Nat) :
    yieldValue (endRes (s.drained n)) = ({ s with value := none } : State).streamEnds n :=
  yieldValue_endRes (s.drained n)

/-- A descriptor whose procedure has the three ends of a read of `n` bits yields its value and consumes these bits, or
ends as the stream does. -/
theorem yieldValue_ends {s : State} {n : Nat} {p : Res Word32} {v : Word32} {r : Refusal}
    (hp : (s.offers n ∧ s.bitsRead.toNat + n < 2 ^ 64 ∧ p = .done v (s.consumed n)) ∨
      (¬ s.offers n ∧ p = endRes (s.drained n)) ∨
      (s.offers n ∧ 2 ^ 64 ≤ s.bitsRead.toNat + n ∧ p = .refused r)) :
    (s.offers n → s.bitsRead.toNat + n < 2 ^ 64 → yieldValue p = .next { s.consumed n with value := some v }) ∧
    (¬ s.offers n → yieldValue p = ({ s with value := none } : State).streamEnds n) := by
  rcases hp with ⟨hoff, -, rfl⟩ | ⟨hshort, rfl⟩ | ⟨hoff, hover, rfl⟩
  · exact ⟨fun _ _ => rfl, fun h => absurd hoff h⟩
  · exact ⟨fun h => absurd h hshort, fun _ => yieldValue_short s n⟩
  · exact ⟨fun _ h => absurd hover (Nat.not_le.mpr h), fun h => absurd hoff h⟩

/-- Settles O27: the gate lets CONST through, and `decode_const` reads nothing. -/
theorem constTakesNoBits : Obligations.ConstTakesNoBits :=
  fun c s hact => gated_active true (fun t => yieldValue (decodeConst c t)) s hact rfl

/-- Settles O28: the ends of `decode_fixed`. -/
theorem fixedReturnsTheNextBits : Obligations.FixedReturnsTheNextBits := by
  intro w s hact hw h1 h32
  rw [exec_fixed_active w s hact]
  exact yieldValue_ends (decodeFixed_cases w s hw h1 h32)

/-- Settles O29: the ends of `decode_offset`; the bits read are below `2^W`, so their sum with the bias fits 32 bits
(R66, R92). -/
theorem offsetAddsItsBias : Obligations.OffsetAddsItsBias := by
  intro w o s hact hw h1 h32 hbias
  obtain ⟨hdone, hshort⟩ := yieldValue_ends (decodeOffset_cases w o s hw h1 h32 hbias)
  rw [exec_offset_active w o s hact]
  refine ⟨fun hoff hcount => ⟨BitVec.ofNat 32 (s.bits 0 w.toNat + o.toNat), ?_, hdone hoff hcount⟩, hshort⟩
  have hbits := bits_lt s 0 w.toNat
  rw [BitVec.toNat_ofNat]
  exact Nat.mod_eq_of_lt (by omega)

/-- Settles O30: the ends of `decode_psel`; a stream that lacks bits of the selector lacks bits of the arm too. -/
theorem pselReadsTheSelectorThenOneArm : Obligations.PselReadsTheSelectorThenOneArm := by
  intro a0 a1 a2 a3 a s c hact hw hwf ha hc hcount
  have hselector : s.offers (2 + c.2) → s.offers 2 := fun h => offers_mono h (Nat.le_add_right 2 c.2)
  have hcases := decodePsel_cases a0 a1 a2 a3 a s hw hwf ha
  rw [← hc] at hcases
  rw [exec_psel_active a0 a1 a2 a3 s hact]
  rcases hcases with ⟨hoff, -, e⟩ | ⟨hsel, hshort, -, e⟩ | ⟨hshort, e⟩ | ⟨hover, -⟩
  · exact ⟨fun _ => by rw [e]; rfl, fun _ h => absurd hoff h, fun h => absurd (hselector hoff) h⟩
  · exact ⟨fun h => absurd h hshort, fun _ _ => by rw [e]; exact yieldValue_short (s.consumed 2) c.2,
      fun h => absurd hsel h⟩
  · exact ⟨fun h => absurd (hselector h) hshort, fun h => absurd h hshort,
      fun _ => by rw [e]; exact yieldValue_short s 2⟩
  · exact absurd hover (Nat.not_le.mpr hcount)

/-! ### The frame -/

/-- What a stepped codec descriptor does not touch; and that its response is new exactly when a fault is latched after it,
with that fault, which stays the one latched before (R57, R126). -/
def CodecFrame (s t : State) : Prop :=
  t.own = s.own ∧ t.slots = s.slots ∧ t.fidx = s.fidx ∧ t.hdr = s.hdr ∧ t.host = s.host ∧ t.fetch = s.fetch ∧
    ((t.fault = 0 ∧ s.fault = 0 ∧ t.resp = s.resp ∧ t.errinfo = s.errinfo) ∨
      (t.fault ≠ 0 ∧ t.resp = some (.err t.fault t.errinfo) ∧ (s.fault ≠ 0 → t.fault = s.fault)))

theorem CodecFrame.value {s t : State} (h : CodecFrame s t) (v : Option Word32) :
    CodecFrame s { t with value := v } := h

section
variable {s u : State} (hf : s.fault = 0) (h : Reads s u)
include hf h

theorem Reads.codecFrame : CodecFrame s u :=
  ⟨h.own, h.slots, h.fidx, h.hdr, h.host, h.fetch, .inl ⟨h.fault.trans hf, hf, h.resp, h.errinfo⟩⟩

/-- A raise answers with the fault it latches (R124). -/
theorem Reads.raise_codecFrame (c : Cause) (e : Byte) (src : Source) :
    CodecFrame s (raise c e { u with src := src }) :=
  ⟨h.own, h.slots, h.fidx, h.hdr, h.host, h.fetch, .inr ⟨causeCode_ne_zero c, rfl, fun hs => absurd hf hs⟩⟩

theorem RaisesEnd.codecFrame {t : State} (he : RaisesEnd u t) : CodecFrame s t := by
  rcases he with ⟨x, -, rfl⟩ | ⟨e, x, -, rfl⟩
  · exact h.raise_codecFrame hf _ _ x
  · exact h.raise_codecFrame hf _ _ x

end

/-- A procedure that only reads, from a state without a fault, yields into the frame. -/
theorem yieldValue_codecFrame {p : Res Word32} {s t : State} (hf : s.fault = 0) (hp : OnlyReads s p)
    (e : yieldValue p = .next t) : CodecFrame s t := by
  have hframe : p.All (CodecFrame s) :=
    hp.all (fun _ hu => hu.codecFrame hf) fun _ _ hu he => he.codecFrame hf hu
  cases p with
  | done v u => cases e; exact hframe.value _
  | raised u => cases e; exact hframe.value _
  | stuck f => cases e
  | refused r => cases e

/-- A descriptor whose procedure only reads has the frame, also where the gate stops it (R77; log 5). -/
theorem gated_codecFrame {p : State → Res Word32} {s t : State} (hp : OnlyReads s (p s))
    (e : gated true (fun u => yieldValue (p u)) s = .next t) : CodecFrame s t := by
  by_cases hf : s.fault = 0
  · by_cases hown : s.own = false
    · rw [gated_stopped true _ s hf (.inr hown)] at e
      cases e; exact (Reads.refl s).raise_codecFrame hf .illegalCommand 0 s.src
    · rw [gated_active true _ s ⟨hf, Bool.eq_true_of_not_eq_false hown⟩ rfl] at e
      exact yieldValue_codecFrame hf hp e
  · rw [gated_faulted true _ s hf] at e
    cases e; exact ⟨rfl, rfl, rfl, rfl, rfl, rfl, .inr ⟨hf, rfl, fun _ => rfl⟩⟩

/-- CONST consumes no bit and pulls nothing, in every phase (R86). -/
theorem exec_const_still {c : Word32} {s t : State} (e : exec (.const c) s = .next t) :
    t.bitsRead = s.bitsRead ∧ t.src = s.src :=
  exec_keeps (P := fun t => t.bitsRead = s.bitsRead ∧ t.src = s.src) (i := .const c) (fun _ _ _ _ _ h => h) ⟨rfl, rfl⟩
    ⟨rfl, rfl⟩ (fun _ => ⟨rfl, rfl⟩) e

/-- Settles O48: the procedures of the four kinds only read. -/
theorem codecDescriptorsFrame : Obligations.CodecDescriptorsFrame := by
  intro i s t hi e
  have hframe : CodecFrame s t := by
    rcases hi with ⟨c, rfl⟩ | ⟨w, rfl⟩ | ⟨w, o, rfl⟩ | ⟨a0, a1, a2, a3, rfl⟩
    · exact gated_codecFrame (p := decodeConst c) (decodeConst_onlyReads c s) e
    · exact gated_codecFrame (p := decodeFixed w) (decodeFixed_onlyReads w s) e
    · exact gated_codecFrame (p := decodeOffset w o) (decodeOffset_onlyReads w o s) e
    · exact gated_codecFrame (p := decodePsel tables a0 a1 a2 a3) (decodePsel_onlyReads tables a0 a1 a2 a3 s) e
  obtain ⟨hown, hslots, hfidx, hhdr, hhost, hfetch, hfault⟩ := hframe
  refine ⟨hown, hslots, hfidx, hhdr, hhost, hfetch, exec_sourceMoved e, ?_, hfault⟩
  rintro ⟨c, rfl⟩
  exact exec_const_still e

end Sys2Proof.Machine
end

section
/-! PROOFS. The typed read (R90): RDT answers the value of the wire format (R67 to R69, R108), and every arm of the 4-arm
integer decodes its range (R93). -/

namespace Sys2Proof.Machine

theorem bits_succ_lt (s : State) (p : Nat) {n : Nat} (hn : n ≤ 30) : s.bits p n + 1 < 2 ^ 32 := by
  have hbits := bits_lt s p n
  have hpow : 2 ^ n ≤ 2 ^ 30 := Nat.pow_le_pow_right (by omega) hn
  omega

/-- The value of an entry of `CT` fits 32 bits (R92). -/
theorem wireCodec_lt (s : State) (p k : Nat) : (s.wireCodec p k).1 < 2 ^ 32 := by
  have hbiased := fun q n (hn : n ≤ 30) => bits_succ_lt s q hn
  have hbits := fun q n (hn : n ≤ 30) => Nat.lt_of_succ_lt (hbiased q n hn)
  unfold State.wireCodec
  split
  · exact hbits p 1 (by omega)
  · exact hbits p 5 (by omega)
  · exact hbiased p 9 (by omega)
  · exact hbiased p 13 (by omega)
  · exact hbiased p 18 (by omega)
  · exact hbiased p 30 (by omega)
  · exact hbiased _ _ (armBits_le _)
  · exact hbits p 3 (by omega)
  · exact hbits p 16 (by omega)
  · decide

/-- What RDT ends in when its codec does (R90). -/
def rdtAnswer (p : Res Word32) : Out := answer (p.bind fun v u => .done (v.setWidth 64) u)

theorem rdtAnswer_done {x : Nat} (hx : x < 2 ^ 32) (s : State) :
    rdtAnswer (.done (BitVec.ofNat 32 x) s) = .next (respond (.ok (BitVec.ofNat 64 x)) s) := by
  have hzext : (BitVec.ofNat 32 x).setWidth 64 = BitVec.ofNat 64 x :=
    BitVec.setWidth_ofNat_of_le_of_lt (by decide) hx
  show Host.Outcome.next (respond (.ok ((BitVec.ofNat 32 x).setWidth 64)) s) = _
  rw [hzext]

theorem rdtAnswer_endRes (s : State) : rdtAnswer (endRes s) = s.pullEnds := by
  rw [rdtAnswer, endRes_bind, answer_endRes]

/-- While the block is active RDT of an entry of `CT` answers what the entry's codec ends in (R77, R90). -/
theorem exec_rdt_active (k : BitVec 6) (s : State) (h : isActive s) (hk : k.toNat < 10) :
    exec (.rdt k) s = rdtAnswer (decodeCodec tables k s) :=
  gated_active (commandLegal (.rdt k)) (fun t => rdtAnswer (decodeCodec tables k t)) s h (decide_eq_true hk)

/-- Settles O32: the ends of `decode(k)`; where a PSEL has consumed its selector, the end is that of its payload (R91). -/
theorem rdtAnswersTheCodecValue : Obligations.RdtAnswersTheCodecValue := by
  intro k s c hact hw hk hc hcount
  have hcases := decodeCodec_cases k s hw hk
  rw [← hc] at hcases
  rw [exec_rdt_active k s hact hk]
  rcases hcases with ⟨hoff, -, e⟩ | ⟨hshort, m, hm, -, e⟩ | ⟨hover, -⟩
  · refine ⟨fun _ => ?_, fun h => absurd hoff h⟩
    rw [e]
    exact rdtAnswer_done (hc ▸ wireCodec_lt s 0 k.toNat) _
  · refine ⟨fun h => absurd h hshort, fun _ => ?_⟩
    rw [e, rdtAnswer_endRes, State.codecEnds]
    by_cases hsel : k.toNat = 6 ∧ s.offers 2
    · have hpayload : c.2 - 2 = armBits (s.bits 0 2) := by rw [hc, hsel.1]; exact Nat.add_sub_cancel_left 2 _
      rw [if_pos hsel] at hm ⊢
      rw [hm, hpayload]
      rfl
    · rw [if_neg hsel] at hm ⊢
      rw [hm, consumed_zero, hc]
      rfl
  · exact absurd hover (Nat.not_le.mpr hcount)

/-- A stream that starts with the selector `sel` and then `x - 1` in the arm's width is `x` to entry 6 of `CT` (R69). -/
theorem wireCodec_six {s : State} {sel x : Nat} (hsel : sel < 4) (hx : 1 ≤ x)
    (hbits : s.bits 0 (2 + armBits sel) = sel + 4 * (x - 1)) (hoff : s.offers 2) :
    s.wireCodec 0 6 = (x, 2 + armBits sel) := by
  have hadd := bits_add s 2 (armBits sel) hoff
  have hlt := bits_lt s 0 2
  have hselector : s.bits 0 2 = sel := by omega
  have hpayload : s.bits 2 (armBits sel) + 1 = x := by omega
  show (s.bits (0 + 2) (armBits (s.bits 0 2)) + 1, 2 + armBits (s.bits 0 2)) = _
  rw [hselector, Nat.zero_add, hpayload]

/-- Settles O31: the wire format of entry 6, read by RDT 6. -/
theorem everyArmDecodesItsRange : Obligations.EveryArmDecodesItsRange := by
  intro s sel x hact hw hsel hx _ hbits hoff hcount
  have hwire := wireCodec_six hsel hx hbits (offers_mono hoff (Nat.le_add_right 2 _))
  obtain ⟨hdone, -⟩ := rdtAnswersTheCodecValue 6 s _ hact hw (by decide) hwire.symm hcount
  exact ⟨_, hdone hoff, rfl, consumed_bitsRead s _ hcount⟩

end Sys2Proof.Machine
end

section
/-! PROOFS. The field descriptor stepped on its own (R97, R98; log 4): the slot it binds, the end of its codec, and what
it leaves alone. -/

namespace Sys2Proof.Machine

/-! ### The codec of a field, with the count in range -/

section
variable {k : BitVec 6} {s : State} (w : WindowOk s) (hk : k.toNat < 10)
  (hcount : s.bitsRead.toNat + (s.wireCodec 0 k.toNat).2 < 2 ^ 64)
include w hk hcount

/-- `decode(k)` on a stream that has its bits (R85). -/
theorem decodeCodec_offers (hoff : s.offers (s.wireCodec 0 k.toNat).2) :
    decodeCodec tables k s =
      .done (BitVec.ofNat 32 (s.wireCodec 0 k.toNat).1) (s.consumed (s.wireCodec 0 k.toNat).2) := by
  rcases decodeCodec_cases k s w hk with ⟨-, -, e⟩ | ⟨hshort, -⟩ | ⟨hover, -⟩
  · exact e
  · exact absurd hoff hshort
  · exact absurd hover (Nat.not_le.mpr hcount)

/-- `decode(k)` on a shorter stream ends where `codecEnds` says: a PSEL that fails in its payload has consumed its
selector (R91). -/
theorem decodeCodec_short (hshort : ¬ s.offers (s.wireCodec 0 k.toNat).2) :
    ∃ u, decodeCodec tables k s = endRes u ∧ s.codecEnds k.toNat = u.pullEnds := by
  rcases decodeCodec_cases k s w hk with ⟨hoff, -⟩ | ⟨-, m, hm, -, e⟩ | ⟨hover, -⟩
  · exact absurd hoff hshort
  · refine ⟨_, e, ?_⟩
    rw [State.codecEnds]
    by_cases hsel : k.toNat = 6 ∧ s.offers 2
    · have hpayload : (s.wireCodec 0 k.toNat).2 - 2 = armBits (s.bits 0 2) := by
        rw [hsel.1]; exact Nat.add_sub_cancel_left 2 _
      rw [if_pos hsel] at hm ⊢
      rw [hm, hpayload]; rfl
    · rw [if_neg hsel] at hm ⊢
      rw [hm, consumed_zero]; rfl
  · exact absurd hover (Nat.not_le.mpr hcount)

end

/-- The codec of a well-formed field descriptor is an entry of `CT` (R103). -/
theorem codec_lt_of_wf {codec : BitVec 6} {t0 t1 : Term} {dflt : Word32} {i : Nat}
    (h : (Instr.field codec t0 t1 dflt).wf tables i = true) : codec.toNat < 10 := by
  simp only [Instr.wf, Bool.and_eq_true, indexOk_tables_iff] at h
  obtain ⟨⟨hcodec, -⟩, -⟩ := h
  exact Nat.lt_succ_of_le hcodec

/-- Settles O34: `stepField_eq` with the condition false, and with it true on the two ends of the codec. -/
theorem fieldStepBindsOneSlot : Obligations.FieldStepBindsOneSlot := by
  rintro codec t0 t1 dflt s _ hact w hlt hwf h0 h1 rfl hcount
  have hk := codec_lt_of_wf hwf
  rw [exec_field_active codec t0 t1 dflt s hact, stepField_eq tables codec t0 t1 dflt s hlt hwf h0 h1]
  refine ⟨fun habsent => ?_, fun hpresent hoff => ?_, fun hpresent hshort => ?_⟩
  · rw [habsent]; rfl
  · rw [if_pos hpresent, decodeCodec_offers w hk hcount hoff]; rfl
  · obtain ⟨u, hdecode, hends⟩ := decodeCodec_short w hk hcount hshort
    rw [if_pos hpresent, hdecode, endRes_bind, yieldUnit_endRes, hends]

/-! ### The frame -/

/-- A pull that ends a reading procedure latches a fault, and touches no more than reading does (R121, R122). -/
theorem RaisesEnd.readerFrame {s u t : State} (he : RaisesEnd u t) (hu : Reads s u) (hf : s.fault = 0) :
    ReaderFrame s t ∧ t.fault ≠ 0 := by
  rcases he with ⟨x, -, rfl⟩ | ⟨e, x, -, rfl⟩
  · exact ⟨hu.raise_readerFrame hf _ _ x, causeCode_ne_zero .endOfStream⟩
  · exact ⟨hu.raise_readerFrame hf _ _ x, causeCode_ne_zero .sourceError⟩

/-- The gate runs the rule in the ACTIVE phase only; else a fault is latched after it, and only the fault registers and
the response have changed (R77). -/
theorem gated_active_or_stopped {legal : Bool} {body : State → Out} {s t : State} (e : gated legal body s = .next t) :
    (isActive s ∧ body s = .next t) ∨ (ReaderFrame s t ∧ t.fault ≠ 0) := by
  by_cases hf : s.fault = 0
  · by_cases hstop : legal = false ∨ s.own = false
    · rw [gated_stopped legal body s hf hstop] at e
      cases e
      exact .inr ⟨(Reads.refl s).raise_readerFrame hf .illegalCommand 0 s.src, causeCode_ne_zero .illegalCommand⟩
    · obtain ⟨hlegal, hown⟩ : legal = true ∧ s.own = true := by simpa using hstop
      exact .inl ⟨⟨hf, hown⟩, by rwa [gated_active legal body s ⟨hf, hown⟩ hlegal] at e⟩
  · rw [gated_faulted legal body s hf] at e
    cases e; exact .inr ⟨(Reads.refl s).readerFrame.respond _, hf⟩

/-- What a field descriptor does not touch; and that the slot `FIDX` and `FIDX` change together, or a fault is latched
(R97). -/
def FieldFrame (s t : State) : Prop :=
  t.own = s.own ∧ t.hdr = s.hdr ∧ t.host = s.host ∧ t.fetch = s.fetch ∧ t.value = s.value ∧
    (∀ j : BitVec 3, j.toNat ≠ s.fidx.toNat → t.slots[j.toNat] = s.slots[j.toNat]) ∧
    ((t.fidx = s.fidx ∧ t.slots = s.slots ∧ t.fault ≠ 0) ∨
      (t.fidx = s.fidx + 1 ∧ t.fault = s.fault ∧ t.errinfo = s.errinfo ∧ t.resp = s.resp))

theorem ReaderFrame.fieldFrame {s t : State} (h : ReaderFrame s t) (hf : t.fault ≠ 0) : FieldFrame s t := by
  obtain ⟨hown, hslots, hfidx, hhdr, hhost, hfetch, hvalue, -⟩ := h
  exact ⟨hown, hhdr, hhost, hfetch, hvalue, fun j _ => by rw [hslots], .inl ⟨hfidx, hslots, hf⟩⟩

/-- Reading, then binding the field `FIDX`. -/
theorem Reads.bindField_fieldFrame {s u : State} (h : Reads s u) (v : Word32) : FieldFrame s (bindField v u) := by
  refine ⟨h.own, h.hdr, h.host, h.fetch, h.value, fun j hj => ?_, .inr ⟨?_, h.fault, h.errinfo, h.resp⟩⟩
  · rw [bindField_slots_eq, h.slots, h.fidx, Vector.getElem_setIfInBounds_ne _ hj.symm]
  · rw [bindField_fidx_eq, h.fidx]

/-- Settles O49: behind the gate a field step reads and binds, or meets the end of the source. -/
theorem fieldDescriptorFrame : Obligations.FieldDescriptorFrame := by
  intro codec t0 t1 dflt s t e
  have hframe : FieldFrame s t := by
    rcases gated_active_or_stopped (body := fun u => yieldUnit (stepField tables codec t0 t1 dflt u)) e with
      ⟨⟨hf, -⟩, hstep⟩ | ⟨hstop, hf⟩
    · refine yieldUnit_all (stepField_all (fun v u hu => hu.bindField_fieldFrame v) fun u t hu he => ?_) hstep
      obtain ⟨hraised, hfault⟩ := he.readerFrame hu hf
      exact hraised.fieldFrame hfault
    · exact hstop.fieldFrame hf
  obtain ⟨hown, hhdr, hhost, hfetch, hvalue, hslots, hbound⟩ := hframe
  exact ⟨hown, hhdr, hhost, hfetch, hvalue, exec_sourceMoved e, hslots, hbound⟩

end Sys2Proof.Machine
end

section
/-! PROOFS. RUN and RDHDR on a record (R99, R100, R115): where a record that the stream is too short for stops, and what
the two commands leave alone. -/

namespace Sys2Proof.Machine

/-! ### A short record -/

/-- While the block is active RDHDR answers what `read_header()` ends in (R77, R115). -/
theorem exec_rdHdr_active (s : State) (h : isActive s) : exec .rdHdr s = answer (readHeader tables s) :=
  gated_active (commandLegal .rdHdr) (fun t => answer (readHeader tables t)) s h rfl

/-- A record that the stream is too short for ends its RUN in the failing read of its failing field (R91, R102). -/
theorem runSchema_short {s : State} (w : WindowOk s) (hcount : s.bitsRead.toNat + (s.wireHeader 0).stop < 2 ^ 64)
    (hshort : ¬ s.offers (s.wireHeader 0).stop) :
    runSchema tables s = endRes ((s.recordFails 0 (s.failingField 0)).drained
      (s.fieldStart 0 (s.failingField 0 + 1) - s.failingPosition 0 (s.failingField 0))) := by
  rcases runSchema_wireHeader s w _ rfl with ⟨hoff, -⟩ | ⟨-, f, rfl, e⟩ | ⟨hover, -⟩
  · exact absurd hoff hshort
  · exact e
  · exact absurd hover (Nat.not_le.mpr hcount)

/-- Where the signature matches, `read_header()` is `run_schema()` on the stream behind it, then the release (R115). -/
theorem readHeader_signature {s : State} (w : WindowOk s) (h16 : s.offers 16) (hsig : s.bits 0 16 = 0x0AFF)
    (hcount : s.bitsRead.toNat + 16 < 2 ^ 64) :
    readHeader tables s = (runSchema tables (s.consumed 16)).bind fun dims u => .done dims (release u) := by
  rw [readHeader, Config.sigW, read_ok 16 s w (by decide) h16 hcount, hsig]
  rfl

/-- With its signature there, a header that the stream is too short for ends its RDHDR as the record behind the
signature ends. -/
theorem readHeader_short {s : State} (w : WindowOk s) (h16 : s.offers 16) (hsig : s.bits 0 16 = 0x0AFF)
    (hcount : s.bitsRead.toNat + (s.wireHeader 16).stop < 2 ^ 64) (hshort : ¬ s.offers (s.wireHeader 16).stop) :
    readHeader tables s = endRes ((s.recordFails 16 (s.failingField 16)).drained
      (s.fieldStart 16 (s.failingField 16 + 1) - s.failingPosition 16 (s.failingField 16))) := by
  have hstop : (s.wireHeader 16).stop = 16 + ((s.consumed 16).wireHeader 0).stop :=
    congrArg WireHeader.stop (wireHeader_consumed s w h16 0)
  have hcount16 : s.bitsRead.toNat + 16 < 2 ^ 64 := by omega
  have hcountRecord : (s.consumed 16).bitsRead.toNat + ((s.consumed 16).wireHeader 0).stop < 2 ^ 64 := by
    rw [consumed_bitsRead s 16 hcount16]; omega
  have hshortRecord : ¬ (s.consumed 16).offers ((s.consumed 16).wireHeader 0).stop := by
    rwa [consumed_offers s 16 _ w h16, ← hstop]
  rw [readHeader_signature w h16 hsig hcount16, runSchema_short (consumed_window s 16 w) hcountRecord hshortRecord,
    endRes_bind, recordFails_consumed s w h16, failingField_consumed s w h16, fieldStart_consumed s w h16,
    failingPosition_consumed s w h16, Nat.add_sub_add_left]

/-- Settles O39: RUN and RDHDR answer what their procedures end in, the failing read of the failing field. -/
theorem aShortRecordLeavesNoHeader : Obligations.AShortRecordLeavesNoHeader := by
  rintro s i p _ hact w hcount hshort rfl hi
  refine ⟨failingField_lt s p hshort, ?_⟩
  rcases hi with ⟨rfl, rfl⟩ | ⟨rfl, rfl, h16, hsig⟩
  · rw [exec_run_active s hact, runSchema_short w hcount hshort, answer_endRes, State.streamEnds]
  · rw [exec_rdHdr_active s hact, readHeader_short w h16 hsig hcount hshort, answer_endRes, State.streamEnds]

/-! ### The frame -/

/-- What RUN and RDHDR do not touch; that slots 6 and 7 end unbound, or a fault came before the record; and that a fault
they latch is their own (R100, R115, R125). -/
def RecordFrame (s t : State) : Prop :=
  t.host = s.host ∧ t.fetch = s.fetch ∧ t.value = s.value ∧
    ((t.slots = s.slots ∧ t.fidx = s.fidx ∧ t.hdr = s.hdr ∧ t.fault ≠ 0) ∨
      (isActive s ∧ t.slots[6] = .unbound ∧ t.slots[7] = .unbound)) ∧
    ((t.fault = s.fault ∧ t.errinfo = s.errinfo) ∨ (s.fault = 0 ∧ t.fault ≠ 0))

/-- A fault before the record. -/
theorem ReaderFrame.recordFrame {s t : State} (h : ReaderFrame s t) (hf : t.fault ≠ 0) : RecordFrame s t := by
  obtain ⟨-, hslots, hfidx, hhdr, hhost, hfetch, hvalue, hfault⟩ := h
  exact ⟨hhost, hfetch, hvalue, .inl ⟨hslots, hfidx, hhdr, hf⟩, hfault⟩

/-- A fault inside it. -/
theorem RecordFrame.raisesEnd {s u t : State} (h : RecordFrame s u) (hf : s.fault = 0) (he : RaisesEnd u t) :
    RecordFrame s t := by
  obtain ⟨hhost, hfetch, hvalue, hslots, -⟩ := h
  have hraise : ∀ c e x, RecordFrame s (raise c e { u with src := x }) := fun c e x =>
    ⟨hhost, hfetch, hvalue, hslots.imp_left fun ⟨hs, hi, hh, _⟩ => ⟨hs, hi, hh, causeCode_ne_zero c⟩,
      .inr ⟨hf, causeCode_ne_zero c⟩⟩
  rcases he with ⟨x, -, rfl⟩ | ⟨e, x, -, rfl⟩
  · exact hraise _ _ x
  · exact hraise _ _ x

/-- What a record has that starts after some reading. -/
theorem Reads.trans_recordFrame {s a t : State} (h : Reads s a) (k : RecordFrame a t) : RecordFrame s t := by
  simpa only [RecordFrame, isActive, h.host, h.fetch, h.value, h.slots, h.fidx, h.hdr, h.fault, h.errinfo, h.own]
    using k

theorem slot_unbound_of_boundBit {s : State} {i : BitVec 3} (h : boundBit i s = false) :
    s.slots[i.toNat] = .unbound := by
  unfold boundBit at h
  cases hs : s.slots[i.toNat] with
  | unbound => rfl
  | bound v => rw [hs] at h; cases h

/-- A slot that the loop over the fields has not reached since the start of the record is unbound (R102). -/
theorem FieldsRun.slot_unbound {s u : State} (h : FieldsRun (startRecord s) u) {j : BitVec 3}
    (hj : u.fidx.toNat ≤ j.toNat) : u.slots[j.toNat] = .unbound := by
  refine slot_unbound_of_boundBit ?_
  rw [h.bound j, boundBit_of_replicate rfl j, Bool.or_false, decide_eq_false_iff_not]
  omega

/-- The fields of `FT` do not reach slots 6 and 7 (R109), whatever the header record becomes. -/
theorem FieldsRun.recordFrame {s u : State} (h : FieldsRun (startRecord s) u) (hact : isActive s)
    (hidx : u.fidx.toNat ≤ 6) (hdr : HdrRecord) : RecordFrame s { u with hdr := hdr } :=
  ⟨h.record.host, h.record.fetch, h.record.value,
    .inr ⟨hact, h.slot_unbound (j := 6) hidx, h.slot_unbound (j := 7) (hidx.trans (by decide))⟩,
    .inl ⟨h.record.fault, h.record.errinfo⟩⟩

theorem runSchema_recordFrame {s : State} (hact : isActive s) : (runSchema tables s).All (RecordFrame s) := by
  obtain ⟨hdone, hraised⟩ := runSchema_cases tables s
  cases e : runSchema tables s with
  | done v t =>
    obtain ⟨w, h, u, hu, hidx, rfl, -⟩ := hdone v t e
    exact hu.recordFrame hact (Nat.le_of_eq hidx) (.valid w h)
  | raised t =>
    obtain ⟨u, hu, hidx, he⟩ := hraised t e
    exact (hu.recordFrame hact (Nat.le_of_lt hidx) u.hdr).raisesEnd hact.1 he
  | stuck f => trivial
  | refused r => trivial

theorem readHeader_recordFrame {s : State} (hact : isActive s) : (readHeader tables s).All (RecordFrame s) := by
  have hrecord : ∀ {a}, Reads s a → (runSchema tables a).All (RecordFrame s) := fun ha =>
    (runSchema_recordFrame ⟨ha.fault.trans hact.1, ha.own.trans hact.2⟩).mono fun _ => ha.trans_recordFrame
  obtain ⟨hdone, hraised⟩ := readHeader_cases tables s
  cases e : readHeader tables s with
  | done v t =>
    obtain ⟨a, u, -, ha, hrun, rfl⟩ := hdone v t e
    have hframe := hrecord ha
    rw [hrun] at hframe
    exact hframe
  | raised t =>
    rcases hraised t e with ⟨x, a, -, -, ha, rfl⟩ | ⟨u, hu, he⟩ | ⟨a, -, ha, hrun⟩
    · exact (ha.raise_readerFrame hact.1 .badSignature 0 a.src).recordFrame
        (causeCode_ne_zero .badSignature)
    · obtain ⟨hframe, hf⟩ := he.readerFrame hu hact.1
      exact hframe.recordFrame hf
    · have hframe := hrecord ha
      rw [hrun] at hframe
      exact hframe
  | stuck f => trivial
  | refused r => trivial

/-- A command whose procedure has the frame in the ACTIVE phase has it in every phase. -/
theorem gated_recordFrame {legal : Bool} {p : State → Res Word64} {s t : State}
    (hp : isActive s → (p s).All (RecordFrame s)) (e : gated legal (fun u => answer (p u)) s = .next t) :
    RecordFrame s t := by
  rcases gated_active_or_stopped e with ⟨hact, hbody⟩ | ⟨hstop, hf⟩
  · have hframe := hp hact
    cases hps : p s with
    | done v u => rw [hps] at hbody hframe; cases hbody; exact hframe
    | raised u => rw [hps] at hbody hframe; cases hbody; exact hframe
    | stuck f => rw [hps] at hbody; cases hbody
    | refused r => rw [hps] at hbody; cases hbody
  · exact hstop.recordFrame hf

/-- RUN does not give the source up (R100). -/
theorem exec_run_own {s t : State} (e : exec .run s = .next t) : t.own = s.own :=
  exec_keeps (P := fun t => t.own = s.own) (i := .run) (fun _ _ _ _ _ h => h) rfl rfl
    (fun hact => (runSchema_own hact.2 tables).mono fun _ h => h.trans hact.2.symm) e

/-- Settles O50: the two commands have the frame of their procedures, and only pull. -/
theorem recordCommandsFrame : Obligations.RecordCommandsFrame := by
  intro i s t hi e
  have hframe : RecordFrame s t := by
    rcases hi with rfl | rfl
    · exact gated_recordFrame (p := runSchema tables) runSchema_recordFrame e
    · exact gated_recordFrame (p := readHeader tables) readHeader_recordFrame e
  obtain ⟨hhost, hfetch, hvalue, hslots, hfault⟩ := hframe
  refine ⟨hhost, hfetch, hvalue, exec_sourceMoved e, ?_, hslots, hfault⟩
  rintro rfl
  exact exec_run_own e

end Sys2Proof.Machine
end

section
/-! PROOFS. RDHDR on the stream (R114, R115, R120): the whole header of the stream map, any other signature, and a
signature that the stream is too short for. -/

namespace Sys2Proof.Machine

/-- A record that the stream has completes with the fields and the dimensions of the stream map (R99, R100). -/
theorem runSchema_offers {s : State} (w : WindowOk s) (hoff : s.offers (s.wireHeader 0).stop)
    (hcount : s.bitsRead.toNat + (s.wireHeader 0).stop < 2 ^ 64) :
    ∃ v u, runSchema tables s = .done v u ∧ respond (.ok v) u = s.recordDone (s.wireHeader 0) := by
  rcases runSchema_wireHeader s w _ rfl with ⟨-, -, e⟩ | ⟨hshort, -⟩ | ⟨hover, -⟩
  · exact ⟨_, _, e, rfl⟩
  · exact absurd hoff hshort
  · exact absurd hover (Nat.not_le.mpr hcount)

/-- The header behind a signature is the record of the stream behind it. -/
theorem recordDone_consumed {s : State} (w : WindowOk s) (h16 : s.offers 16) :
    s.recordDone (s.wireHeader 16) = (s.consumed 16).recordDone ((s.consumed 16).wireHeader 0) := by
  rw [wireHeader_consumed s w h16 0, State.recordDone, State.recordDone, ← consumed_consumed s 16 _ w h16]
  rfl

/-- Its last bit lies that far behind the signature. -/
theorem wireHeader_stop_consumed {s : State} (w : WindowOk s) (h16 : s.offers 16) :
    (s.wireHeader 16).stop = 16 + ((s.consumed 16).wireHeader 0).stop :=
  congrArg WireHeader.stop (wireHeader_consumed s w h16 0)

/-- Settles O37: behind the signature `run_schema()` is done with the record of the stream map, and the release follows. -/
theorem rdHdrDecodesTheHeaderOfTheStreamMap : Obligations.RdHdrDecodesTheHeaderOfTheStreamMap := by
  rintro s _ hact w h16 hsig rfl hoff hcount
  have hstop := wireHeader_stop_consumed w h16
  have hcount16 : s.bitsRead.toNat + 16 < 2 ^ 64 := by omega
  have hoffRecord : (s.consumed 16).offers ((s.consumed 16).wireHeader 0).stop := by
    rwa [consumed_offers s 16 _ w h16, ← hstop]
  have hcountRecord : (s.consumed 16).bitsRead.toNat + ((s.consumed 16).wireHeader 0).stop < 2 ^ 64 := by
    rw [consumed_bitsRead s 16 hcount16]; omega
  obtain ⟨v, u, hrun, hrecord⟩ := runSchema_offers (consumed_window s 16 w) hoffRecord hcountRecord
  rw [exec_rdHdr_active s hact, readHeader_signature w h16 hsig hcount16, hrun, recordDone_consumed w h16, ← hrecord]
  rfl

/-- Any other 16 bits are consumed, then the source is given up, then BAD_SIGNATURE latches (R114, R120). -/
theorem readHeader_badSignature {s : State} (w : WindowOk s) (h16 : s.offers 16) (hsig : s.bits 0 16 ≠ 0x0AFF)
    (hcount : s.bitsRead.toNat + 16 < 2 ^ 64) :
    readHeader tables s = .raised (raise .badSignature 0 (release (s.consumed 16))) := by
  have hne : BitVec.ofNat 64 (s.bits 0 16) ≠ Config.sig := fun h =>
    hsig ((toNat_ofNat_bits s 0 (by decide)).symm.trans (congrArg BitVec.toNat h))
  rw [readHeader, Config.sigW, read_ok 16 s w (by decide) h16 hcount]
  exact if_neg hne

/-- Settles O38: the two ends of the signature read that are not the signature. -/
theorem rdHdrRejectsAnyOtherSignature : Obligations.RdHdrRejectsAnyOtherSignature := by
  intro s hact w hcount
  rw [exec_rdHdr_active s hact]
  refine ⟨fun h16 hsig => ?_, fun hshort => ?_⟩
  · rw [readHeader_badSignature w h16 hsig hcount]; rfl
  · rw [readHeader, Config.sigW, read_short 16 s w (by decide) hshort, endRes_bind, answer_endRes, State.streamEnds]

end Sys2Proof.Machine
end

section
/-! PROOFS. The entries of the descriptor tables (R108, R109). -/

namespace Sys2Proof.Machine

/-- Settles O9: the words of the two tables are closed terms, and so are their fields. -/
theorem tableWordsDecodeToTheirEntries : Obligations.TableWordsDecodeToTheirEntries := ⟨by decide, by decide⟩

end Sys2Proof.Machine
end

section
/-! PROOFS. RDHDR is one-shot (R116): after it the source is given up or a fault is latched, and both last until a reset. -/

namespace Sys2Proof.Machine

/-- What a failing pull latches is END_OF_STREAM or SOURCE_ERROR (R121, R122). -/
theorem RaisesEnd.fault {u t : State} (h : RaisesEnd u t) : t.fault = 2 ∨ t.fault = 3 := by
  rcases h with ⟨x, -, rfl⟩ | ⟨e, x, -, rfl⟩
  · exact .inl rfl
  · exact .inr rfl

/-- A record that does not complete latches one of these two (R102). -/
theorem runSchema_raised_fault {T : Tables} {s t : State} (e : runSchema T s = .raised t) :
    t.fault = 2 ∨ t.fault = 3 := by
  obtain ⟨u, -, -, he⟩ := (runSchema_cases T s).2 t e
  exact he.fault

/-- The session is over: the source is given up, or a fault other than BAD_SIGNATURE is latched. -/
def EndsSession (t : State) : Prop := t.own = false ∨ (t.fault ≠ 0 ∧ t.fault ≠ 1)

theorem endsSession_of_pullFault {t : State} (h : t.fault = 2 ∨ t.fault = 3) : EndsSession t :=
  .inr (by rcases h with h | h <;> rw [h] <;> decide)

/-- `read_header()` gives the source up, on success and before BAD_SIGNATURE, or a pull of it failed (R115, R120). -/
theorem readHeader_endsSession (T : Tables) (s : State) : (readHeader T s).All EndsSession := by
  obtain ⟨hdone, hraised⟩ := readHeader_cases T s
  cases e : readHeader T s with
  | done v t => obtain ⟨a, u, -, -, -, rfl⟩ := hdone v t e; exact .inl rfl
  | raised t =>
    rcases hraised t e with ⟨x, a, -, -, -, rfl⟩ | ⟨u, -, he⟩ | ⟨a, -, -, hrun⟩
    · exact .inl rfl
    · exact endsSession_of_pullFault he.fault
    · exact endsSession_of_pullFault (runSchema_raised_fault hrun)
  | stuck f => trivial
  | refused r => trivial

theorem endsSession_portFree : PortFree EndsSession := fun _ _ _ _ _ h => h

/-- RDHDR ends the session, unless a fault is latched before it (R116). -/
theorem exec_rdHdr_endsSession {s t : State} (hf : s.fault = 0) (e : exec .rdHdr s = .next t) : EndsSession t := by
  cases hown : s.own with
  | true =>
    rw [exec_rdHdr_active s ⟨hf, hown⟩] at e
    exact endsSession_portFree.answer (readHeader_endsSession tables s) e
  | false =>
    obtain ⟨-, hreleased, -⟩ := everyInstructionButBitsReadPassesTheGate .rdHdr s (by decide)
    cases (hreleased hf hown).symm.trans e
    exact .inr ⟨show (4 : BitVec 3) ≠ 0 by decide, show (4 : BitVec 3) ≠ 1 by decide⟩

/-- The block accepts BITSREAD only (R77). -/
def OnlyBitsRead (s : State) : Prop := s.own = false ∨ s.fault ≠ 0

theorem onlyBitsRead_portFree : PortFree OnlyBitsRead := fun _ _ _ _ _ h => h

theorem OnlyBitsRead.not_active {s : State} (h : OnlyBitsRead s) : ¬ isActive s := fun ⟨hf, hown⟩ =>
  h.elim (fun hrel => Bool.noConfusion (hrel.symm.trans hown)) fun h => h hf

theorem illegalCommand_onlyBitsRead (s : State) : OnlyBitsRead (raise .illegalCommand 0 s) :=
  .inr (causeCode_ne_zero .illegalCommand)

/-- No instruction takes the block back out of that, nor does an illegal word (R123, R126). -/
theorem exec_onlyBitsRead {i : Instr} {s t : State} (h : OnlyBitsRead s) (e : exec i s = .next t) : OnlyBitsRead t :=
  exec_keeps onlyBitsRead_portFree h (illegalCommand_onlyBitsRead s) (fun hact => absurd hact h.not_active) e

theorem step_onlyBitsRead {s t : State} (hno : NoReset s) (h : OnlyBitsRead s) (e : step s = .next t) :
    OnlyBitsRead t := by
  rcases step_next_of_noReset hno e with rfl | ⟨u, ⟨host, fetch, rfl⟩, ⟨i, hexec⟩ | hword⟩
  · exact h
  · exact exec_onlyBitsRead (s := { s with host := host, fetch := fetch }) h hexec
  · rcases illegalWord_next hword with ⟨r, rfl⟩ | rfl
    · exact h
    · exact illegalCommand_onlyBitsRead _

/-- Settles O44: RDHDR ends the session, no step but a reset takes that back, and the gate answers every command but
BITSREAD with an error. -/
theorem rdHdrIsOneShot : Obligations.RdHdrIsOneShot := by
  refine ⟨fun s t e => ?_, fun s t hno h e => step_onlyBitsRead hno h e, fun s i h hcmd hi => ?_⟩
  · by_cases hf : s.fault = 0
    · have hend := exec_rdHdr_endsSession hf e
      exact ⟨hend.imp_right And.left, fun _ hfault => hend.resolve_right fun ⟨h0, h1⟩ => hfault.elim h0 h1⟩
    · exact ⟨exec_onlyBitsRead (.inr hf) e, fun h => absurd h hf⟩
  · obtain ⟨hfaulted, hreleased, -⟩ := everyInstructionButBitsReadPassesTheGate i s hi
    by_cases hf : s.fault = 0
    · rw [if_pos hf, hreleased hf (h.resolve_right fun hne => hne hf)]
    · rw [if_neg hf, hfaulted hf]

end Sys2Proof.Machine
end

section
/-! PROOFS. What a completed record holds (R99, R111, R112): its six slots are bound, and its dimensions are assembled from
them. -/

namespace Sys2Proof.Machine

/-! ### A command that leaves no fault was done -/

theorem fault_ne_zero_of_pullFault {t : State} (h : t.fault = 2 ∨ t.fault = 3) : t.fault ≠ 0 := by
  rcases h with h | h <;> rw [h] <;> decide

theorem runSchema_raised_ne_zero {T : Tables} {s t : State} (e : runSchema T s = .raised t) : t.fault ≠ 0 :=
  fault_ne_zero_of_pullFault (runSchema_raised_fault e)

/-- A procedure whose raises latch a fault was done when no fault is latched after it (R124). -/
theorem answer_done {p : Res Word64} {t : State} (hp : ∀ u, p = .raised u → u.fault ≠ 0) (e : answer p = .next t)
    (hf : t.fault = 0) : ∃ v u, p = .done v u ∧ t = respond (.ok v) u := by
  cases p with
  | done v u => cases e; exact ⟨v, u, rfl, rfl⟩
  | raised u => cases e; exact absurd hf (hp t rfl)
  | stuck f => cases e
  | refused r => cases e

theorem exec_run_done {s t : State} (hact : isActive s) (e : exec .run s = .next t) (hf : t.fault = 0) :
    ∃ v u, runSchema tables s = .done v u ∧ t = respond (.ok v) u := by
  rw [exec_run_active s hact] at e
  exact answer_done (fun _ => runSchema_raised_ne_zero) e hf

/-! ### The slots of a completed record -/

theorem exists_slot_of_boundBit {s : State} {i : BitVec 3} (h : boundBit i s = true) :
    ∃ v, s.slots[i.toNat] = .bound v := by
  unfold boundBit at h
  cases hs : s.slots[i.toNat] with
  | bound v => exact ⟨v, rfl⟩
  | unbound => rw [hs] at h; cases h

/-- A slot that the loop over the fields has passed is bound (R102). -/
theorem FieldsRun.slot_bound {s u : State} (h : FieldsRun (startRecord s) u) {j : BitVec 3}
    (hj : j.toNat < u.fidx.toNat) : ∃ v, u.slots[j.toNat] = .bound v := by
  refine exists_slot_of_boundBit ?_
  rw [h.bound j, decide_eq_true ⟨Nat.zero_le _, hj⟩, Bool.true_or]

/-- The slots of a record after its six fields: small, h_small, h_large, ratio, w_small, w_large (R109). -/
def recordSlots (small hSmall hLarge ratio wSmall wLarge : Word32) : Vector SlotCell 8 :=
  #v[.bound small, .bound hSmall, .bound hLarge, .bound ratio, .bound wSmall, .bound wLarge, .unbound, .unbound]

/-- After all fields of `FT` the six slots are bound and no other (R99). -/
theorem FieldsRun.slots_eq {s u : State} (h : FieldsRun (startRecord s) u) (hf : u.fidx.toNat = 6) :
    ∃ small hSmall hLarge ratio wSmall wLarge, u.slots = recordSlots small hSmall hLarge ratio wSmall wLarge := by
  have hbound : ∀ j : BitVec 3, j.toNat < 6 → ∃ v, u.slots[j.toNat] = .bound v := fun j hj => h.slot_bound (hf ▸ hj)
  obtain ⟨small, h0⟩ := hbound 0 (by decide)
  obtain ⟨hSmall, h1⟩ := hbound 1 (by decide)
  obtain ⟨hLarge, h2⟩ := hbound 2 (by decide)
  obtain ⟨ratio, h3⟩ := hbound 3 (by decide)
  obtain ⟨wSmall, h4⟩ := hbound 4 (by decide)
  obtain ⟨wLarge, h5⟩ := hbound 5 (by decide)
  have h6 := h.slot_unbound (j := 6) (Nat.le_of_eq hf)
  have h7 := h.slot_unbound (j := 7) ((Nat.le_of_eq hf).trans (by decide))
  refine ⟨small, hSmall, hLarge, ratio, wSmall, wLarge, Vector.ext fun i hi => ?_⟩
  interval_cases i
  · exact h0
  · exact h1
  · exact h2
  · exact h3
  · exact h4
  · exact h5
  · exact h6
  · exact h7

/-- A record completes by running its fields, then assembling its dimensions from their slots (R99, R111). -/
theorem runSchema_done {s t : State} {v : Word64} (e : runSchema tables s = .done v t) :
    ∃ u wh, FieldsRun (startRecord s) u ∧ u.fidx.toNat = 6 ∧ SlotsInRange u ∧ assemble tables u = .done wh u ∧
      t = { u with hdr := .valid wh.1 wh.2 } ∧ v = packDims wh.1 wh.2 := by
  rw [runSchema, if_pos (by decide)] at e
  obtain ⟨x, u, hfields, e⟩ := bind_eq_done.mp e
  obtain ⟨wh, u', hassemble, hdone⟩ := (bind_eq_done (p := assemble tables u)).mp e
  obtain rfl := (assemble_same tables u).1 wh u' hassemble
  cases hdone
  exact ⟨u', wh, ((runFields_cases tables (by decide) _ _).1 x u' hfields).1, runFields_complete (by decide) hfields,
    runFields_inRange (startRecord_inRange s) hfields, hassemble, rfl, rfl⟩

/-! ### The dimensions -/

/-- The height of a record from its slots (R111). -/
def heightOf (small hSmall hLarge : Word32) : Nat := if small = 1 then smallDim hSmall else hLarge.toNat

/-- The width of a record of height `h` from its slots (R111). -/
def widthOf (small ratio wSmall wLarge : Word32) (h : Nat) : Nat :=
  if ratio = 0 then if small = 1 then smallDim wSmall else wLarge.toNat else ratioWidth ratio.toNat h

theorem getSlot_of_bound {s : State} {i : BitVec 3} {v : Word32} (h : s.slots[i.toNat] = .bound v) :
    getSlot i s = .done v s := by
  unfold getSlot; rw [h]

section
variable {s : State} {small hSmall hLarge ratio wSmall wLarge : Word32}
  (hslots : s.slots = recordSlots small hSmall hLarge ratio wSmall wLarge)
include hslots

theorem assembleHeight_slots : assembleHeight small s = .done (heightOf small hSmall hLarge) s := by
  have h1 : getSlot 1 s = .done hSmall s := getSlot_of_bound (by rw [hslots]; rfl)
  have h2 : getSlot 2 s = .done hLarge s := getSlot_of_bound (by rw [hslots]; rfl)
  unfold assembleHeight heightOf
  split
  · rw [h1]; rfl
  · rw [h2]; rfl

theorem assembleWidth_slots (hratio : ratio.toNat < 8) (h : Nat) :
    assembleWidth tables small ratio h s = .done (widthOf small ratio wSmall wLarge h) s := by
  have h4 : getSlot 4 s = .done wSmall s := getSlot_of_bound (by rw [hslots]; rfl)
  have h5 : getSlot 5 s = .done wLarge s := getSlot_of_bound (by rw [hslots]; rfl)
  unfold assembleWidth widthOf
  by_cases hz : ratio = 0
  · rw [if_neg (by rw [hz]; decide), if_pos hz]
    split
    · rw [h4]; rfl
    · rw [h5]; rfl
  · have hpos : 0 < ratio.toNat := Nat.pos_of_ne_zero fun h0 => hz (BitVec.eq_of_toNat_eq h0)
    rw [if_pos hpos, if_neg hz]
    generalize ratio.toNat = r at *
    interval_cases r <;> rfl

/-- `assemble()` narrows the height and the width of the slots to 32 bits, which it does only where they fit (R112). -/
theorem assemble_slots {wh : Word32 × Word32} {t : State} (hratio : ratio.toNat < 8)
    (e : assemble tables s = .done wh t) :
    wh.2.toNat = heightOf small hSmall hLarge ∧ wh.1.toNat = widthOf small ratio wSmall wLarge wh.2.toNat := by
  have h0 : getSlot 0 s = .done small s := getSlot_of_bound (by rw [hslots]; rfl)
  have h3 : getSlot 3 s = .done ratio s := getSlot_of_bound (by rw [hslots]; rfl)
  unfold assemble at e
  simp only [h0, h3, Res.bind, assembleHeight_slots hslots, assembleWidth_slots hslots hratio] at e
  split at e
  · rename_i hfits
    obtain ⟨hw, hh⟩ := hfits
    cases e
    simp only [BitVec.toNat_ofNat, Nat.mod_eq_of_lt hw, Nat.mod_eq_of_lt hh, and_self]
  · cases e

end

/-- Settles O40: the slots that the fields bound, and what `assemble()` makes of them. -/
theorem theRecordIsAssembledFromTheSlots : Obligations.TheRecordIsAssembledFromTheSlots := by
  intro s t hact e hf
  obtain ⟨_, _, hrun, rfl⟩ := exec_run_done hact e hf
  obtain ⟨u, wh, hfields, hidx, hrange, hassemble, rfl, rfl⟩ := runSchema_done hrun
  obtain ⟨small, hSmall, hLarge, ratio, wSmall, wLarge, hslots⟩ := hfields.slots_eq hidx
  have hratio : ratio.toNat < 8 := hrange 3 (by rw [hidx]; decide) ratio (by rw [hslots]; rfl)
  obtain ⟨hheight, hwidth⟩ := assemble_slots hslots hratio hassemble
  have hbounds := ratioWidth_bounds ratio.toNat wh.2.toNat
  refine ⟨small, hSmall, hLarge, ratio, wSmall, wLarge, wh.1, wh.2, hslots, rfl, ?resp, ?_, ?_, ?_, ?_, ?_⟩
  case resp =>
    have hpack := packDims_ofNat wh.1.toNat wh.2.toNat wh.1.isLt wh.2.isLt
    simp only [BitVec.ofNat_toNat, BitVec.setWidth_eq] at hpack
    rw [respond_resp_eq, hpack]
  · exact fun h1 => hheight.trans (if_pos h1)
  · exact fun h1 => BitVec.eq_of_toNat_eq (hheight.trans (if_neg h1))
  · intro hr
    have hw : wh.1.toNat = ratioWidth ratio.toNat wh.2.toNat := hwidth.trans (if_neg hr)
    have hpos : 1 ≤ ratio.toNat := Nat.pos_of_ne_zero fun h0 => hr (BitVec.eq_of_toNat_eq h0)
    exact ⟨hw, hw ▸ (hbounds hpos hratio).1⟩
  · exact fun hr h1 => hwidth.trans ((if_pos hr).trans (if_pos h1))
  · exact fun hr h1 => BitVec.eq_of_toNat_eq (hwidth.trans ((if_pos hr).trans (if_neg h1)))

end Sys2Proof.Machine
end

section
/-! PROOFS. The bits and bytes of a record and of a header (R107), and where RDHDR leaves the source (R117). -/

namespace Sys2Proof.Machine

/-! ### The bits of a record -/

theorem armBits_mem (g : Nat) : armBits g ∈ [9, 13, 18, 30] := by
  unfold armBits; split <;> decide

/-- A large field takes its selector and the payload of its arm, behind `b` bits (R69). -/
theorem add_armBits_mem (g b : Nat) : b + armBits g ∈ [b + 9, b + 13, b + 18, b + 30] :=
  List.mem_map_of_mem (f := (b + ·)) (armBits_mem g)

/-- The bits of a record, by its regime and ratio (R107). -/
structure StopOfCase (h : WireHeader) : Prop where
  smallRatio : h.small = 1 → h.ratio ≠ 0 → h.stop = 9
  smallExplicit : h.small = 1 → h.ratio = 0 → h.stop = 14
  largeRatio : h.small = 0 → h.ratio ≠ 0 → h.stop ∈ [15, 19, 24, 36]
  largeExplicit : h.small = 0 → h.ratio = 0 → ∃ x ∈ [15, 19, 24, 36], ∃ y ∈ [11, 15, 20, 32], h.stop = x + y

/-- The stream map ends each record where its case says (R45, R107). -/
theorem wireHeader_stop (s : State) : StopOfCase (s.wireHeader 0) := by
  rcases (wireHeader_ranges s 0).small with hlarge | hsmall
  · have hmap := wireHeader_large s _ _ hlarge rfl rfl
    have hx := add_armBits_mem (s.bits 1 2) 6
    by_cases hz : s.bits (3 + armBits (s.bits 1 2)) 3 = 0
    · rw [if_pos hz] at hmap
      rw [hmap]
      have hy := add_armBits_mem (s.bits (3 + armBits (s.bits 1 2) + 3) 2) 2
      exact ⟨nofun, nofun, fun _ h => absurd rfl h, fun _ _ => ⟨_, hx, _, hy, by dsimp only; omega⟩⟩
    · rw [if_neg hz] at hmap
      rw [hmap]
      refine ⟨nofun, nofun, fun _ _ => ?_, fun _ h => absurd h hz⟩
      rwa [show 3 + armBits (s.bits 1 2) + 3 = 6 + armBits (s.bits 1 2) by omega]
  · have hmap := wireHeader_small s hsmall
    by_cases hz : s.bits 6 3 = 0
    · rw [if_pos hz] at hmap
      rw [hmap]
      exact ⟨fun _ h => absurd rfl h, fun _ _ => rfl, nofun, nofun⟩
    · rw [if_neg hz] at hmap
      rw [hmap]
      exact ⟨fun _ _ => rfl, fun _ h => absurd h hz, nofun, nofun⟩

/-- A record takes 9 to 68 bits (R107). -/
theorem wireHeader_stop_range (s : State) : 9 ≤ (s.wireHeader 0).stop ∧ (s.wireHeader 0).stop ≤ 68 := by
  have hcase := wireHeader_stop s
  have hx : ∀ x ∈ [15, 19, 24, 36], 15 ≤ x ∧ x ≤ 36 := by decide
  have hy : ∀ y ∈ [11, 15, 20, 32], y ≤ 32 := by decide
  rcases (wireHeader_ranges s 0).small with hlarge | hsmall
  · by_cases hz : (s.wireHeader 0).ratio = 0
    · obtain ⟨x, hxm, y, hym, hstop⟩ := hcase.largeExplicit hlarge hz
      have := hx x hxm; have := hy y hym
      omega
    · have := hx _ (hcase.largeRatio hlarge hz)
      omega
  · by_cases hz : (s.wireHeader 0).ratio = 0
    · have := hcase.smallExplicit hsmall hz
      omega
    · have := hcase.smallRatio hsmall hz
      omega

/-! ### A command that leaves no fault had its bits -/

/-- A record that completes lies in the stream, with the count in range (R17, R102). -/
theorem offers_of_runSchema_done {s u : State} {v : Word64} (w : WindowOk s) (e : runSchema tables s = .done v u) :
    s.offers (s.wireHeader 0).stop ∧ s.bitsRead.toNat + (s.wireHeader 0).stop < 2 ^ 64 := by
  rcases runSchema_wireHeader s w _ rfl with ⟨hoff, hcount, -⟩ | ⟨-, f, -, h⟩ | ⟨-, h⟩
  · exact ⟨hoff, hcount⟩
  · exact absurd (h.symm.trans e) (endRes_ne_done _ _ _)
  · cases h.symm.trans e

/-- A RUN that leaves no fault found its record (R100). -/
theorem exec_run_ok {s t : State} (hact : isActive s) (w : WindowOk s) (e : exec .run s = .next t) (hf : t.fault = 0) :
    s.bitsRead.toNat + (s.wireHeader 0).stop < 2 ^ 64 ∧ t = s.recordDone (s.wireHeader 0) := by
  obtain ⟨v, u, hrun, -⟩ := exec_run_done hact e hf
  obtain ⟨hoff, hcount⟩ := offers_of_runSchema_done w hrun
  have hdone := runDecodesTheRecordOfTheStreamMap s _ hact w rfl hoff hcount
  exact ⟨hcount, by cases e.symm.trans hdone; rfl⟩

/-- Every raise of `read_header()` latches a fault (R119). -/
theorem readHeader_raised_ne_zero {T : Tables} {s t : State} (e : readHeader T s = .raised t) : t.fault ≠ 0 := by
  rcases (readHeader_cases T s).2 t e with ⟨x, a, -, -, -, rfl⟩ | ⟨u, -, he⟩ | ⟨a, -, -, hrun⟩
  · exact causeCode_ne_zero .badSignature
  · exact fault_ne_zero_of_pullFault he.fault
  · exact runSchema_raised_ne_zero hrun

/-- A RDHDR that leaves no fault has read the signature, completed its record, and given the source up (R115). -/
theorem exec_rdHdr_done {s t : State} (hact : isActive s) (e : exec .rdHdr s = .next t) (hf : t.fault = 0) :
    ∃ a v u, read Config.sigW s = .done Config.sig a ∧ Reads s a ∧ runSchema tables a = .done v u ∧
      t = respond (.ok v) (release u) := by
  rw [exec_rdHdr_active s hact] at e
  obtain ⟨v, r, hread, rfl⟩ := answer_done (fun _ => readHeader_raised_ne_zero) e hf
  obtain ⟨a, u, hsig, ha, hrun, rfl⟩ := (readHeader_cases tables s).1 v r hread
  exact ⟨a, v, u, hsig, ha, hrun, rfl⟩

/-- A read that is done had its bits in the stream, and answers them (R73, R76). -/
theorem offers_of_read_done {n : Nat} {s a : State} {v : Word64} (w : WindowOk s) (hn : n ≤ 56)
    (e : read n s = .done v a) :
    s.offers n ∧ s.bitsRead.toNat + n < 2 ^ 64 ∧ s.bits 0 n = v.toNat ∧ a = s.consumed n := by
  rcases read_cases n s w hn with ⟨hoff, hcount, h⟩ | ⟨-, h⟩ | ⟨-, -, h⟩
  · cases h.symm.trans e
    exact ⟨hoff, hcount, (toNat_ofNat_bits s 0 (hn.trans (by decide))).symm, rfl⟩
  · exact absurd (h.symm.trans e) (endRes_ne_done _ _ _)
  · cases h.symm.trans e

/-- A RDHDR that leaves no fault found its header (R115). -/
theorem exec_rdHdr_ok {s t : State} (hact : isActive s) (w : WindowOk s) (e : exec .rdHdr s = .next t)
    (hf : t.fault = 0) :
    25 ≤ (s.wireHeader 16).stop ∧ (s.wireHeader 16).stop ≤ 84 ∧
      s.bitsRead.toNat + (s.wireHeader 16).stop < 2 ^ 64 ∧
      t = { s.recordDone (s.wireHeader 16) with acc := 0, nbits := 0, own := false } := by
  obtain ⟨_, v, u, hread, -, hrun, -⟩ := exec_rdHdr_done hact e hf
  obtain ⟨h16, hcount16, hsig, rfl⟩ := offers_of_read_done w (by decide) hread
  obtain ⟨hoff, hcount⟩ := offers_of_runSchema_done (consumed_window s 16 w) hrun
  obtain ⟨hlo, hhi⟩ := wireHeader_stop_range (s.consumed 16)
  have hstop := wireHeader_stop_consumed w h16
  rw [consumed_offers s 16 _ w h16, ← hstop] at hoff
  rw [consumed_bitsRead s 16 hcount16] at hcount
  have hcountHeader : s.bitsRead.toNat + (s.wireHeader 16).stop < 2 ^ 64 := by omega
  have hdone := rdHdrDecodesTheHeaderOfTheStreamMap s _ hact w h16 hsig rfl hoff hcountHeader
  exact ⟨by omega, by omega, hcountHeader, by cases e.symm.trans hdone; rfl⟩

/-! ### The obligations -/

theorem bound_ofNat_iff {x y : Nat} (hx : x < 2 ^ 32) (hy : y < 2 ^ 32) :
    SlotCell.bound (BitVec.ofNat 32 x) = .bound (BitVec.ofNat 32 y) ↔ x = y := by
  rw [SlotCell.bound.injEq, ← BitVec.toNat_inj, BitVec.toNat_ofNat, BitVec.toNat_ofNat, Nat.mod_eq_of_lt hx,
    Nat.mod_eq_of_lt hy]

/-- Settles O41: a RUN takes the bits of its record, a RDHDR those of its header, and the bytes these need. -/
theorem aRecordTakesTheBitsOfItsCase : Obligations.ARecordTakesTheBitsOfItsCase := by
  refine ⟨fun s t d hact w e hf hd => ?run, fun s t hact w e hf => ?rdHdr⟩
  case run =>
    obtain ⟨hcount, rfl⟩ := exec_run_ok hact w e hf
    have hbits : (s.recordDone (s.wireHeader 0)).bitsRead.toNat = _ := consumed_bitsRead s _ hcount
    obtain rfl : d = (s.wireHeader 0).stop := by omega
    have hranges := wireHeader_ranges s 0
    have hsmall : (s.wireHeader 0).small < 2 ^ 32 := by rcases hranges.small with h | h <;> omega
    have hratio : (s.wireHeader 0).ratio < 2 ^ 32 := hranges.ratio.trans (by decide)
    have hslot0 := fun y hy => bound_ofNat_iff (y := y) hsmall hy
    have hslot3 := bound_ofNat_iff (y := 0) hratio (by decide)
    obtain ⟨hsr, hse, hlr, hle⟩ := wireHeader_stop s
    exact ⟨fun h0 h3 => hsr ((hslot0 1 (by decide)).mp h0) fun h => h3 (hslot3.mpr h),
      fun h0 h3 => hse ((hslot0 1 (by decide)).mp h0) (hslot3.mp h3),
      fun h0 h3 => hlr ((hslot0 0 (by decide)).mp h0) fun h => h3 (hslot3.mpr h),
      fun h0 h3 => hle ((hslot0 0 (by decide)).mp h0) (hslot3.mp h3)⟩
  case rdHdr =>
    obtain ⟨hlo, hhi, hcount, rfl⟩ := exec_rdHdr_ok hact w e hf
    have hbits : (s.bitsRead + BitVec.ofNat 64 (s.wireHeader 16).stop).toNat = _ := consumed_bitsRead s _ hcount
    refine ⟨?_, ?_, fun hempty => ?_⟩
    · show _ ≤ (s.bitsRead + BitVec.ofNat 64 (s.wireHeader 16).stop).toNat
      omega
    · show (s.bitsRead + BitVec.ofNat 64 (s.wireHeader 16).stop).toNat ≤ _
      omega
    · show s.pulled + 4 ≤ s.pulled + s.pullsFor _ ∧ s.pulled + s.pullsFor _ ≤ s.pulled + 11
      have hnone : s.nbits.toNat = 0 := congrArg BitVec.toNat hempty
      simp only [State.pullsFor, hnone]
      omega

/-- Settles O43: the pulls for the header end in the byte of its last bit, since less than a byte was buffered (R19,
R49). -/
theorem rdHdrLeavesTheSourceAtTheNextByte : Obligations.RdHdrLeavesTheSourceAtTheNextByte := by
  intro s t hinv hact hpart e hf
  obtain ⟨hlo, -, hcount, rfl⟩ := exec_rdHdr_ok hact hinv.window e hf
  have haccount := hinv.account hact.2
  have hbits : (s.recordDone (s.wireHeader 16)).bitsRead.toNat = _ := consumed_bitsRead s _ hcount
  have hpulled : (s.recordDone (s.wireHeader 16)).pulled = _ := pulled_add_pullsFor hinv hact.2 _
  have hpulls : (s.recordDone (s.wireHeader 16)).pulled = s.pulled + s.pullsFor _ := rfl
  refine ⟨?_, ?_, ?_, rfl⟩
  · dsimp only; omega
  · dsimp only; omega
  · show s.src.after _ = s.src.after _
    rw [hpulls, Nat.add_sub_cancel_left]

end Sys2Proof.Machine
end

section
/-! PROOFS. RDHDR is READ 16, RUN, RELEASE (R118). The three commands answer one after the other, so RUN meets the answer
of READ on the response port: no procedure looks at it, and a raise overwrites it (R57, R124). -/

namespace Sys2Proof.Machine

/-! ### No procedure looks at the response port -/

/-- `p` with `r` on the response port where it is done; a raise has put its own response there. -/
def Res.respond {α : Type} (r : Response) : Res α → Res α
  | .done v s => .done v (Machine.respond r s)
  | .raised s => .raised s
  | .stuck f => .stuck f
  | .refused q => .refused q

theorem Res.done_of_respond {α : Type} {r : Response} {p : Res α} {v : α} {t : State} (h : p.respond r = .done v t) :
    ∃ u, p = .done v u ∧ t = Machine.respond r u := by
  cases p with
  | done w u => cases h; exact ⟨u, rfl, rfl⟩
  | raised u => cases h
  | stuck f => cases h
  | refused q => cases h

/-- The procedure does the same whatever response is on the port, and leaves it there. -/
def IgnoresResponse {α : Type} (p : State → Res α) : Prop := ∀ r s, p (respond r s) = (p s).respond r

/-- A sequence ignores the response when its parts do. -/
theorem IgnoresResponse.bind {α β : Type} {p : State → Res α} {k : α → State → Res β} (hp : IgnoresResponse p)
    (hk : ∀ v, IgnoresResponse (k v)) : IgnoresResponse fun s => (p s).bind (k ·) := by
  intro r s
  show (p (respond r s)).bind k = ((p s).bind k).respond r
  rw [hp r s]
  cases p s with
  | done v t => exact hk v r t
  | raised t => rfl
  | stuck f => rfl
  | refused q => rfl

theorem ignores_done {α : Type} (v : α) : IgnoresResponse (Res.done v) := fun _ _ => rfl

theorem ignores_refused {α : Type} (q : Refusal) : IgnoresResponse fun _ => (.refused q : Res α) := fun _ _ => rfl

/-! ### Reading -/

theorem refillLoop_ignores (k n : Nat) : IgnoresResponse (refillLoop k n) := by
  intro r s
  induction k generalizing s with
  | zero => rfl
  | succ k ih =>
    rw [refillLoop, refillLoop, respond_nbits_eq, respond_src_eq]
    by_cases hn : s.nbits.toNat < n
    · rw [if_pos hn, if_pos hn]
      rcases s.src.pull with _ | ⟨b | _ | e, x⟩
      · rfl
      · exact ih (appendByte b { s with src := x })
      · rfl
      · rfl
    · rw [if_neg hn, if_neg hn]; rfl

theorem consume_ignores (n : Nat) : IgnoresResponse (consume n) := by
  intro r s
  rw [consume, consume, respond_bitsRead_eq]
  split
  · rfl
  · rfl

theorem peek_ignores (n : Nat) : IgnoresResponse (peek n) :=
  (refillLoop_ignores 8 n).bind fun _ _ _ => rfl

theorem read_ignores (n : Nat) : IgnoresResponse (read n) :=
  (peek_ignores n).bind fun v => (consume_ignores n).bind fun _ => ignores_done v

/-! ### The codecs -/

theorem decodeFixed_ignores (w : BitVec 6) : IgnoresResponse (decodeFixed w) := by
  unfold decodeFixed
  split
  · exact (read_ignores _).bind fun v => ignores_done (valueOf v)
  · exact ignores_refused _

theorem decodeOffset_ignores (w : BitVec 6) (o : Word32) : IgnoresResponse (decodeOffset w o) := by
  unfold decodeOffset
  split
  · exact (read_ignores _).bind fun v => ignores_done (valueOf v + o)
  · exact ignores_refused _

theorem decodeArm_ignores (T : Tables) (a : BitVec 6) : IgnoresResponse (decodeArm T a) := by
  unfold decodeArm
  split
  · exact ignores_done _
  · exact decodeFixed_ignores _
  · exact decodeOffset_ignores _ _
  · exact ignores_refused _

theorem decodePsel_ignores (T : Tables) (a0 a1 a2 a3 : BitVec 6) : IgnoresResponse (decodePsel T a0 a1 a2 a3) := by
  unfold decodePsel
  split
  · exact (read_ignores _).bind fun sel => decodeArm_ignores T _
  · exact ignores_refused _

theorem decodeCodec_ignores (T : Tables) (k : BitVec 6) : IgnoresResponse (decodeCodec T k) := by
  unfold decodeCodec
  split
  · exact ignores_done _
  · exact decodeFixed_ignores _
  · exact decodeOffset_ignores _ _
  · exact decodePsel_ignores T _ _ _ _
  · exact ignores_refused _

/-! ### The record -/

theorem getSlot_ignores (i : BitVec 3) : IgnoresResponse (getSlot i) := by
  intro r s
  rw [getSlot, getSlot, respond_slots_eq]
  cases s.slots[i.toNat] with
  | bound v => rfl
  | unbound => rfl

theorem term_ignores (x : Term) : IgnoresResponse (term x) := by
  unfold term
  split
  · exact (getSlot_ignores _).bind fun v => ignores_done _
  · exact ignores_done true

theorem present_ignores (t0 t1 : Term) : IgnoresResponse (present t0 t1) :=
  (term_ignores t0).bind fun p => (term_ignores t1).bind fun q => ignores_done (p && q)

theorem stepField_ignores (T : Tables) (codec : BitVec 6) (t0 t1 : Term) (d : Word32) :
    IgnoresResponse (stepField T codec t0 t1 d) := by
  have hbody : IgnoresResponse fun s => (present t0 t1 s).bind fun p t =>
      if p then (decodeCodec T codec t).bind fun v u => .done () (bindField v u) else .done () (bindField d t) := by
    refine (present_ignores t0 t1).bind fun p => ?_
    cases p with
    | true => exact (decodeCodec_ignores T codec).bind fun v _ _ => rfl
    | false => exact fun _ _ => rfl
  intro r s
  rw [stepField, stepField, respond_fidx_eq]
  split
  · split
    · exact hbody r s
    · rfl
  · rfl

theorem fieldStep_ignores (T : Tables) : IgnoresResponse (fieldStep T) := by
  intro r s
  rw [fieldStep, fieldStep, respond_fidx_eq]
  split
  · exact stepField_ignores T _ _ _ _ r s
  · rfl

theorem runFields_ignores (T : Tables) (k : Nat) : IgnoresResponse (runFields T k) := by
  induction k with
  | zero => exact ignores_done ()
  | succ k ih =>
    intro r s
    rw [runFields, runFields, respond_fidx_eq]
    split
    · exact (fieldStep_ignores T).bind (fun _ => ih) r s
    · rfl

theorem assembleHeight_ignores (small : Word32) : IgnoresResponse (assembleHeight small) := by
  unfold assembleHeight
  split
  · exact (getSlot_ignores 1).bind fun v => ignores_done _
  · exact (getSlot_ignores 2).bind fun v => ignores_done _

theorem assembleWidth_ignores (T : Tables) (small ratio : Word32) (h : Nat) :
    IgnoresResponse (assembleWidth T small ratio h) := by
  unfold assembleWidth
  split
  · split
    · split
      · exact ignores_refused _
      · exact ignores_done _
    · exact ignores_refused _
  · split
    · exact (getSlot_ignores 4).bind fun v => ignores_done _
    · exact (getSlot_ignores 5).bind fun v => ignores_done _

theorem assemble_ignores (T : Tables) : IgnoresResponse (assemble T) := by
  refine (getSlot_ignores 0).bind fun small => (getSlot_ignores 3).bind fun ratio =>
    (assembleHeight_ignores small).bind fun h => (assembleWidth_ignores T small ratio h).bind fun w => ?_
  split
  · exact ignores_done _
  · exact ignores_refused _

theorem runSchema_ignores (T : Tables) : IgnoresResponse (runSchema T) := by
  unfold runSchema
  split
  · refine IgnoresResponse.bind (p := fun s => runFields T T.nf (startRecord s)) ?_ fun _ =>
      (assemble_ignores T).bind fun wh _ _ => rfl
    exact fun r s => runFields_ignores T T.nf r (startRecord s)
  · exact ignores_refused _

/-! ### The three commands -/

theorem runSchema_active {T : Tables} {s u : State} {v : Word64} (hact : isActive s)
    (e : runSchema T s = .done v u) : isActive u := by
  obtain ⟨w, h, x, hx, -, rfl, -⟩ := (runSchema_cases T s).1 v u e
  exact ⟨hx.record.fault.trans hact.1, hx.record.own.trans hact.2⟩

theorem Reads.active {s a : State} (h : Reads s a) (hact : isActive s) : isActive a :=
  ⟨h.fault.trans hact.1, h.own.trans hact.2⟩

/-- With the signature read and the record behind it completed, RDHDR gives the source up and answers the record (R115). -/
theorem exec_rdHdr_of_done {s a u : State} {v : Word64} (hact : isActive s)
    (hread : read 16 s = .done Config.sig a) (hrun : runSchema tables a = .done v u) :
    exec .rdHdr s = .next (respond (.ok v) (release u)) := by
  rw [exec_rdHdr_active s hact, readHeader, Config.sigW, hread]
  simp only [Res.bind, if_true, hrun]
  rfl

/-- A READ 16 answered with `Ok` is a signature read that is done (R79). -/
theorem exec_read16_ok {s a : State} {v : Word64} (hact : isActive s) (e : exec (.read 16) s = .next a)
    (hok : a.resp = some (.ok v)) : ∃ b, read 16 s = .done v b ∧ a = respond (.ok v) b := by
  rw [exec_read_active 16 s hact (by decide) (by decide)] at e
  obtain ⟨x, b, hread, rfl⟩ := answer_ok (read_onlyReads 16 s) e hok
  cases hok
  exact ⟨b, hread, rfl⟩

/-- Settles O42: the parts of `read_header()` are what the three commands run, and RUN does not look at READ's answer. -/
theorem rdHdrIsReadRunRelease : Obligations.RdHdrIsReadRunRelease := by
  refine ⟨fun s t hact e hf => ?split, fun s a b c hact eread hok erun erelease hf => ?join,
    fun s a v hact eread hok hne => ?mismatch⟩
  case split =>
    obtain ⟨a, v, u, hread, ha, hrun, rfl⟩ := exec_rdHdr_done hact e hf
    have hactu := runSchema_active (ha.active hact) hrun
    refine ⟨respond (.ok Config.sig) a, respond (.ok v) u, respond (.ok 0) (release u), ?_, rfl, ?_, rfl, ?_, rfl⟩
    · rw [exec_read_active 16 s hact (by decide) (by decide)]
      exact congrArg answer hread
    · rw [exec_run_active (respond (.ok Config.sig) a) (ha.active hact), runSchema_ignores tables _ a, hrun]
      rfl
    · exact exec_release_active (respond (.ok v) u) hactu
  case join =>
    obtain ⟨x, hread, rfl⟩ := exec_read16_ok hact eread hok
    have hx := ((read_onlyReads 16 s).1 _ _ hread).active hact
    obtain ⟨v, y, hrun, rfl⟩ := exec_run_done (s := respond (.ok 0x0AFF) x) hx erun hf
    rw [runSchema_ignores tables _ x] at hrun
    obtain ⟨u, hu, rfl⟩ := Res.done_of_respond hrun
    have hactu := runSchema_active hx hu
    have hrelease := exec_release_active (respond (.ok v) (respond (.ok 0x0AFF) u)) hactu
    cases hrelease.symm.trans erelease
    exact exec_rdHdr_of_done (u := u) hact hread hu
  case mismatch =>
    obtain ⟨x, hread, rfl⟩ := exec_read16_ok hact eread hok
    refine ⟨((read_onlyReads 16 s).1 _ _ hread).active hact, raise .badSignature 0 (release x), ?_, rfl, rfl⟩
    rw [exec_rdHdr_active s hact, readHeader, Config.sigW, hread]
    simp only [Res.bind, if_neg (show v ≠ Config.sig from hne), answer]

end Sys2Proof.Machine
end

section
/-! PROOFS. Where each fault comes from (R119): past the gate BAD_SIGNATURE comes from RDHDR, and END_OF_STREAM and
SOURCE_ERROR from a pull that the source answers so; ILLEGAL_COMMAND comes from the gate alone. -/

namespace Sys2Proof.Machine

/-! ### A pull that fails -/

/-- The fault of `t` is what the source of `s`, once it delivered some bytes, answers to the next pull (R121, R122). -/
def PullFailed (s t : State) : Prop :=
  ∃ k, (t.fault = 2 ∧ t.errinfo = 0 ∧ (s.src.after k).pull = some (.eos, t.src)) ∨
    (t.fault = 3 ∧ (s.src.after k).pull = some (.err t.errinfo, t.src))

theorem RaisesEnd.pullFailed {s u t : State} (h : RecordReads s u) (he : RaisesEnd u t) : PullFailed s t := by
  obtain ⟨k, hk⟩ := h.moved
  rcases he with ⟨x, hpull, rfl⟩ | ⟨e, x, hpull, rfl⟩
  · exact ⟨k, .inl ⟨rfl, rfl, hk.src ▸ hpull⟩⟩
  · exact ⟨k, .inr ⟨rfl, hk.src ▸ hpull⟩⟩

/-! ### The cause, past the gate -/

/-- `i` makes pulls: all but BITSREAD, RELEASE and CONST do (R80, R81, R86). -/
def ReadsStream (i : Instr) : Prop := i ≠ .bitsRead ∧ i ≠ .release ∧ ∀ c, i ≠ .const c

/-- What `i`, let through by the gate in `s`, leaves in `FAULT`: nothing, BAD_SIGNATURE, or the answer to a pull. -/
def CauseFrom (i : Instr) (s t : State) : Prop :=
  t.fault = 0 ∨ (i = .rdHdr ∧ t.fault = 1) ∨ (ReadsStream i ∧ PullFailed s t)

theorem causeFrom_portFree (i : Instr) (s : State) : PortFree (CauseFrom i s) := fun _ _ _ _ _ h => h

/-- A record that starts after some reading leaves no fault, or that of a pull (R102). -/
theorem runSchema_causeFrom {i : Instr} (hi : ReadsStream i) (T : Tables) {s a : State} (hf : s.fault = 0)
    (ha : Reads s a) : (runSchema T a).All (CauseFrom i s) := by
  have hrecord := ha.record.trans (startRecord_record a)
  obtain ⟨hdone, hraised⟩ := runSchema_cases T a
  cases e : runSchema T a with
  | done v t =>
    obtain ⟨w, h, u, hu, -, rfl, -⟩ := hdone v t e
    exact .inl ((hrecord.trans hu.record).fault.trans hf)
  | raised t =>
    obtain ⟨u, hu, -, he⟩ := hraised t e
    exact .inr (.inr ⟨hi, he.pullFailed (hrecord.trans hu.record)⟩)
  | stuck f => trivial
  | refused r => trivial

/-- A header raises BAD_SIGNATURE itself, else what its signature read or its record raises (R120). -/
theorem readHeader_causeFrom (T : Tables) {s : State} (hf : s.fault = 0) :
    (readHeader T s).All (CauseFrom .rdHdr s) := by
  have hi : ReadsStream .rdHdr := ⟨nofun, nofun, nofun⟩
  have hread := read_onlyReads Config.sigW s
  refine (hread.all (P := CauseFrom .rdHdr s) (fun t ht => .inl (ht.fault.trans hf))
    fun u t hu he => .inr (.inr ⟨hi, he.pullFailed hu.record⟩)).bind (fun _ h => h) fun v a e _ => ?_
  split
  · exact (runSchema_causeFrom hi T hf (hread.1 v a e)).bind (fun _ h => h) fun _ _ _ h => h
  · exact .inr (.inl ⟨rfl, rfl⟩)

theorem endsIn_causeFrom {s : State} (hf : s.fault = 0) (i : Instr) : EndsIn (CauseFrom i s) s i := by
  by_cases hi : ReadsStream i
  · refine endsIn_of_reads ?reads ?raised ?bind ?release ?run ?rdHdr
    case reads => exact fun t ht => .inl (ht.fault.trans hf)
    case raised => exact fun u t hu he => .inr (.inr ⟨hi, he.pullFailed hu.record⟩)
    case bind => exact fun v u hu => .inl (hu.fault.trans hf)
    case release => exact fun h => absurd h hi.2.1
    case run => exact fun _ => runSchema_causeFrom hi tables hf (Reads.refl s)
    case rdHdr => rintro rfl; exact readHeader_causeFrom tables hf
  · have hstill : i = .bitsRead ∨ i = .release ∨ ∃ c, i = .const c := by
      simpa [ReadsStream, -not_and, not_and_or] using hi
    rcases hstill with rfl | rfl | ⟨c, rfl⟩
    · exact .inl hf
    · exact .inl hf
    · exact .inl hf

/-! ### The gate, open -/

/-- What the gate lets through leaves `P` when its procedure ends in `P`; unlike `exec_keeps` this asks nothing of
ILLEGAL_COMMAND. -/
theorem exec_active_keeps {P : State → Prop} (hport : PortFree P) {i : Instr} {s t : State} (hact : isActive s)
    (hlegal : (isDescriptor i || commandLegal i) = true) (hi : EndsIn P s i) (e : exec i s = .next t) : P t := by
  have hopen := fun body (h : gated (isDescriptor i || commandLegal i) body s = .next t) =>
    (gated_active _ body s hact hlegal).symm.trans h
  cases i with
  | peek n => exact hport.answer (hi (countOk_le hlegal)) (hopen (fun u => answer (peek n.toNat u)) e)
  | read n => exact hport.answer (hi (countOk_le hlegal)) (hopen (fun u => answer (read n.toNat u)) e)
  | bitsRead => cases e; exact hport.respond _ hi
  | release => exact hport.answer (p := .done 0 (release s)) hi (hopen (fun u => answer (.done 0 (release u))) e)
  | rdt k =>
    exact hport.answer (p := (decodeCodec tables k s).bind fun v w => .done (v.setWidth 64) w)
      (Res.All.bind hi (fun _ h => h) fun _ _ _ h => h)
      (hopen (fun u => answer ((decodeCodec tables k u).bind fun v w => .done (v.setWidth 64) w)) e)
  | run => exact hport.answer hi (hopen (fun u => answer (runSchema tables u)) e)
  | rdHdr => exact hport.answer hi (hopen (fun u => answer (readHeader tables u)) e)
  | const c => exact hport.yieldValue (p := .done c s) hi (hopen (fun u => yieldValue (.done c u)) e)
  | fixed w => exact hport.yieldValue hi (hopen (fun u => yieldValue (decodeFixed w u)) e)
  | offset w o => exact hport.yieldValue hi (hopen (fun u => yieldValue (decodeOffset w o u)) e)
  | psel a0 a1 a2 a3 => exact hport.yieldValue hi (hopen (fun u => yieldValue (decodePsel tables a0 a1 a2 a3 u)) e)
  | field codec t0 t1 dflt =>
    exact yieldUnit_all hi (hopen (fun u => yieldUnit (stepField tables codec t0 t1 dflt u)) e)

/-- The gate stops `i` in a state without a latched fault (R77, R123; log 5 for the descriptors). -/
def GateStops (i : Instr) (s : State) : Prop :=
  i ≠ .bitsRead ∧ (s.own = false ∨ (isDescriptor i = false ∧ i.wf tables 0 = false))

theorem exec_of_gateStops {i : Instr} {s : State} (hf : s.fault = 0) (h : GateStops i s) :
    exec i s = .next (s.faultedWith 4 0) := by
  obtain ⟨hi, hstop⟩ := h
  obtain ⟨-, hreleased, hillegal⟩ := everyInstructionButBitsReadPassesTheGate i s hi
  exact hstop.elim (hreleased hf) fun ⟨hcmd, hwf⟩ => hillegal hf hcmd hwf

theorem exec_causeFrom {i : Instr} {s t : State} (hf : s.fault = 0) (h : ¬ GateStops i s) (e : exec i s = .next t) :
    CauseFrom i s t := by
  by_cases hi : i = .bitsRead
  · subst hi; cases e; exact .inl hf
  · obtain ⟨hown, hcmd⟩ : s.own = true ∧ (isDescriptor i = false → i.wf tables 0 = true) := by
      simpa [GateStops, hi] using h
    have hlegal : (isDescriptor i || commandLegal i) = true := by
      cases hd : isDescriptor i with
      | true => rfl
      | false => exact hcmd hd
    exact exec_active_keeps (causeFrom_portFree i s) ⟨hf, hown⟩ hlegal (endsIn_causeFrom hf i) e

/-- Settles O56: the gate stops the instruction with ILLEGAL_COMMAND, or lets it through to one of the three ends of
`CauseFrom`. -/
theorem eachCauseComesFromItsInstructions : Obligations.EachCauseComesFromItsInstructions := by
  intro i s t hf e
  by_cases hstop : GateStops i s
  · cases (exec_of_gateStops hf hstop).symm.trans e
    simpa [GateStops] using hstop
  · rw [← GateStops]
    rcases exec_causeFrom hf hstop e with h | ⟨hi, h⟩ | ⟨hi, k, ⟨h, hinfo, hpull⟩ | ⟨h, hpull⟩⟩
    · simp [h, hstop]
    · subst hi; simp [h, hstop]
    · simpa [h, hstop, hinfo] using ⟨⟨k, hpull⟩, hi⟩
    · simpa [h, hstop] using ⟨⟨k, hpull⟩, hi⟩

end Sys2Proof.Machine
end

section
/-! PROOFS. Every command word but BITSREAD meets the gate (R77): what an illegal word (R123) and a latched fault (R126)
answer. -/

namespace Sys2Proof.Machine

theorem fetchNext_command_error {s : State} {w : Word16} {rest : List HostEvent} {d : DecodeError}
    (hfetch : s.fetch = .port) (hhost : s.host = .command w :: rest) (h : decode (.command w) = .error d) :
    fetchNext s = .illegal { s with host := rest } := by
  simp only [fetchNext, hfetch, hhost, h]

/-- What a command word decodes to is a command (R53). -/
theorem isDescriptor_of_encode {i : Instr} {w : Word16} (h : encode i = .command w) : isDescriptor i = false := by
  cases i <;> cases h <;> rfl

/-- A command word other than BITSREAD runs behind the gate, let through if it is legal (R77). -/
theorem step_command_gated {s : State} {w : Word16} {rest : List HostEvent} (hfetch : s.fetch = .port)
    (hhost : s.host = .command w :: rest) (hw : w ≠ 0x3000) :
    ∃ body, step s = gated (legalWord tables w) body { s with host := rest } := by
  cases hdec : decode (.command w) with
  | error d =>
    have hlegal : legalWord tables w = false := by rw [legalWord, show decodeCommand w = .error d from hdec]
    rw [step, fetchNext_command_error hfetch hhost hdec, hlegal]
    exact ⟨_, rfl⟩
  | ok i =>
    have henc := decode_ok_iff.mp hdec
    have hi : i ≠ .bitsRead := by rintro rfl; cases henc; exact hw rfl
    have hlegal : legalWord tables w = commandLegal i := by
      rw [legalWord, show decodeCommand w = .ok i from hdec, commandLegal]
    obtain ⟨body, hgate⟩ := exec_eq_gated hi
    refine ⟨body, ?_⟩
    rw [step_of_fetchNext (fetchNext_command hfetch hhost hdec), hgate, isDescriptor_of_encode henc, Bool.false_or,
      hlegal]

/-- Settles O11: the gate stops the word; BITSREAD, which has no gate, is legal. -/
theorem illegalCommandsWriteNothingButFault : Obligations.IllegalCommandsWriteNothingButFault := by
  intro s w rest hfetch hhost hf hstop
  have hw : w ≠ 0x3000 := by
    rintro rfl
    exact hstop.elim (by decide) fun h => h.2 rfl
  obtain ⟨body, hstep⟩ := step_command_gated hfetch hhost hw
  rw [hstep]
  exact gated_stopped _ body { s with host := rest } hf (hstop.imp_right And.left)

/-- Settles O12: the gate answers with the latched fault, and BITSREAD only responds. -/
theorem aLatchedFaultAnswersEveryCommand : Obligations.ALatchedFaultAnswersEveryCommand := by
  intro s w rest hfetch hhost hf
  have hlatched : w ≠ 0x3000 → step s = .next { s with host := rest, resp := some (.err s.fault s.errinfo) } := by
    intro hw
    obtain ⟨body, hstep⟩ := step_command_gated hfetch hhost hw
    rw [hstep]
    exact gated_faulted _ body { s with host := rest } hf
  refine ⟨hlatched, ?_⟩
  by_cases hw : w = 0x3000
  · subst hw
    have hstep := step_of_fetchNext (fetchNext_command hfetch hhost (i := .bitsRead) (by decide))
    exact ⟨_, hstep, rfl, rfl, rfl, rfl⟩
  · exact ⟨_, hlatched hw, rfl, rfl, rfl, rfl⟩

end Sys2Proof.Machine
end

section
/-! PROOFS. Between resets (R17, R20, R21, R126, R138): a latched fault stays, the source stays given up, and the count of
consumed bits does not fall. -/

namespace Sys2Proof.Machine

/-- From `s` to `t` the session goes on: no latched fault is cleared or changed, the source is not owned again, and
`BITS_READ` does not fall. -/
def SessionGoesOn (s t : State) : Prop :=
  (s.fault ≠ 0 → t.fault = s.fault ∧ t.errinfo = s.errinfo) ∧ (s.own = false → t.own = false) ∧
    s.bitsRead.toNat ≤ t.bitsRead.toNat

theorem sessionGoesOn_refl (s : State) : SessionGoesOn s s := ⟨fun _ => ⟨rfl, rfl⟩, fun h => h, le_refl _⟩

/-- The gate lets nothing change a latched fault (R126). -/
theorem gated_latched {legal : Bool} {body : State → Out} {s t : State} (hf : s.fault ≠ 0)
    (e : gated legal body s = .next t) : t.fault = s.fault ∧ t.errinfo = s.errinfo := by
  rw [gated_faulted legal body s hf] at e
  cases e; exact ⟨rfl, rfl⟩

theorem exec_latched {i : Instr} {s t : State} (hf : s.fault ≠ 0) (e : exec i s = .next t) :
    t.fault = s.fault ∧ t.errinfo = s.errinfo := by
  by_cases hi : i = .bitsRead
  · subst hi; cases e; exact ⟨rfl, rfl⟩
  · obtain ⟨body, hgate⟩ := exec_eq_gated hi
    exact gated_latched hf ((hgate s).symm.trans e)

/-- What the gate lets through finds the source owned, so nothing takes it back (R20, R52). -/
theorem exec_released {i : Instr} {s t : State} (hown : s.own = false) (e : exec i s = .next t) : t.own = false :=
  exec_keeps (P := fun t => t.own = false) (fun _ _ _ _ _ h => h) hown hown
    (fun hact => Bool.noConfusion (hown.symm.trans hact.2)) e

theorem RaisesEnd.count {u t : State} (h : RaisesEnd u t) {n : Nat} (hn : n ≤ u.bitsRead.toNat) :
    n ≤ t.bitsRead.toNat := by
  rcases h with ⟨x, -, rfl⟩ | ⟨e, x, -, rfl⟩
  · exact hn
  · exact hn

theorem runSchema_count (T : Tables) (s : State) :
    (runSchema T s).All fun t => s.bitsRead.toNat ≤ t.bitsRead.toNat := by
  obtain ⟨hdone, hraised⟩ := runSchema_cases T s
  cases e : runSchema T s with
  | done v t => obtain ⟨w, h, u, hu, -, rfl, -⟩ := hdone v t e; exact hu.record.count
  | raised t => obtain ⟨u, hu, -, he⟩ := hraised t e; exact he.count hu.record.count
  | stuck f => trivial
  | refused r => trivial

theorem readHeader_count (T : Tables) (s : State) :
    (readHeader T s).All fun t => s.bitsRead.toNat ≤ t.bitsRead.toNat := by
  refine ((read_onlyReads Config.sigW s).all (fun _ ha => ha.count) fun _ _ hu he => he.count hu.count).bind
    (fun _ h => h) fun v a _ ha => ?_
  split
  · exact ((runSchema_count T a).mono fun _ => ha.trans).bind (fun _ h => h) fun _ _ _ h => h
  · exact ha

/-- No instruction lowers `BITS_READ`: a consume raises it, and where the sum would leave its 64 bits it is refused
(R17). -/
theorem exec_count {i : Instr} {s t : State} (e : exec i s = .next t) : s.bitsRead.toNat ≤ t.bitsRead.toNat := by
  refine exec_keeps (P := fun t => s.bitsRead.toNat ≤ t.bitsRead.toNat) (fun _ _ _ _ _ h => h) (le_refl _) (le_refl _)
    (fun _ => endsIn_of_reads ?reads ?raised ?bind ?release ?run ?rdHdr) e
  case reads => exact fun _ h => h.count
  case raised => exact fun _ _ h he => he.count h.count
  case bind => exact fun _ _ h => h.count
  case release => exact fun _ => le_refl _
  case run => exact fun _ => runSchema_count tables s
  case rdHdr => exact fun _ => readHeader_count tables s

theorem exec_sessionGoesOn {i : Instr} {s t : State} (e : exec i s = .next t) : SessionGoesOn s t :=
  ⟨fun hf => exec_latched hf e, fun hown => exec_released hown e, exec_count e⟩

/-- An illegal word stops at the gate: it answers with the latched fault, or latches ILLEGAL_COMMAND (R59, R123, R126). -/
theorem illegalWord_sessionGoesOn {s t : State} (e : illegalWord s = .next t) : SessionGoesOn s t := by
  refine ⟨fun hf => gated_latched hf e, ?_⟩
  rcases illegalWord_next e with ⟨r, rfl⟩ | rfl
  · exact ⟨fun h => h, le_refl _⟩
  · exact ⟨fun h => h, le_refl _⟩

/-- A reset event is the whole of its step (R138). -/
theorem step_reset {s : State} {src : Source} {rest : List HostEvent} (hfetch : s.fetch = .port)
    (hhost : s.host = .reset src :: rest) : step s = .next (State.resetWith src rest) := by
  simp only [step, fetchNext, hfetch, hhost]

/-- Settles O2: a reset event resets, and every other step waits, or runs an instruction or an illegal word. -/
theorem onlyResetStartsASession : Obligations.OnlyResetStartsASession := by
  refine ⟨fun s src rest => step_reset, fun s t hno e => ?_⟩
  rcases step_next_of_noReset hno e with rfl | ⟨u, ⟨host, fetch, rfl⟩, ⟨i, h⟩ | h⟩
  · exact sessionGoesOn_refl t
  · exact exec_sessionGoesOn (s := { s with host := host, fetch := fetch }) h
  · exact illegalWord_sessionGoesOn (s := { s with host := host, fetch := fetch }) h

end Sys2Proof.Machine
end

section
/-! PROOFS. The pulls of one instruction (R73, R107, R153): a procedure that takes at most `n` bits makes at most the pulls
that `n` bits need, also where its last read fails. -/

namespace Sys2Proof.Machine

/-- From `s` to `t` no more bytes were pulled than `n` bits from `s` need (R49). -/
def PullsWithin (s : State) (n : Nat) (t : State) : Prop := t.pulled ≤ s.pulled + s.pullsFor n

theorem pullsWithin_portFree (s : State) (n : Nat) : PortFree (PullsWithin s n) := fun _ _ _ _ _ h => h

theorem pullsWithin_refl (s : State) (n : Nat) : PullsWithin s n s := Nat.le_add_right _ _

theorem pullsWithin_drained (s : State) (n : Nat) : PullsWithin s n (s.drained n) :=
  Nat.add_le_add_left (ahead_length_le (s.pullsFor n) s.src) _

section
variable {s t : State}

theorem PullsWithin.mono {m n : Nat} (h : PullsWithin s m t) (hmn : m ≤ n) : PullsWithin s n t :=
  h.trans (Nat.add_le_add_left (pullsFor_mono s hmn) _)

/-- The bits taken after `m` others count from their start together with these. -/
theorem PullsWithin.after_consumed {m n : Nat} (w : WindowOk s) (h : PullsWithin (s.consumed m) n t) :
    PullsWithin s (m + n) t := by
  rw [PullsWithin, consumed_pullsFor s m n w, ← Nat.add_assoc]
  exact h

/-- A pull that delivers no byte is not counted (R37). -/
theorem PullsWithin.endRes {α : Type} {n : Nat} (h : PullsWithin s n t) : (endRes t : Res α).All (PullsWithin s n) := by
  unfold Machine.endRes
  split
  · exact h
  · exact h
  · exact h
  · trivial

end

/-! ### The bits of each procedure -/

/-- The read in which a short record fails is inside the record (R91, R102). -/
theorem failingRead_le_stop {s : State} (hshort : ¬ s.offers (s.wireHeader 0).stop) {f : Nat} (hf : f < 6) :
    s.failingPosition 0 f + (s.fieldStart 0 (f + 1) - s.failingPosition 0 f) ≤ (s.wireHeader 0).stop := by
  have hstart : ∀ i ≤ 6, s.fieldStart 0 i ≤ (s.wireHeader 0).stop := fun i hi =>
    fieldStart_six s 0 ▸ fieldStart_mono s 0 i 6 hi (le_refl 6)
  have hposition : s.failingPosition 0 f ≤ (s.wireHeader 0).stop := by
    unfold State.failingPosition
    dsimp only
    split
    · rename_i hselector
      by_contra hbeyond
      exact hshort (offers_mono hselector.2 (Nat.le_of_not_le hbeyond))
    · exact hstart f hf.le
  have hend := hstart (f + 1) hf
  omega

section
variable {s : State} (w : WindowOk s)
include w

theorem peek_pullsWithin {n : Nat} (hn : n ≤ 56) : (peek n s).All (PullsWithin s n) := by
  by_cases hoff : s.offers n
  · rw [peek_ok n s w hn hoff]; exact le_refl _
  · rw [peek_short n s w hn hoff]; exact (pullsWithin_drained s n).endRes

theorem read_pullsWithin {n : Nat} (hn : n ≤ 56) : (read n s).All (PullsWithin s n) := by
  rcases read_cases n s w hn with ⟨-, -, e⟩ | ⟨-, e⟩ | ⟨-, -, e⟩ <;> rw [e]
  · exact le_refl _
  · exact (pullsWithin_drained s n).endRes
  · trivial

/-- A read, then what takes at most `n` bits of the stream behind it. -/
theorem read_bind_pullsWithin {α : Type} {m n : Nat} {k : Word64 → State → Res α} (hm : m ≤ 56)
    (hk : ∀ v, (k v (s.consumed m)).All (PullsWithin (s.consumed m) n)) :
    ((read m s).bind k).All (PullsWithin s (m + n)) := by
  refine (read_pullsWithin w hm).bind (fun _ h => h.mono (Nat.le_add_right m n)) fun v t e _ => ?_
  obtain ⟨-, -, -, rfl⟩ := offers_of_read_done w hm e
  exact (hk v).mono fun _ h => h.after_consumed w

/-- A read of the width of a FIXED or OFFSET descriptor takes at most 32 bits (R66). -/
theorem read_width_pullsWithin {wd : BitVec 6} (hw : widthOk wd = true) (f : Word64 → Word32) :
    ((read (countOf wd) s).bind fun v t => .done (f v) t).All (PullsWithin s 32) := by
  have h32 := widthOk_le hw
  exact (read_pullsWithin w (h32.trans (by decide))).bind (fun _ h => h.mono h32) fun _ _ _ h => h.mono h32

theorem decodeFixed_pullsWithin (wd : BitVec 6) : (decodeFixed wd s).All (PullsWithin s 32) := by
  unfold decodeFixed
  split
  · rename_i hw
    exact read_width_pullsWithin w hw valueOf
  · trivial

theorem decodeOffset_pullsWithin (wd : BitVec 6) (o : Word32) : (decodeOffset wd o s).All (PullsWithin s 32) := by
  unfold decodeOffset
  split
  · rename_i hw
    rw [Bool.and_eq_true] at hw
    exact read_width_pullsWithin w hw.1 fun v => valueOf v + o
  · trivial

theorem decodeArm_pullsWithin (T : Tables) (a : BitVec 6) : (decodeArm T a s).All (PullsWithin s 32) := by
  unfold decodeArm
  split
  · exact pullsWithin_refl s 32
  · exact decodeFixed_pullsWithin w _
  · exact decodeOffset_pullsWithin w _ _
  · trivial

/-- PSEL reads its selector and one arm (R89). -/
theorem decodePsel_pullsWithin (T : Tables) (a0 a1 a2 a3 : BitVec 6) :
    (decodePsel T a0 a1 a2 a3 s).All (PullsWithin s 34) := by
  unfold decodePsel
  split
  · exact read_bind_pullsWithin w (by decide) fun _ => decodeArm_pullsWithin (consumed_window s 2 w) T _
  · trivial

theorem decodeCodec_pullsWithin (T : Tables) (k : BitVec 6) : (decodeCodec T k s).All (PullsWithin s 34) := by
  have h34 : ∀ t, PullsWithin s 32 t → PullsWithin s 34 t := fun _ h => h.mono (by decide)
  unfold decodeCodec
  split
  · exact pullsWithin_refl s 34
  · exact (decodeFixed_pullsWithin w _).mono h34
  · exact (decodeOffset_pullsWithin w _ _).mono h34
  · exact decodePsel_pullsWithin w T _ _ _ _
  · trivial

/-- A field step decodes at most one codec (R97). -/
theorem stepField_pullsWithin (T : Tables) (codec : BitVec 6) (t0 t1 : Term) (d : Word32) :
    (stepField T codec t0 t1 d s).All (PullsWithin s 34) := by
  unfold stepField
  split
  · split
    · refine (present_all (P := PullsWithin s 34) (pullsWithin_refl s 34) t0 t1).bind (fun _ h => h) fun p t e _ => ?_
      obtain rfl := (present_same t0 t1 s).1 p t e
      cases p with
      | true => exact (decodeCodec_pullsWithin w T codec).bind (fun _ h => h) fun _ _ _ h => h
      | false => exact pullsWithin_refl t 34
    · trivial
  · trivial

/-- The failing read comes behind the bits of the record that are consumed. -/
theorem recordFails_pullsWithin (f n : Nat) :
    PullsWithin s (s.failingPosition 0 f + n) ((s.recordFails 0 f).drained n) :=
  PullsWithin.after_consumed w (pullsWithin_drained (s.recordFails 0 f) n)

/-- A record reads its own bits (R99, R107). -/
theorem runSchema_pullsWithin : (runSchema tables s).All (PullsWithin s 68) := by
  obtain ⟨-, h68⟩ := wireHeader_stop_range s
  rcases runSchema_wireHeader s w _ rfl with ⟨-, -, e⟩ | ⟨hshort, f, rfl, e⟩ | ⟨-, e⟩ <;> rw [e]
  · exact PullsWithin.mono (le_refl _) h68
  · have hread := failingRead_le_stop hshort (failingField_lt s 0 hshort)
    exact ((recordFails_pullsWithin w _ _).mono (hread.trans h68)).endRes
  · trivial

/-- A header reads the signature and a record; giving the source up pulls nothing (R115). -/
theorem readHeader_pullsWithin : (readHeader tables s).All (PullsWithin s 84) := by
  refine read_bind_pullsWithin w (m := 16) (n := 68) (by decide) fun v => ?_
  split
  · exact (runSchema_pullsWithin (consumed_window s 16 w)).bind (fun _ h => h) fun _ _ _ h => h
  · exact pullsWithin_refl (s.consumed 16) 68

end

/-! ### The instructions -/

/-- The bits that `i` takes at most (R56, R66, R107). -/
def bitBound : Instr → Nat
  | .peek _ | .read _ => 56
  | .bitsRead | .release | .const _ => 0
  | .rdt _ | .fixed _ | .offset _ _ | .psel _ _ _ _ | .field _ _ _ _ => 34
  | .run => 68
  | .rdHdr => 84

/-- The pulls of R153 are those that these bits need with nothing buffered. -/
theorem pullBound_eq (i : Instr) : pullBound i = (bitBound i + 7) / 8 := by
  cases i <;> simp [pullBound, bitBound]

theorem pullsFor_bitBound_le (s : State) (i : Instr) : s.pullsFor (bitBound i) ≤ pullBound i := by
  rw [pullBound_eq, State.pullsFor]
  omega

theorem endsIn_pullsWithin {s : State} (w : WindowOk s) (i : Instr) : EndsIn (PullsWithin s (bitBound i)) s i := by
  have hnone := pullsWithin_refl s
  have h34 : 32 ≤ 34 := by decide
  cases i with
  | peek n => exact fun hn => (peek_pullsWithin w hn).mono fun _ h => h.mono hn
  | read n => exact fun hn => (read_pullsWithin w hn).mono fun _ h => h.mono hn
  | bitsRead => exact hnone 0
  | release => exact hnone 0
  | rdt k => exact decodeCodec_pullsWithin w tables k
  | run => exact runSchema_pullsWithin w
  | rdHdr => exact readHeader_pullsWithin w
  | const c => exact hnone 0
  | fixed wd => exact (decodeFixed_pullsWithin w wd).mono fun _ h => h.mono h34
  | offset wd o => exact (decodeOffset_pullsWithin w wd o).mono fun _ h => h.mono h34
  | psel a0 a1 a2 a3 => exact decodePsel_pullsWithin w tables a0 a1 a2 a3
  | field codec t0 t1 dflt => exact stepField_pullsWithin w tables codec t0 t1 dflt

/-- Settles O53: the gate pulls nothing, and what it lets through the pulls of its bits. -/
theorem pullsOfAnInstructionAreBounded : Obligations.PullsOfAnInstructionAreBounded := by
  intro i s t w e
  have hpulls : PullsWithin s (bitBound i) t :=
    exec_keeps (pullsWithin_portFree s _) (pullsWithin_refl s _) (pullsWithin_refl s _)
      (fun _ => endsIn_pullsWithin w i) e
  exact hpulls.trans (Nat.add_le_add_left (pullsFor_bitBound_le s i) _)

end Sys2Proof.Machine
end

section
/-! PROOFS. Every command ends (R40, R57, R153): a procedure of the tables of R108 to R110 stops the model only where the
source never answers a pull or the count is at its end. -/

namespace Sys2Proof.Machine

/-- `p` is done, or has raised a fault: it does not stop the model. -/
def Res.Ends {α : Type} : Res α → Prop
  | .done _ _ => True
  | .raised _ => True
  | .stuck _ => False
  | .refused _ => False

theorem Res.Ends.bind {α β : Type} {p : Res α} {k : α → State → Res β} (hp : p.Ends)
    (hk : ∀ v t, p = .done v t → (k v t).Ends) : (p.bind k).Ends := by
  cases p with
  | done v t => exact hk v t rfl
  | raised t => trivial
  | stuck f => exact hp
  | refused r => exact hp

theorem Res.Ends.answer {p : Res Word64} (hp : p.Ends) : ∃ t, answer p = .next t := by
  cases p with
  | done v t => exact ⟨_, rfl⟩
  | raised t => exact ⟨t, rfl⟩
  | stuck f => cases hp
  | refused r => cases hp

/-! ### The source goes on answering -/

/-- The source after `a` pulls and then `b` is that after `a + b`, wherever it stops delivering. -/
theorem after_after (a b : Nat) (src : Source) : (src.after a).after b = src.after (a + b) := by
  by_cases hfull : (src.ahead a).length = a
  · exact (ahead_add a b src hfull).2.symm
  · have hshort : (src.ahead a).length < a := lt_of_le_of_ne (ahead_length_le a src) hfull
    rw [after_stop (after_short a src hshort), ← (ahead_prefix (a + b) src).2,
      ahead_short a (a + b) src hshort (Nat.le_add_right a b), (ahead_prefix a src).2]

theorem SourceAnswers.after {s t : State} {k : Nat} (h : SourceAnswers s) (ht : t.src = s.src.after k) :
    SourceAnswers t := by
  intro j
  rw [ht, after_after]
  exact h (k + j)

section
variable {s : State} (h : SourceAnswers s)
include h

theorem SourceAnswers.consumed (n : Nat) : SourceAnswers (s.consumed n) := h.after rfl

/-- A read that fails in such a source raises a fault (R121, R122). -/
theorem SourceAnswers.endRes_drained {α : Type} (n : Nat) : (endRes (s.drained n) : Res α).Ends := by
  have hpull : (s.drained n).src.pull ≠ none := h _
  unfold endRes
  split
  · trivial
  · trivial
  · trivial
  · exact hpull ‹_›

end

/-! ### The procedures -/

/-- The widest entry of `CT` is the 4-arm integer, with its selector (R108). -/
theorem wireCodec_bits_le (s : State) (p k : Nat) : (s.wireCodec p k).2 ≤ 32 := by
  have harm := armBits_le (s.bits p 2)
  unfold State.wireCodec
  split <;> dsimp only <;> omega

section
variable {s : State} (w : WindowOk s) (h : SourceAnswers s)
include w h

theorem peek_ends {n : Nat} (hn : n ≤ 56) : (peek n s).Ends := by
  by_cases hoff : s.offers n
  · rw [peek_ok n s w hn hoff]; trivial
  · rw [peek_short n s w hn hoff]; exact h.endRes_drained n

theorem read_ends {n : Nat} (hn : n ≤ 56) (hcount : s.bitsRead.toNat + n < 2 ^ 64) : (read n s).Ends := by
  rcases read_cases n s w hn with ⟨-, -, e⟩ | ⟨-, e⟩ | ⟨-, hover, -⟩
  · rw [e]; trivial
  · rw [e]; exact h.endRes_drained n
  · exact absurd hover (Nat.not_le.mpr hcount)

theorem decodeCodec_ends {k : BitVec 6} (hk : k.toNat < 10) (hcount : s.bitsRead.toNat + 32 < 2 ^ 64) :
    (decodeCodec tables k s).Ends := by
  have hbits := wireCodec_bits_le s 0 k.toNat
  rcases decodeCodec_cases k s w hk with ⟨-, -, e⟩ | ⟨-, m, -, -, e⟩ | ⟨hover, -⟩
  · rw [e]; trivial
  · rw [e]; exact (h.consumed m).endRes_drained _
  · omega

theorem runSchema_ends (hcount : s.bitsRead.toNat + 68 < 2 ^ 64) : (runSchema tables s).Ends := by
  obtain ⟨-, h68⟩ := wireHeader_stop_range s
  rcases runSchema_wireHeader s w _ rfl with ⟨-, -, e⟩ | ⟨-, f, -, e⟩ | ⟨hover, -⟩
  · rw [e]; trivial
  · rw [e]
    have hfails : SourceAnswers (s.recordFails 0 f) := h.consumed (s.failingPosition 0 f)
    exact hfails.endRes_drained _
  · omega

theorem readHeader_ends (hcount : s.bitsRead.toNat + 84 < 2 ^ 64) : (readHeader tables s).Ends := by
  refine (read_ends w h (by decide) (by simp only [Config.sigW]; omega)).bind fun v t e => ?_
  obtain ⟨-, hcount16, -, rfl⟩ := offers_of_read_done w (by decide) e
  split
  · have hcountRecord : (s.consumed 16).bitsRead.toNat + 68 < 2 ^ 64 := by
      rw [consumed_bitsRead s 16 hcount16]; omega
    exact (runSchema_ends (consumed_window s 16 w) (h.consumed 16) hcountRecord).bind fun _ _ _ => trivial
  · trivial

end

/-! ### The commands -/

/-- The gate answers, or lets the command through (R77). -/
theorem gated_progress {legal : Bool} {p : State → Res Word64} {s : State} (hp : legal = true → (p s).Ends) :
    ∃ t, gated legal (fun u => answer (p u)) s = .next t := by
  by_cases hf : s.fault = 0
  · by_cases hstop : legal = false ∨ s.own = false
    · exact ⟨_, gated_stopped legal _ s hf hstop⟩
    · obtain ⟨hlegal, hown⟩ : legal = true ∧ s.own = true := by simpa using hstop
      rw [gated_active legal _ s ⟨hf, hown⟩ hlegal]
      exact (hp hlegal).answer
  · exact ⟨_, gated_faulted legal _ s hf⟩

theorem exec_progress {i : Instr} {s : State} (hcmd : isDescriptor i = false) (w : WindowOk s) (h : SourceAnswers s)
    (hcount : s.bitsRead.toNat + 84 < 2 ^ 64) : ∃ t, exec i s = .next t := by
  cases i with
  | peek n => exact gated_progress (p := peek n.toNat) fun hl => peek_ends w h (countOk_le hl)
  | read n =>
    refine gated_progress (p := read n.toNat) fun hl => ?_
    have hn := countOk_le hl
    exact read_ends w h hn (by omega)
  | bitsRead => exact ⟨_, rfl⟩
  | release => exact gated_progress (p := fun u => .done 0 (release u)) fun _ => trivial
  | rdt k =>
    refine gated_progress (p := fun u => (decodeCodec tables k u).bind fun v x => .done (v.setWidth 64) x) fun hl => ?_
    have hk : k.toNat < 10 := Nat.lt_succ_of_le (indexOk_tables_iff.mp hl)
    exact (decodeCodec_ends w h hk (by omega)).bind fun _ _ _ => trivial
  | run => exact gated_progress (p := runSchema tables) fun _ => runSchema_ends w h (by omega)
  | rdHdr => exact gated_progress (p := readHeader tables) fun _ => readHeader_ends w h hcount
  | const c => cases hcmd
  | fixed wd => cases hcmd
  | offset wd o => cases hcmd
  | psel a0 a1 a2 a3 => cases hcmd
  | field codec t0 t1 dflt => cases hcmd

/-- Settles O54: `exec_progress`, with the response of O14 and the pulls of O53. -/
theorem everyCommandEndsWhenTheSourceAnswers : Obligations.EveryCommandEndsWhenTheSourceAnswers := by
  intro i s hcmd w h hcount
  obtain ⟨t, e⟩ := exec_progress hcmd w h hcount
  obtain ⟨r, hresp, -⟩ := everyCommandAnswersWithTheFaultStatus i s t hcmd e
  have hpulls := pullsOfAnInstructionAreBounded i s t w e
  refine ⟨t, r, e, hresp, ?_, ?_, ?_⟩
  · rintro ⟨n, rfl | rfl⟩
    · exact hpulls
    · exact hpulls
  · rintro ⟨k, rfl⟩
    exact hpulls
  · rintro rfl
    exact hpulls

end Sys2Proof.Machine
end
